-- ==== Sys2Proof/Word.lean ====
section
/-! DEFINITION. The two word types of the block: the 32-bit bus word and the byte (rules R8, R62). -/

namespace Sys2Proof

/-- A 32-bit word: a command word, a register, one bus access (rules R8, R62, R80). -/
abbrev Word := BitVec 32

/-- A byte: an input byte, a codeword, an element of GF(256) (rules R9, R140). -/
abbrev Byte := BitVec 8

end Sys2Proof
end

