-- ==== Sys2Proof/Config.lean ====
section
/-! DEFINITION. What an implementation or the platform fixes, and the free values of the spec. Nothing in Lean can say
what an opaque constant is, so no statement rests on its value. -/

namespace Sys2Proof.Config

/-- Bytes of one bus access: the bus data width of rule R6 is 32 bits (rule R63). -/
def busBytes : Nat := 4

/-- Size of the register window in bytes (rules R6, R15). -/
def windowBytes : Nat := 0x4000

/-- `BASE`, the byte address of the window on the host bus: OPEN (rules R6, R68, U1). No rule depends on it, and the
model's accesses carry offsets from it, as `MemRead` and `MemWrite` of rule R11 do (log 9). -/
opaque base : Nat

/-- The host bus address of the window offset `off` (rules R11, R15). -/
def busAddress (off : Nat) : Nat := base + off

/-- The `n`-th unspecified word: what a host read of an input, a result, a buffer or a plane returns while `BUSY = 1`,
"a free draw of 32 bits under no law, for each read" (rule R70, U3; log 3). -/
opaque freeWord : Nat → Word

end Sys2Proof.Config
end

