-- ==== Sys2Proof/Syntax.lean ====
section
/-! DEFINITION. The host command set (rule R84): one constructor per row of the opcode table. -/

namespace Sys2Proof

/-- A command of the block. `mid` is the mask id field and `n` the count of EC codewords of rule R81, both unsigned
numbers (rule R83); their ranges are checked in `WellFormed.lean`. A word that rule R85 maps to `BAD` is no command: the
decoder rejects it by name. -/
inductive Instr where
  /-- `NOP` (rule R104). -/
  | nop
  /-- `SOFT_RESET` (rule R105). -/
  | softReset
  /-- `ENCODE`, with the force-mask flag `FM` and the mask id `MID` (rule R107). -/
  | encode (fm : Bool) (mid : Nat)
  /-- `GF_MUL` (rule R144). -/
  | gfMul
  /-- `GF_EXP` (rule R145). -/
  | gfExp
  /-- `GF_LOG` (rule R146). -/
  | gfLog
  /-- `PAD` (rule R124). -/
  | pad
  /-- `ECC` (rule R167). -/
  | ecc
  /-- `RS_ENCODE`, with the count of EC codewords `N` (rule R162). -/
  | rsEncode (n : Nat)
  /-- `BUILD_SKELETON` (rule R192). -/
  | buildSkeleton
  /-- `PLACE` (rule R211). -/
  | place
  /-- `MASK_SELECT` (rule R231). -/
  | maskSelect
  /-- `MASK_APPLY`, with the mask id `MID` (rule R234). -/
  | maskApply (mid : Nat)
  /-- `FORMAT_WRITE` (rule R239). -/
  | formatWrite
  deriving DecidableEq, Repr

end Sys2Proof
end

