-- ==== Sys2Proof/WellFormed.lean ====
section
/-! DEFINITION. The ranges a command's fields have in the encoding (rules R81, R83). -/

namespace Sys2Proof

/-- The mask id fits its 3-bit field: 0 to 7 (rule R83). -/
def maskIdInRange (mid : Nat) : Bool := mid < 8

/-- The count of EC codewords fits its 8-bit field: 0 to 255 (rule R83). A count with no generator polynomial is
well-formed: it fails when the command runs (rules R83, R162). -/
def eccCountInRange (n : Nat) : Bool := n < 256

/-- A command whose fields an encoding can hold. -/
def Instr.wellFormed : Instr → Bool
  | .encode _ mid => maskIdInRange mid
  | .rsEncode n => eccCountInRange n
  | .maskApply mid => maskIdInRange mid
  | .nop | .softReset | .gfMul | .gfExp | .gfLog | .pad | .ecc => true
  | .buildSkeleton | .place | .maskSelect | .formatWrite => true

end Sys2Proof
end

