-- ==== Sys2Proof/Decode.lean ====
section
/-! DEFINITION. Decoding of a command word, total on every 32-bit word (rule R85), and the encoder, from the same field
table (rules R81, R82, R84). -/

namespace Sys2Proof

/-- Why a word is `BAD` (rules R82, R84, R85). All three end alike, in `BAD_COMMAND` (rule R86). -/
inductive Reject where
  /-- `R1` or `R2` is not 0. -/
  | reservedField
  /-- A field that the opcode does not use is not 0. -/
  | unusedField
  /-- `OP` is a reserved opcode. -/
  | reservedOpcode
  deriving DecidableEq, Repr

/-- `OP`, bits 7:0 (rule R81). -/
def fieldOP (w : Word) : Nat := (w.extractLsb' 0 8).toNat

/-- `FM`, bit 8 (rule R81). -/
def fieldFM (w : Word) : Bool := w.getLsbD 8

/-- `MID`, bits 11:9 (rule R81). -/
def fieldMID (w : Word) : Nat := (w.extractLsb' 9 3).toNat

/-- `R1`, bits 15:12 (rule R81). -/
def fieldR1 (w : Word) : Nat := (w.extractLsb' 12 4).toNat

/-- `N`, bits 23:16 (rule R81). -/
def fieldN (w : Word) : Nat := (w.extractLsb' 16 8).toNat

/-- `R2`, bits 31:24 (rule R81). -/
def fieldR2 (w : Word) : Nat := (w.extractLsb' 24 8).toNat

/-- The command `i` of an opcode that uses no field: bits 31:8 must be 0 (rules R82, R85). -/
def decodePlain (w : Word) (i : Instr) : Except Reject Instr :=
  if (w.extractLsb' 8 24).toNat = 0 then .ok i else .error .unusedField

/-- `decode` of rule R85. `BAD` is answered with the reason; in `ENCODE` with `FM = 0` the `MID` field is kept, and
ignored when the command runs (rules R82, R107; log 12). -/
def decode (w : Word) : Except Reject Instr :=
  if fieldR1 w ≠ 0 ∨ fieldR2 w ≠ 0 then .error .reservedField
  else match fieldOP w with
    | 0x10 => if fieldN w ≠ 0 then .error .unusedField else .ok (.encode (fieldFM w) (fieldMID w))
    | 0x32 => if fieldFM w = true ∨ fieldMID w ≠ 0 then .error .unusedField else .ok (.rsEncode (fieldN w))
    | 0x51 => if fieldFM w = true ∨ fieldN w ≠ 0 then .error .unusedField else .ok (.maskApply (fieldMID w))
    | 0x00 => decodePlain w .nop
    | 0x01 => decodePlain w .softReset
    | 0x20 => decodePlain w .gfMul
    | 0x21 => decodePlain w .gfExp
    | 0x22 => decodePlain w .gfLog
    | 0x30 => decodePlain w .pad
    | 0x31 => decodePlain w .ecc
    | 0x40 => decodePlain w .buildSkeleton
    | 0x41 => decodePlain w .place
    | 0x50 => decodePlain w .maskSelect
    | 0x52 => decodePlain w .formatWrite
    | _ => .error .reservedOpcode

/-- A word of format `C` from its fields, `R1 = R2 = 0` (rule R81). -/
def assemble (op : BitVec 8) (fm : Bool) (mid : Nat) (n : Nat) : Word :=
  0#8 ++ BitVec.ofNat 8 n ++ 0#4 ++ BitVec.ofNat 3 mid ++ BitVec.ofBool fm ++ op

/-- The opcode of a command (rule R84). -/
def opcodeOf : Instr → BitVec 8
  | .nop => 0x00#8
  | .softReset => 0x01#8
  | .encode _ _ => 0x10#8
  | .gfMul => 0x20#8
  | .gfExp => 0x21#8
  | .gfLog => 0x22#8
  | .pad => 0x30#8
  | .ecc => 0x31#8
  | .rsEncode _ => 0x32#8
  | .buildSkeleton => 0x40#8
  | .place => 0x41#8
  | .maskSelect => 0x50#8
  | .maskApply _ => 0x51#8
  | .formatWrite => 0x52#8

/-- The word of a well-formed command: its opcode, the fields it uses (rule R82), zeros elsewhere. -/
def encode (i : Instr) : Word :=
  match i with
  | .encode fm mid => assemble (opcodeOf i) fm mid 0
  | .rsEncode n => assemble (opcodeOf i) false 0 n
  | .maskApply mid => assemble (opcodeOf i) false mid 0
  | .nop | .softReset | .gfMul | .gfExp | .gfLog | .pad | .ecc => assemble (opcodeOf i) false 0 0
  | .buildSkeleton | .place | .maskSelect | .formatWrite => assemble (opcodeOf i) false 0 0

/-- The command that the decoder reads from the word with bits `w`, of which the opcode table gives `nbits` (32 in every
row). -/
def decodeTableWord (nbits w : Nat) : Option Instr := (decode (BitVec.ofNat 32 (w % 2 ^ nbits))).toOption

end Sys2Proof
end

