-- ==== Sys2Proof/Machine/State.lean ====
section
/-! DEFINITION. Everything the spec gives the block (rule R38), as plain data: the registers, the buffers and planes in
one memory keyed by window offset, and the model's own record of what the host and the sequencer do next. -/

namespace Sys2Proof.Machine

/-- The buffers and planes of rules R31 and R32, by window offset, in one canonical form: offsets strictly rising, and no
entry equal to what an unlisted offset reads as (log 6). -/
abbrev Memory := List Host.Cell

/-- What a byte of a buffer or plane that is not listed reads as: its reset value (rule R38). -/
def Memory.unlisted : Byte := 0

/-- The offsets rise strictly and are all at or above `lo`, and no entry is one an unlisted offset reads as. -/
def Memory.wfFrom : Nat → List Host.Cell → Bool
  | _, [] => true
  | lo, (a, v) :: m => decide (lo ≤ a) && (v != Memory.unlisted) && Memory.wfFrom (a + 1) m

/-- The canonical form of memory, so that equal memories are equal data. -/
def Memory.wf (m : Memory) : Bool := Memory.wfFrom 0 m

/-- `STATUS` (rule R18): its stored fields. The reserved bits read 0 and cannot be written, so nothing is stored for
them. -/
structure Status where
  /-- A command is accepted and has not completed. -/
  busy : Bool
  /-- A command has completed. -/
  done : Bool
  /-- A command has completed with an error. -/
  err : Bool
  /-- The host wrote a refused location while `BUSY = 1`. -/
  overrun : Bool
  /-- The error code of rule R252. -/
  errCode : BitVec 4
  deriving DecidableEq, Repr

/-- What happens at the block (rules R13, R280). Offsets are from `BASE`; `bytes` is the width of the access. -/
inductive Event where
  /-- `MemRead(addr, bytes)` of the host (rule R62). -/
  | read (bytes addr : Nat)
  /-- `MemWrite(addr, bytes, v)` of the host (rule R62). -/
  | write (bytes addr : Nat) (v : Word)
  /-- The command sequencer's turn: it completes the running command, if there is one (rules R100, R102). -/
  | sequencer
  /-- The hardware reset is asserted (rule R280). -/
  | hardReset
  deriving DecidableEq, Repr

/-- The state of the block. `ID` and the constant tables have no field: they are constants (rules R16, R35); `irq` has
none: it is a function of `STATUS` and `IRQEN` (rule R258). The last three fields are the model's own. -/
structure State where
  /-- `CMD`: the last accepted command word (rule R17). -/
  cmd : Word
  /-- `STATUS` (rule R18). -/
  status : Status
  /-- `IRQEN`: bit 0 `DONE_IE`, bit 1 `ERR_IE`, bit 2 `OVR_IE` (rule R19). -/
  irqen : BitVec 3
  /-- `ARG` (rule R20). -/
  arg : Word
  /-- `RESULT` (rule R21). -/
  result : Word
  /-- `LEN` (rule R22). -/
  len : BitVec 9
  /-- `VERSION` (rule R23). -/
  version : BitVec 4
  /-- `MASK` (rule R24). -/
  mask : BitVec 3
  /-- `FMT` (rule R25). -/
  fmt : BitVec 15
  /-- `VERINFO` (rule R26). -/
  verinfo : BitVec 18
  /-- `CELLCNT` (rule R27). -/
  cellcnt : BitVec 12
  /-- `BITLEN` (rule R28). -/
  bitlen : BitVec 12
  /-- `PENALTY0` to `PENALTY7` (rule R29). -/
  penalty : Vector Word 8
  /-- `PEN[m][k]` (rule R30). -/
  pen : Vector (Vector Word 4) 8
  /-- `INBUF`, `DATA_CW`, `CW`, `RS_IN`, `RS_OUT`, `M_DARK`, `M_SET`, `M_RSV` (rules R31, R32). -/
  mem : Memory
  /-- What the host, the platform and the sequencer do next, oldest first (log 1). -/
  events : List Event
  /-- How many unspecified words have been drawn (log 3). -/
  draws : Nat
  /-- The word the last host read returned on the bus (log 4). -/
  busRead : Word
  deriving DecidableEq, Repr

/-- Why the machine stops with a fault. -/
inductive Fault where
  /-- Raised by a host access at or above offset 0x4000: no location of the block (rule R62, "outside the block"). Safe:
  nothing is claimed of such an access (log 7). -/
  | outsideWindow (addr : Nat)
  deriving DecidableEq, Repr

/-- Why the model gives no meaning. -/
inductive Refusal where
  /-- Raised by `exec` for a command that has no meaning yet. Safe. No command is left so. -/
  | notModelled (mnemonic : String)
  /-- Raised by a host access that is not 4 bytes wide: "A model refuses any access of another width" (rule R63, U5).
  Safe (log 7). -/
  | accessWidth (bytes : Nat)
  deriving DecidableEq, Repr

/-- What one step answers. -/
abbrev Out := Host.Outcome State Fault Refusal

/-- `STATUS` after reset (rule R38). -/
def Status.reset : Status := { busy := false, done := false, err := false, overrun := false, errCode := 0 }

/-- The block right after the hardware reset (rules R38, R281): every register, buffer byte and plane bit is 0 and no
command is in progress. The model's own fields: nothing is scheduled, nothing drawn, nothing read (log 1, 3, 4). -/
def State.reset : State :=
  { cmd := 0, status := Status.reset, irqen := 0, arg := 0, result := 0, len := 0, version := 0, mask := 0, fmt := 0
    verinfo := 0, cellcnt := 0, bitlen := 0
    penalty := #v[0, 0, 0, 0, 0, 0, 0, 0]
    pen := #v[#v[0, 0, 0, 0], #v[0, 0, 0, 0], #v[0, 0, 0, 0], #v[0, 0, 0, 0],
              #v[0, 0, 0, 0], #v[0, 0, 0, 0], #v[0, 0, 0, 0], #v[0, 0, 0, 0]]
    mem := [], events := [], draws := 0, busRead := 0 }

end Sys2Proof.Machine
end

