-- ==== Sys2Proof/Machine/Flags.lean ====
section
/-! DEFINITION. `STATUS`, its five stored fields and every event that changes them, and the interrupt output (rules R18,
R37, R101, R102, R103, R258). There are no condition codes (rule R37). -/

namespace Sys2Proof.Machine

/-- The errors a command can raise (rule R252). -/
inductive ErrCode where
  | tooLong | unsupportedConfig | internalSizeMismatch | badVersion | badArgument | badCommand | unsetRead
  deriving DecidableEq, Repr

/-- `STATUS.ERRCODE` of an error (rule R252). -/
def ErrCode.bits : ErrCode → BitVec 4
  | .tooLong => 1 | .unsupportedConfig => 2 | .internalSizeMismatch => 3 | .badVersion => 4 | .badArgument => 5
  | .badCommand => 6 | .unsetRead => 7

/-- `STATUS` as the host reads it: `BUSY`, `DONE`, `ERR`, `OVERRUN` in bits 0 to 3, `ERRCODE` in bits 11:8, every other
bit 0 (rule R18). -/
def Status.word (t : Status) : Word :=
  0#20 ++ t.errCode ++ 0#4 ++ BitVec.ofBool t.overrun ++ BitVec.ofBool t.err ++ BitVec.ofBool t.done ++
    BitVec.ofBool t.busy

/-- Command acceptance (rule R101): `DONE`, `ERR` and `ERRCODE` cleared, `BUSY` set, `OVERRUN` not changed. -/
def Status.accepted (t : Status) : Status := { t with busy := true, done := false, err := false, errCode := 0 }

/-- Command completion without an error, or with the error `e` (rule R102). `ERR` and `ERRCODE` are written on an error
only: acceptance has cleared them. -/
def Status.completed (e : Option ErrCode) (t : Status) : Status :=
  match e with
  | none => { t with busy := false, done := true }
  | some e => { t with busy := false, done := true, err := true, errCode := e.bits }

/-- A refused host write sets `OVERRUN` and nothing else (rules R70, R103, R255). -/
def Status.refused (t : Status) : Status := { t with overrun := true }

/-- A host write of `v` to `STATUS` (rule R18): bit 1 clears `DONE`; bit 2 clears `ERR` and `ERRCODE`; bit 3 clears
`OVERRUN`; nothing else changes. -/
def Status.cleared (v : Word) (t : Status) : Status :=
  { t with
    done := t.done && !v.getLsbD 1
    err := t.err && !v.getLsbD 2
    overrun := t.overrun && !v.getLsbD 3
    errCode := if v.getLsbD 2 then 0 else t.errCode }

/-- The interrupt output, at every instant (rule R258). -/
def State.irq (s : State) : Bool :=
  (s.status.done && s.irqen.getLsbD 0) || (s.status.err && s.irqen.getLsbD 1) ||
    (s.status.overrun && s.irqen.getLsbD 2)

end Sys2Proof.Machine
end

