-- ==== Sys2Proof/Machine/Bits.lean ====
section
/-! DEFINITION. Bits, bytes and words: the bit order of the data path (rules R9, R61), the byte order of the bus (rule
R60) and the bit order of a plane row (rule R32). -/

namespace Sys2Proof.Machine

/-- The number `n` as `w` bits, most significant bit first (rule R9). -/
def natBits (w n : Nat) : List Bool := (List.range w).map fun k => n.testBit (w - 1 - k)

/-- A byte as 8 bits, most significant bit first (rule R9). -/
def byteBits (b : Byte) : List Bool := natBits 8 b.toNat

/-- A byte sequence as bits (rules R9, R61). -/
def bytesBits (bs : List Byte) : List Bool := bs.flatMap byteBits

/-- The number whose bits, most significant first, are `bs`. -/
def bitsNat (bs : List Bool) : Nat := bs.foldl (fun n b => 2 * n + b.toNat) 0

/-- The first `n` bytes of a bit sequence, most significant bit first. -/
def bitsBytes : Nat → List Bool → List Byte
  | 0, _ => []
  | n + 1, bs => BitVec.ofNat 8 (bitsNat (bs.take 8)) :: bitsBytes n (bs.drop 8)

/-- A list made exactly `n` long: cut, or filled up with `x`. -/
def fitTo {α : Type} (n : Nat) (x : α) (l : List α) : List α := (l ++ List.replicate n x).take n

/-- The 4 bytes of a bus word, byte 0 in bits 7:0 (rule R60). -/
def wordBytes (v : Word) : List Byte :=
  [v.extractLsb' 0 8, v.extractLsb' 8 8, v.extractLsb' 16 8, v.extractLsb' 24 8]

/-- The bus word of 4 bytes, `b0` in bits 7:0 (rule R60). -/
def wordOfBytes (b0 b1 b2 b3 : Byte) : Word := b3 ++ b2 ++ b1 ++ b0

/-- The bits of a plane row's bytes, column 0 first: bit `b` of a word is column `32*h + b`, so bit `i` of byte `k` is
column `8*k + i` (rules R32, R60). -/
def rowBits (bytes : List Byte) : List Bool :=
  bytes.flatMap fun b => (List.range 8).map fun i => b.getLsbD i

/-- The first `n` bytes of a plane row from its bits, column 0 first (rules R32, R60). -/
def rowBytes : Nat → List Bool → List Byte
  | 0, _ => []
  | n + 1, bs => BitVec.ofNat 8 (bitsNat (bs.take 8).reverse) :: rowBytes n (bs.drop 8)

end Sys2Proof.Machine
end

