-- ==== Sys2Proof/Machine/Tables.lean ====
section
/-! DEFINITION. The constant tables of rule R35 and the fixed parameters of rule R6. They have no address, no reset and
no write path (rule R284). -/

namespace Sys2Proof.Machine

/-- `ID` (rule R16): "QR", highest version 10, interface revision 1. -/
def idWord : Word := 0x51520A01

/-- The greatest input length, in bytes: `MAX_LEN` (rule R6). -/
def maxLen : Nat := 271

/-- Rows and columns of a plane: `S_MAX` (rules R6, R32). -/
def planeSide : Nat := 57

/-- Bytes of a plane row in the window: two words (rule R32). -/
def rowStride : Nat := 8

/-- Bytes of a plane in the window: 114 words (rules R15, R32). -/
def planeBytes : Nat := 456

/-- `size(v) = 17 + 4*v`, the side of a symbol (rules R6, R121). -/
def symbolSize (v : Nat) : Nat := 17 + 4 * v

/-- The legal versions: `V_MIN` to `V_MAX` (rules R6, R23). -/
def legalVersion (v : Nat) : Bool := decide (1 ≤ v) && decide (v ≤ 10)

/-- Data codewords per version: `DATA_CW_OF[v]` (rule R121). -/
def dataCwOf : Nat → Nat
  | 1 => 19 | 2 => 34 | 3 => 55 | 4 => 80 | 5 => 108 | 6 => 136 | 7 => 156 | 8 => 194 | 9 => 232 | 10 => 274
  | _ => 0

/-- Width of the character count: `CC_BITS[v]` (rule R121). -/
def ccBits : Nat → Nat
  | 10 => 16
  | _ => 8

/-- Byte capacity per version: `CAP[v]` (rule R121). -/
def capOf : Nat → Nat
  | 1 => 17 | 2 => 32 | 3 => 53 | 4 => 78 | 5 => 106 | 6 => 134 | 7 => 154 | 8 => 192 | 9 => 230 | 10 => 271
  | _ => 0

/-- Data codewords of each RS block, in order: `BLOCKS[v]` (rule R165). -/
def blocksOf : Nat → List Nat
  | 1 => [19] | 2 => [34] | 3 => [55] | 4 => [80] | 5 => [108]
  | 6 => [68, 68] | 7 => [78, 78] | 8 => [97, 97] | 9 => [116, 116] | 10 => [68, 68, 69, 69]
  | _ => []

/-- EC codewords of each RS block: `EC_PER_BLOCK[v]` (rule R165). -/
def ecPerBlock : Nat → Nat
  | 1 => 7 | 2 => 10 | 3 => 15 | 4 => 20 | 5 => 26 | 6 => 18 | 7 => 20 | 8 => 24 | 9 => 30 | 10 => 18
  | _ => 0

/-- Codewords of a symbol, data and EC: `TOTAL_CW[v]` (rules R165, R183). -/
def totalCw : Nat → Nat
  | 1 => 26 | 2 => 44 | 3 => 70 | 4 => 100 | 5 => 134 | 6 => 172 | 7 => 196 | 8 => 242 | 9 => 292 | 10 => 346
  | _ => 0

/-- Unreserved cells left after the codeword bits: `REM_CELLS[v]` (rule R183). -/
def remCells : Nat → Nat
  | 2 => 7 | 3 => 7 | 4 => 7 | 5 => 7 | 6 => 7
  | _ => 0

/-- Alignment centre coordinates: `ALIGN_POS[v]` (rule R187). -/
def alignPos : Nat → List Nat
  | 2 => [6, 18] | 3 => [6, 22] | 4 => [6, 26] | 5 => [6, 30] | 6 => [6, 34]
  | 7 => [6, 22, 38] | 8 => [6, 24, 42] | 9 => [6, 26, 46] | 10 => [6, 28, 50]
  | _ => []

/-- The 15-bit format word of level L and mask `m`: `FORMAT_WORD[m]` (rule R237). -/
def formatWord : Nat → BitVec 15
  | 0 => 0x77C4 | 1 => 0x72F3 | 2 => 0x7DAA | 3 => 0x789D | 4 => 0x662F | 5 => 0x6318 | 6 => 0x6C41 | 7 => 0x6976
  | _ => 0

/-- The 18-bit version word: `VERSION_WORD[v]`, versions 7 to 10 (rule R195); 0 below 7, where no version area exists
and `VERINFO` is 0 (rule R190). -/
def versionWord : Nat → BitVec 18
  | 7 => 0x07C94 | 8 => 0x085BC | 9 => 0x09A99 | 10 => 0x0A4D3
  | _ => 0

/-- `MASK_FN[m](i, j)`, `i` the row and `j` the column (rule R225). -/
def maskFn (m i j : Nat) : Bool :=
  match m with
  | 0 => (i + j) % 2 == 0
  | 1 => i % 2 == 0
  | 2 => j % 3 == 0
  | 3 => (i + j) % 3 == 0
  | 4 => (i / 2 + j / 3) % 2 == 0
  | 5 => i * j % 2 + i * j % 3 == 0
  | 6 => (i * j % 2 + i * j % 3) % 2 == 0
  | 7 => ((i + j) % 2 + i * j % 3) % 2 == 0
  | _ => false

/-- `GF_EXP[0..254]` (rule R140). -/
def gfExpTable : List Byte :=
  [1, 2, 4, 8, 16, 32, 64, 128, 29, 58, 116, 232, 205, 135, 19, 38] ++
  [76, 152, 45, 90, 180, 117, 234, 201, 143, 3, 6, 12, 24, 48, 96, 192] ++
  [157, 39, 78, 156, 37, 74, 148, 53, 106, 212, 181, 119, 238, 193, 159, 35] ++
  [70, 140, 5, 10, 20, 40, 80, 160, 93, 186, 105, 210, 185, 111, 222, 161] ++
  [95, 190, 97, 194, 153, 47, 94, 188, 101, 202, 137, 15, 30, 60, 120, 240] ++
  [253, 231, 211, 187, 107, 214, 177, 127, 254, 225, 223, 163, 91, 182, 113, 226] ++
  [217, 175, 67, 134, 17, 34, 68, 136, 13, 26, 52, 104, 208, 189, 103, 206] ++
  [129, 31, 62, 124, 248, 237, 199, 147, 59, 118, 236, 197, 151, 51, 102, 204] ++
  [133, 23, 46, 92, 184, 109, 218, 169, 79, 158, 33, 66, 132, 21, 42, 84] ++
  [168, 77, 154, 41, 82, 164, 85, 170, 73, 146, 57, 114, 228, 213, 183, 115] ++
  [230, 209, 191, 99, 198, 145, 63, 126, 252, 229, 215, 179, 123, 246, 241, 255] ++
  [227, 219, 171, 75, 150, 49, 98, 196, 149, 55, 110, 220, 165, 87, 174, 65] ++
  [130, 25, 50, 100, 200, 141, 7, 14, 28, 56, 112, 224, 221, 167, 83, 166] ++
  [81, 162, 89, 178, 121, 242, 249, 239, 195, 155, 43, 86, 172, 69, 138, 9] ++
  [18, 36, 72, 144, 61, 122, 244, 245, 247, 243, 251, 235, 203, 139, 11, 22] ++
  [44, 88, 176, 125, 250, 233, 207, 131, 27, 54, 108, 216, 173, 71, 142]

/-- `GF_LOG[1..255]`, the entry of `a` at place `a - 1`: there is no entry for 0 (rule R141). -/
def gfLogTable : List Nat :=
  [0, 1, 25, 2, 50, 26, 198, 3, 223, 51, 238, 27, 104, 199, 75, 4] ++
  [100, 224, 14, 52, 141, 239, 129, 28, 193, 105, 248, 200, 8, 76, 113, 5] ++
  [138, 101, 47, 225, 36, 15, 33, 53, 147, 142, 218, 240, 18, 130, 69, 29] ++
  [181, 194, 125, 106, 39, 249, 185, 201, 154, 9, 120, 77, 228, 114, 166, 6] ++
  [191, 139, 98, 102, 221, 48, 253, 226, 152, 37, 179, 16, 145, 34, 136, 54] ++
  [208, 148, 206, 143, 150, 219, 189, 241, 210, 19, 92, 131, 56, 70, 64, 30] ++
  [66, 182, 163, 195, 72, 126, 110, 107, 58, 40, 84, 250, 133, 186, 61, 202] ++
  [94, 155, 159, 10, 21, 121, 43, 78, 212, 229, 172, 115, 243, 167, 87, 7] ++
  [112, 192, 247, 140, 128, 99, 13, 103, 74, 222, 237, 49, 197, 254, 24, 227] ++
  [165, 153, 119, 38, 184, 180, 124, 17, 68, 146, 217, 35, 32, 137, 46, 55] ++
  [63, 209, 91, 149, 188, 207, 205, 144, 135, 151, 178, 220, 252, 190, 97, 242] ++
  [86, 211, 171, 20, 42, 93, 158, 132, 60, 57, 83, 71, 109, 65, 162, 31] ++
  [45, 67, 216, 183, 123, 164, 118, 196, 23, 73, 236, 127, 12, 111, 246, 108] ++
  [161, 59, 82, 41, 157, 85, 170, 251, 96, 134, 177, 187, 204, 62, 90, 203] ++
  [89, 95, 176, 156, 169, 160, 81, 11, 245, 22, 235, 122, 117, 44, 215, 79] ++
  [174, 213, 233, 230, 231, 173, 232, 116, 214, 244, 234, 168, 80, 88, 175]

/-- `GEN[n]` for `n` in `EC_KEYS`, highest degree first (rule R161); no other `n` has an entry. -/
def genPoly : Nat → Option (List Byte)
  | 7 => some [1, 127, 122, 154, 164, 11, 68, 117]
  | 10 => some [1, 216, 194, 159, 111, 199, 94, 95, 113, 157, 193]
  | 13 => some [1, 137, 73, 227, 17, 177, 17, 52, 13, 46, 43, 83, 132, 120]
  | 15 => some [1, 29, 196, 111, 163, 112, 74, 10, 105, 105, 139, 132, 151, 32, 134, 26]
  | 16 => some [1, 59, 13, 104, 189, 68, 209, 30, 8, 163, 65, 41, 229, 98, 50, 36, 59]
  | 17 => some [1, 119, 66, 83, 120, 119, 22, 197, 83, 249, 41, 143, 134, 85, 53, 125, 99, 79]
  | 18 => some [1, 239, 251, 183, 113, 149, 175, 199, 215, 240, 220, 73, 82, 173, 75, 32, 67, 217, 146]
  | 20 => some [1, 152, 185, 240, 5, 111, 99, 6, 220, 112, 150, 69, 36, 187, 22, 228, 198, 121, 121, 165, 174]
  | 22 => some [1, 89, 179, 131, 176, 182, 244, 19, 189, 69, 40, 28, 137, 29, 123, 67, 253, 86, 218, 230, 26, 145, 245]
  | 24 => some [1, 122, 118, 169, 70, 178, 237, 216, 102, 115, 150, 229, 73, 130, 72, 61, 43, 206, 1, 237, 247, 127, 217, 144, 117]
  | 26 => some [1, 246, 51, 183, 4, 136, 98, 199, 152, 77, 56, 206, 24, 145, 40, 209, 117, 233, 42, 135, 68, 70, 144, 146, 77, 43, 94]
  | 28 => some [1, 252, 9, 28, 13, 18, 251, 208, 150, 103, 174, 100, 41, 167, 12, 247, 56, 117, 119, 233, 127, 181, 100, 121, 147, 176, 74, 58, 197]
  | 30 => some [1, 212, 246, 77, 73, 195, 192, 75, 98, 5, 70, 103, 177, 22, 217, 138, 51, 181, 246, 72, 25, 18, 46, 228, 74, 216, 195, 11, 106, 130, 150]
  | _ => none

end Sys2Proof.Machine
end

