-- ==== Sys2Proof/Machine/Layout.lean ====
section
/-! DEFINITION. The register map: which location of the block a window offset names (rules R15, R31, R32, R62, R64). -/

namespace Sys2Proof.Machine

/-- The byte buffers of rule R31. -/
inductive Buf where
  | inbuf | dataCw | cw | rsIn | rsOut
  deriving DecidableEq, Repr

/-- The bit planes of rule R32. -/
inductive Plane where
  | dark | set | rsv
  deriving DecidableEq, Repr

/-- Window offset of a buffer's byte 0 (rule R31). -/
def Buf.base : Buf → Nat
  | .inbuf => 0x400 | .dataCw => 0x600 | .cw => 0x800 | .rsIn => 0xA00 | .rsOut => 0xB00

/-- Bytes of a buffer (rule R31). -/
def Buf.size : Buf → Nat
  | .inbuf => 272 | .dataCw => 274 | .cw => 346 | .rsIn => 256 | .rsOut => 32

/-- Window offset of a plane's row 0 (rule R32). -/
def Plane.base : Plane → Nat
  | .dark => 0x1000 | .set => 0x1200 | .rsv => 0x1400

/-- The offset lies in the buffer. -/
def Buf.holds (b : Buf) (off : Nat) : Bool := decide (b.base ≤ off) && decide (off < b.base + b.size)

/-- The offset lies in the plane. -/
def Plane.holds (p : Plane) (off : Nat) : Bool := decide (p.base ≤ off) && decide (off < p.base + planeBytes)

/-- The buffer an offset lies in, if any. -/
def bufAt (off : Nat) : Option Buf := [Buf.inbuf, .dataCw, .cw, .rsIn, .rsOut].find? fun b => b.holds off

/-- The plane an offset lies in, if any. -/
def planeAt (off : Nat) : Option Plane := [Plane.dark, .set, .rsv].find? fun p => p.holds off

/-- The bits that exist in the byte at an offset: all 8 in a buffer; in a plane row of 57 cells all 8 but for the last
byte, which has bit 0 only (column 56); none elsewhere, in the word slots past a buffer's last byte too (rules R31, R32). -/
def byteMask (off : Nat) : Byte :=
  match bufAt off, planeAt off with
  | some _, _ => 0xFF
  | none, some p => if (off - p.base) % rowStride = 7 then 0x01 else 0xFF
  | none, none => 0x00

/-- A location of the register map (rule R15). -/
inductive Loc where
  | id | cmd | status | irqen | arg | result | len | version | mask | fmt | verinfo | cellcnt | bitlen
  | penalty (m : Fin 8)
  | pen (m : Fin 8) (k : Fin 4)
  /-- A word of `INBUF`, `DATA_CW`, `CW`, `RS_IN` or of a plane: readable and writable. -/
  | ram
  /-- A word of `RS_OUT`: read only. -/
  | rsOut
  | reserved
  deriving DecidableEq, Repr

/-- The aligned word an access acts on: address bits 1:0 are ignored (rules R62, R64). -/
def wordOffset (off : Nat) : Nat := 4 * (off / 4)

/-- The location of the word at the aligned offset `w` (rule R15). -/
def locOfWord (w : Nat) : Loc :=
  match w with
  | 0x000 => .id | 0x004 => .cmd | 0x008 => .status | 0x00C => .irqen | 0x010 => .arg | 0x014 => .result
  | 0x018 => .len | 0x01C => .version | 0x020 => .mask | 0x024 => .fmt | 0x028 => .verinfo | 0x02C => .cellcnt
  | 0x030 => .bitlen
  | _ =>
    if 0x040 ≤ w ∧ w < 0x060 then .penalty (Fin.ofNat 8 ((w - 0x040) / 4))
    else if 0x080 ≤ w ∧ w < 0x100 then .pen (Fin.ofNat 8 ((w - 0x080) / 16)) (Fin.ofNat 4 ((w - 0x080) / 4))
    else match bufAt w, planeAt w with
      | some .rsOut, _ => .rsOut
      | some _, _ => .ram
      | none, some _ => .ram
      | none, none => .reserved

/-- The location a host access at offset `off` reaches (rules R62, R64). -/
def locate (off : Nat) : Loc := locOfWord (wordOffset off)

/-- The locations whose read is defined while `BUSY = 1`; every other read returns an unspecified value (rule R70). -/
def Loc.readableBusy : Loc → Bool
  | .id | .cmd | .status | .irqen | .reserved => true
  | .arg | .result | .len | .version | .mask | .fmt | .verinfo | .cellcnt | .bitlen => false
  | .penalty _ | .pen _ _ | .ram | .rsOut => false

/-- The locations whose write is refused, and sets `OVERRUN`, while `BUSY = 1` (rule R70). -/
def Loc.refusedBusy : Loc → Bool
  | .cmd | .arg | .len | .version | .mask | .ram => true
  | .id | .status | .irqen | .result | .fmt | .verinfo | .cellcnt | .bitlen => false
  | .penalty _ | .pen _ _ | .rsOut | .reserved => false

end Sys2Proof.Machine
end

