-- ==== Sys2Proof/Machine/Ops.lean ====
section
/-! DEFINITION. The named operations over memory and registers that every command and every bus access is made of:
reading and writing bytes, a command's acceptance, its completion and its errors, the resets. -/

namespace Sys2Proof.Machine

/-! Memory: one operation reads a byte, one writes a run of bytes. -/

/-- The byte at an offset. -/
def Memory.read (m : Memory) (a : Nat) : Byte := (m.lookup a).getD Memory.unlisted

/-- The entries of a run of bytes from offset `a`, those that an unlisted offset reads as left out. -/
def Memory.listed : Nat → List Byte → Memory
  | _, [] => []
  | a, v :: vs => if v = Memory.unlisted then Memory.listed (a + 1) vs else (a, v) :: Memory.listed (a + 1) vs

/-- Write the bytes `vs` at the offsets from `a` on; every other offset keeps its byte. -/
def Memory.splice (m : Memory) (a : Nat) (vs : List Byte) : Memory :=
  m.filter (fun c => decide (c.1 < a)) ++ Memory.listed a vs ++ m.filter (fun c => decide (a + vs.length ≤ c.1))

/-- The entries of the `n` bytes from offset `a` on. -/
def Memory.window (m : Memory) (a n : Nat) : Memory :=
  m.filter fun c => decide (a ≤ c.1) && decide (c.1 < a + n)

/-- The `n` bytes from offset `a` on. The entries outside the run are dropped first, so that each lookup is short. -/
def Memory.load (m : Memory) (a n : Nat) : List Byte :=
  let near := m.window a n
  (List.range n).map fun i => near.read (a + i)

/-- The first `n` bytes of a buffer. -/
def State.bufTake (s : State) (b : Buf) (n : Nat) : List Byte := s.mem.load b.base n

/-- Write a buffer whole: `bytes`, then zeros up to its size (D32; rules R124, R162, R167). -/
def State.fillBuf (s : State) (b : Buf) (bytes : List Byte) : State :=
  { s with mem := s.mem.splice b.base (fitTo b.size 0 bytes) }

/-- Write every byte of a plane (log 11). -/
def Memory.fillPlane (m : Memory) (p : Plane) (bytes : List Byte) : Memory :=
  m.splice p.base (fitTo planeBytes 0 bytes)

/-- Set every bit of the three planes to 0 (rules R109, R182). -/
def State.clearPlanes (s : State) : State :=
  { s with mem := ((s.mem.fillPlane .dark []).fillPlane .set []).fillPlane .rsv [] }

/-! The command life cycle (rule R100). -/

/-- Acceptance of the word `w` (rule R101). -/
def State.accept (w : Word) (s : State) : State := { s with cmd := w, status := s.status.accepted }

/-- Completion, without an error or with one (rules R102, R251). This is the block's one way to end a command, and all
that an error does beside what the command kept: there is no trap entry and no return from one (rules R262, R263). -/
def State.complete (e : Option ErrCode) (s : State) : State := { s with status := s.status.completed e }

/-- A refused host write (rules R70, R103). -/
def State.refuseWrite (s : State) : State := { s with status := s.status.refused }

/-- What the body of a command gives: the state with the writes it makes, and the error it raised, if any. On an error the
state holds only the writes the command keeps on that error (rule R251). -/
abbrev Result := State × Option ErrCode

/-- Run the next step of a command on what the steps before it gave: not after an error (rule R107). -/
def Result.andThen (r : Result) (f : State → Result) : Result :=
  match r with
  | (s, none) => f s
  | (s, some e) => (s, some e)

/-- A command's outcome from its body: its completion (rule R102). -/
def finish (r : Result) : Out := .next (State.complete r.2 r.1)

/-- Fetch: the command in progress is the one `CMD` holds (rules R14, R101). -/
def State.fetch (s : State) : Except Reject Instr := decode s.cmd

/-- Execution and completion of a `BAD` word: `BAD_COMMAND`, no state but `STATUS` changed (rules R86, R106). -/
def State.badCommand (s : State) : State := s.complete (some .badCommand)

/-! The resets. -/

/-- The hardware reset (rule R280): every item of rule R38 takes its reset value, and a running command is abandoned.
The model's own fields stay: what the host does next, the count of draws and the word last read (log 16). -/
def State.hardReset (s : State) : State :=
  { State.reset with events := s.events, draws := s.draws, busRead := s.busRead }

/-- Every item of rule R38 but `ID`, `CMD`, `IRQEN` and `STATUS` takes its reset value (rule R105). -/
def State.dataPathReset (s : State) : State :=
  { s.hardReset with cmd := s.cmd, status := s.status, irqen := s.irqen }

end Sys2Proof.Machine
end

