-- ==== Sys2Proof/Machine/Operands.lean ====
section
/-! DEFINITION. Operand assembly (rule R83): every field a command reads from a register, unsigned, the other bits of the
register ignored (rule R20). -/

namespace Sys2Proof.Machine

/-- `ARG[7:0]`: operand `a` of `GF_MUL`, and of `GF_LOG` (rules R144, R146). -/
def State.argA (s : State) : Byte := s.arg.extractLsb' 0 8

/-- `ARG[15:8]`: operand `b` of `GF_MUL` (rule R144). -/
def State.argB (s : State) : Byte := s.arg.extractLsb' 8 8

/-- `ARG[8:0]`: the index of `GF_EXP`, the data length of `RS_ENCODE` (rules R145, R162). -/
def State.argIndex (s : State) : Nat := (s.arg.extractLsb' 0 9).toNat

/-- `LEN[8:0]`, the input length (rule R22). -/
def State.inputLength (s : State) : Nat := s.len.toNat

/-- `INBUF[0..L)`, the input bytes (rule R124). -/
def State.inputBytes (s : State) : List Byte := s.bufTake .inbuf s.inputLength

/-- `VERSION[3:0]` (rule R23). -/
def State.ver (s : State) : Nat := s.version.toNat

/-- `size = 17 + 4*x[VERSION]` (rules R10, R23). -/
def State.side (s : State) : Nat := symbolSize s.ver

/-- `MASK[2:0]` (rule R24). -/
def State.maskId (s : State) : Nat := s.mask.toNat

/-- A command that needs a version: `BAD_VERSION` unless `VERSION` is 1 to 10, and then nothing is written (rules R23,
R252); otherwise its body. -/
def State.withVersion (s : State) (body : State → Result) : Result :=
  if legalVersion s.ver then body s else (s, some .badVersion)

end Sys2Proof.Machine
end

