-- ==== Sys2Proof/Machine/Bus.lean ====
section
/-! DEFINITION. Host bus accesses: what a read of each location returns and what a write of it does, idle and while a
command runs (rules R15 to R32, R39, R60 to R70). -/

namespace Sys2Proof.Machine

/-- The byte of a buffer or plane at an offset: a bit that does not exist reads 0 (rules R31, R32; log 8). -/
def State.ramByte (s : State) (a : Nat) : Byte := s.mem.read a &&& byteMask a

/-- The word of a buffer or plane at an aligned offset, byte 0 in bits 7:0 (rules R31, R32, R60). -/
def State.ramWord (s : State) (w : Nat) : Word :=
  wordOfBytes (s.ramByte w) (s.ramByte (w + 1)) (s.ramByte (w + 2)) (s.ramByte (w + 3))

/-- Write the word of a buffer or plane at an aligned offset, all 32 bits (rule R63); a bit that does not exist ignores the
write (rules R31, R32). -/
def State.writeRam (s : State) (w : Nat) (v : Word) : State :=
  { s with mem := s.mem.splice w ((wordBytes v).zipIdx.map fun b => b.1 &&& byteMask (w + b.2)) }

/-- What a host read at offset `off` returns when it is defined: reserved bits and reserved offsets read 0 (rules R15 to
R32, R39). -/
def State.readWord (s : State) (off : Nat) : Word :=
  match locate off with
  | .id => idWord
  | .cmd => s.cmd
  | .status => s.status.word
  | .irqen => s.irqen.setWidth 32
  | .arg => s.arg
  | .result => s.result
  | .len => s.len.setWidth 32
  | .version => s.version.setWidth 32
  | .mask => s.mask.setWidth 32
  | .fmt => s.fmt.setWidth 32
  | .verinfo => s.verinfo.setWidth 32
  | .cellcnt => s.cellcnt.setWidth 32
  | .bitlen => s.bitlen.setWidth 32
  | .penalty m => s.penalty[m]
  | .pen m k => s.pen[m][k]
  | .ram => s.ramWord (wordOffset off)
  | .rsOut => s.ramWord (wordOffset off)
  | .reserved => 0

/-- A host read. While a command runs, the read of a location that the command may use returns a fresh unspecified word and
disturbs nothing (rule R70, U3; log 3). -/
def State.hostRead (s : State) (off : Nat) : State :=
  if s.status.busy && !(locate off).readableBusy then
    { s with busRead := Config.freeWord s.draws, draws := s.draws + 1 }
  else { s with busRead := s.readWord off }

/-- The effect of a host write of `v` that is not refused (rules R17 to R32, R39, R101). -/
def State.writeWord (s : State) (off : Nat) (v : Word) : State :=
  match locate off with
  | .cmd => s.accept v
  | .status => { s with status := s.status.cleared v }
  | .irqen => { s with irqen := v.setWidth 3 }
  | .arg => { s with arg := v }
  | .len => { s with len := v.setWidth 9 }
  | .version => { s with version := v.setWidth 4 }
  | .mask => { s with mask := v.setWidth 3 }
  | .ram => s.writeRam (wordOffset off) v
  | .id | .result | .fmt | .verinfo | .cellcnt | .bitlen | .rsOut | .reserved => s
  | .penalty _ => s
  | .pen _ _ => s

/-- A host write: while a command runs, a refused one changes nothing but `OVERRUN` (rules R70, R103, R255). -/
def State.hostWrite (s : State) (off : Nat) (v : Word) : State :=
  if s.status.busy && (locate off).refusedBusy then s.refuseWrite else s.writeWord off v

/-- A host access reaches the block: 4 bytes wide, else the model refuses it (rule R63), and inside the window, else it is
no access of the block's (rule R62). -/
def busAccess (bytes addr : Nat) (t : State) : Out :=
  if bytes ≠ Config.busBytes then .refused (.accessWidth bytes)
  else if Config.windowBytes ≤ addr then .fault (.outsideWindow addr)
  else .next t

end Sys2Proof.Machine
end

