-- ==== Sys2Proof/Machine/Matrix.lean ====
section
/-! DEFINITION. The symbol matrix as a command sees it: 57 rows of 57 cells, read from the three planes and written back
to them (rules R10, R11, R32, R33). -/

namespace Sys2Proof.Machine

/-- One cell: its bits in `M_SET`, `M_DARK` and `M_RSV` (rules R32, R33). -/
structure Cell where
  set : Bool
  dark : Bool
  rsv : Bool
  deriving DecidableEq, Repr

/-- The value of a cell (rules R10, R33). -/
inductive Module where
  | unset | dark | light
  deriving DecidableEq, Repr

/-- Rows of cells; row 0 at the top, column 0 at the left (rule R10). -/
abbrev Matrix := List (List Cell)

/-- An unset, unreserved cell with no bit set: its value after reset (rule R38). -/
def Cell.blank : Cell := { set := false, dark := false, rsv := false }

/-- The value of a cell from its plane bits: unset whatever `M_DARK` says when `M_SET` is 0 (rule R33). -/
def Cell.value (x : Cell) : Module := if x.set then (if x.dark then .dark else .light) else .unset

/-- `put(r, c, d)` on a cell: nothing if it is reserved (rule R11). -/
def Cell.put (d : Bool) (x : Cell) : Cell := if x.rsv then x else { set := true, dark := d, rsv := true }

/-- `force(r, c, d)` on a cell (rule R11). -/
def Cell.force (d : Bool) (_ : Cell) : Cell := { set := true, dark := d, rsv := true }

/-- `reserve(r, c)` on a cell: nothing if it is reserved, else unset, its `M_DARK` bit 0 (rules R11, R33). -/
def Cell.reserve (x : Cell) : Cell := if x.rsv then x else { set := false, dark := false, rsv := true }

/-- `cell(r, c) <- d` on a cell; the reserved bit stays (rules R211, R214). -/
def Cell.write (d : Bool) (x : Cell) : Cell := { x with set := true, dark := d }

/-- The matrix with every bit of every plane 0 (rule R182). -/
def Matrix.blank : Matrix := List.replicate planeSide (List.replicate planeSide Cell.blank)

/-- The cell in row `r` and column `c`. -/
def Matrix.cell (M : Matrix) (r c : Nat) : Cell := (M.getD r []).getD c Cell.blank

/-- Change the cell in row `r` and column `c`. -/
def Matrix.update (M : Matrix) (r c : Nat) (f : Cell → Cell) : Matrix := M.modify r fun row => row.modify c f

/-- Change every cell inside `size x size`, by its row, its column and what it holds. -/
def Matrix.mapInside (M : Matrix) (size : Nat) (f : Nat → Nat → Cell → Cell) : Matrix :=
  M.zipIdx.map fun row => row.1.zipIdx.map fun x =>
    if row.2 < size ∧ x.2 < size then f row.2 x.2 x.1 else x.1

/-- The cells inside `size x size`, row by row, each with its row and its column. -/
def Matrix.inside (M : Matrix) (size : Nat) : List (List (Nat × Nat × Cell)) :=
  (M.take size).zipIdx.map fun row => (row.1.take size).zipIdx.map fun x => (row.2, x.2, x.1)

/-- The rows of a plane as bits. -/
def Memory.planeRows (m : Memory) (p : Plane) : List (List Bool) :=
  let near := m.window p.base planeBytes
  (List.range planeSide).map fun r => (rowBits (near.load (p.base + rowStride * r) rowStride)).take planeSide

/-- The matrix that the three planes hold. -/
def Memory.matrix (m : Memory) : Matrix :=
  List.zipWith
    (fun st dr => List.zipWith (fun s (d : Bool × Bool) => { set := s, dark := d.1, rsv := d.2 }) st dr)
    (m.planeRows .set)
    (List.zipWith (fun d r => List.zip d r) (m.planeRows .dark) (m.planeRows .rsv))

/-- The bytes of a plane from a bit of each cell. -/
def Matrix.planeBytes (M : Matrix) (bit : Cell → Bool) : List Byte :=
  M.flatMap fun row => rowBytes rowStride (row.map bit)

/-- Write the `M_DARK` plane. -/
def State.storeDark (s : State) (M : Matrix) : State :=
  { s with mem := s.mem.fillPlane .dark (M.planeBytes Cell.dark) }

/-- Write the `M_SET` plane. -/
def State.storeSet (s : State) (M : Matrix) : State :=
  { s with mem := s.mem.fillPlane .set (M.planeBytes Cell.set) }

/-- Write the `M_RSV` plane. -/
def State.storeRsv (s : State) (M : Matrix) : State :=
  { s with mem := s.mem.fillPlane .rsv (M.planeBytes Cell.rsv) }

/-- One bit of a plane as the bus lays it out: bit `c mod 8` of byte `c div 8` of row `r` (rule R32). -/
def Memory.planeBit (m : Memory) (p : Plane) (r c : Nat) : Bool :=
  (m.read (p.base + rowStride * r + c / 8)).getLsbD (c % 8)

end Sys2Proof.Machine
end

