-- ==== Sys2Proof/Machine/Skeleton.lean ====
section
/-! DEFINITION. The qr_matrix_builder unit: the function patterns as an ordered list of modules, and the skeleton they
give (rules R180 to R195). -/

namespace Sys2Proof.Machine

/-- One placement of the skeleton: a row, a column, and the module to `put` there (dark or light), or none to `reserve`
the cell (rules R11, R181). -/
abbrev Placement := Nat × Nat × Option Bool

/-- Chebyshev distance from the centre of a square of side `2*h + 1`, at place `(dr, dc)` of it (rules R184, R188). -/
def ringOf (h dr dc : Nat) : Nat := max (max dr h - min dr h) (max dc h - min dc h)

/-- The finder pattern with top-left corner `(r0, c0)`: dark at distance 0, 1, 3 from its centre (rule R184). -/
def finderPattern (r0 c0 : Nat) : List Placement :=
  (List.range 7).flatMap fun dr => (List.range 7).map fun dc =>
    (r0 + dr, c0 + dc, some (ringOf 3 dr dc != 2))

/-- The light border of the finder with top-left corner `(r0, c0)`, inside `size x size` (rule R186). Place `(dr, dc)` of
the 9x9 square stands for the cell `(r0 - 1 + dr, c0 - 1 + dc)`. -/
def separatorBorder (size r0 c0 : Nat) : List Placement :=
  (List.range 9).flatMap fun dr => (List.range 9).filterMap fun dc =>
    if 1 ≤ r0 + dr ∧ r0 + dr ≤ size ∧ 1 ≤ c0 + dc ∧ c0 + dc ≤ size ∧ ringOf 4 dr dc = 4
    then some (r0 + dr - 1, c0 + dc - 1, some false) else none

/-- The three finders, each followed by its separator (rules R185, R192). -/
def finders (size : Nat) : List Placement :=
  [(0, 0), (0, size - 7), (size - 7, 0)].flatMap fun p => finderPattern p.1 p.2 ++ separatorBorder size p.1 p.2

/-- The timing patterns: indices 8 to `size - 9` of row 6 and column 6, dark when even (rule R189). -/
def timing (size : Nat) : List Placement :=
  (List.range' 8 (size - 16)).flatMap fun j => [(6, j, some (j % 2 == 0)), (j, 6, some (j % 2 == 0))]

/-- The alignment centres: every pair of coordinates but the three that fall on the finders (rule R187). -/
def alignCentres (v : Nat) : List (Nat × Nat) :=
  let pos := alignPos v
  let last := pos.foldl max 0
  (pos.flatMap fun a => pos.map fun b => (a, b)).filter fun p => p != (6, 6) && p != (6, last) && p != (last, 6)

/-- The alignment pattern with centre `(ar, ac)`: dark at distance 0 and 2 (rule R188). -/
def alignPattern (ar ac : Nat) : List Placement :=
  (List.range 5).flatMap fun dr => (List.range 5).map fun dc =>
    (ar + dr - 2, ac + dc - 2, some (ringOf 2 dr dc != 1))

/-- The first position of bit `i` of the format word: `FPOS1[i]` (rule R191). -/
def fpos1 (i : Nat) : Nat × Nat :=
  if i ≤ 5 then (i, 8) else if i = 6 then (7, 8) else if i = 7 then (8, 8) else if i = 8 then (8, 7) else (8, 14 - i)

/-- The second position of bit `i` of the format word: `FPOS2[i]` (rule R191). -/
def fpos2 (size i : Nat) : Nat × Nat := if i ≤ 7 then (8, size - 1 - i) else (size - 15 + i, 8)

/-- The format areas, reserved and left unset (rules R181, R191). -/
def formatAreas (size : Nat) : List Placement :=
  (List.range 15).flatMap fun i =>
    [((fpos1 i).1, (fpos1 i).2, none), ((fpos2 size i).1, (fpos2 size i).2, none)]

/-- The dark module (rule R193). -/
def darkModule (size : Nat) : List Placement := [(size - 8, 8, some true)]

/-- The version areas, versions 7 to 10 (rule R190). -/
def versionAreas (v size : Nat) : List Placement :=
  if 7 ≤ v then
    (List.range 18).flatMap fun i =>
      let d := (versionWord v).getLsbD i
      [(i / 3, size - 11 + i % 3, some d), (size - 11 + i % 3, i / 3, some d)]
  else []

/-- Every placement of the skeleton of version `v`, in the order of rule R192. -/
def placements (v : Nat) : List Placement :=
  let size := symbolSize v
  finders size ++ timing size ++ (alignCentres v).flatMap (fun p => alignPattern p.1 p.2) ++ formatAreas size ++
    darkModule size ++ versionAreas v size

/-- One placement: a later one never overwrites a cell reserved earlier (rules R11, R181). -/
def Matrix.place1 (M : Matrix) (p : Placement) : Matrix :=
  M.update p.1 p.2.1 fun x =>
    match p.2.2 with
    | some d => x.put d
    | none => x.reserve

/-- The skeleton of version `v` (rules R180, R182, R192). -/
def skeleton (v : Nat) : Matrix := (placements v).foldl Matrix.place1 Matrix.blank

/-- Body of `BUILD_SKELETON` (rule R192). -/
def buildSkeletonBody (s : State) : Result :=
  s.withVersion fun s =>
    let M := skeleton s.ver
    ({ ((s.storeDark M).storeSet M).storeRsv M with verinfo := versionWord s.ver }, none)

/-- `BUILD_SKELETON` (rule R192). -/
def execBuildSkeleton (s : State) : Out := finish (buildSkeletonBody s)

end Sys2Proof.Machine
end

