-- ==== Sys2Proof/Machine/MaskFormat.lean ====
section
/-! DEFINITION. The mask_evaluator_score_unit and the Format Info Writer: the penalty of a mask, the choice of one, its
application and the format word (rules R220 to R240). -/

namespace Sys2Proof.Machine

/-- The candidate grid `G_m` (rule R221): none for a reserved cell, else whether the masked cell is dark. -/
def candidate (M : Matrix) (size m : Nat) : List (List (Option Bool)) :=
  (M.inside size).map fun row => row.map fun x =>
    if x.2.2.rsv then none else some (x.2.2.dark ^^ maskFn m x.1 x.2.1)

/-- The columns of a grid of `size` columns. -/
def gridColumns (size : Nat) (g : List (List (Option Bool))) : List (List (Option Bool)) :=
  (List.range size).map fun c => g.map fun row => row.getD c none

/-- What a run of `n` equal cells adds (rule R222). -/
def runScore (n : Nat) : Nat := if 5 ≤ n then 3 + (n - 5) else 0

/-- Rule A along one line, after a run of `n` cells of the colour `cur` (rule R222). -/
def runsFrom (cur : Option Bool) (n : Nat) : List (Option Bool) → Nat
  | [] => runScore n
  | none :: l => runScore n + runsFrom none 0 l
  | some b :: l => if cur = some b then runsFrom cur (n + 1) l else runScore n + runsFrom (some b) 1 l

/-- Rule A: every maximal run of 5 or more in a row or a column (rule R222). -/
def penaltyA (size : Nat) (g : List (List (Option Bool))) : Nat :=
  ((g ++ gridColumns size g).map (runsFrom none 0)).sum

/-- Four cells are all of one colour, none of them reserved (rule R223). -/
def sameColour (a b c d : Option Bool) : Bool := a.isSome && a == b && a == c && a == d

/-- Rule B over two neighbouring rows (rule R223). -/
def squaresIn : List (Option Bool) → List (Option Bool) → Nat
  | a :: b :: r, c :: d :: r' => (if sameColour a b c d then 3 else 0) + squaresIn (b :: r) (d :: r')
  | _, _ => 0

/-- Rule B: every 2x2 square of one colour, overlapping (rule R223). -/
def penaltyB : List (List (Option Bool)) → Nat
  | r :: r' :: g => squaresIn r r' + penaltyB (r' :: g)
  | _ => 0

/-- The first finder-like window, `1 0 1 1 1 0 1 0 0 0 0` (rule R224). -/
def finderLike : List (Option Bool) :=
  [true, false, true, true, true, false, true, false, false, false, false].map some

/-- Rule C along one line: every start of a window that is finder-like, either way round (rule R224). -/
def windowsIn : List (Option Bool) → Nat
  | [] => 0
  | x :: l =>
    (if (x :: l).take 11 = finderLike ∨ (x :: l).take 11 = finderLike.reverse then 40 else 0) + windowsIn l

/-- Rule C: finder-like windows in rows and columns (rule R224). -/
def penaltyC (size : Nat) (g : List (List (Option Bool))) : Nat :=
  ((g ++ gridColumns size g).map windowsIn).sum

/-- Rule D from the count `n` of cells that are scored and the count `k` of those that are dark (rule R227). -/
def balanceScore (n k : Nat) : Nat :=
  if n = 0 then 0 else 10 * ((max (20 * k) (10 * n) - min (20 * k) (10 * n)) / n)

/-- Rule D: the share of dark cells (rule R227). -/
def penaltyD (g : List (List (Option Bool))) : Nat :=
  balanceScore (g.flatten.filter Option.isSome).length (g.flatten.filter (· == some true)).length

/-- `PEN_m`: the four rules on the candidate grid of mask `m` (rule R228). -/
def penalties (M : Matrix) (size m : Nat) : List Nat :=
  let g := candidate M size m
  [penaltyA size g, penaltyB g, penaltyC size g, penaltyD g]

/-- `TOTAL_m` (rule R228). -/
def totalPenalty (M : Matrix) (size m : Nat) : Nat := (penalties M size m).sum

/-- The chosen mask: the first whose total is the least (rule R229). -/
def bestMask (totals : List Nat) : Nat := totals.idxOf (totals.min?.getD 0)

/-- Some unreserved cell inside `size x size` is unset (rule R230). -/
def unsetInside (M : Matrix) (size : Nat) : Bool :=
  (M.inside size).any fun row => row.any fun x => !x.2.2.rsv && !x.2.2.set

/-- A command that needs a value in every unreserved cell: `BAD_VERSION`, then `UNSET_READ`, each before any change (rules
R230, R253); otherwise its body, on the matrix. -/
def State.withSetCells (s : State) (body : State → Matrix → Result) : Result :=
  s.withVersion fun s =>
    let M := s.mem.matrix
    if unsetInside M s.side then (s, some .unsetRead) else body s M

/-- `PEN[m][0..3]` as register words. -/
def penWords (M : Matrix) (size m : Nat) : Vector Word 4 :=
  let p := penalties M size m
  #v[BitVec.ofNat 32 (p.getD 0 0), BitVec.ofNat 32 (p.getD 1 0), BitVec.ofNat 32 (p.getD 2 0), BitVec.ofNat 32 (p.getD 3 0)]

/-- `PENALTYm` as a register word. -/
def penaltyWord (M : Matrix) (size m : Nat) : Word := BitVec.ofNat 32 (totalPenalty M size m)

/-- Body of `MASK_SELECT` (rule R231). The planes are not changed. -/
def maskSelectBody (s : State) : Result :=
  s.withSetCells fun s M =>
    let pen := penWords M s.side
    let tot := penaltyWord M s.side
    ({ s with
        pen := #v[pen 0, pen 1, pen 2, pen 3, pen 4, pen 5, pen 6, pen 7]
        penalty := #v[tot 0, tot 1, tot 2, tot 3, tot 4, tot 5, tot 6, tot 7]
        mask := BitVec.ofNat 3 (bestMask ((List.range 8).map (totalPenalty M s.side))) },
      none)

/-- Invert a cell that the mask selects and that is not reserved (rules R220, R234). -/
def Cell.masked (sel : Bool) (x : Cell) : Cell := if !x.rsv && sel then { x with set := true, dark := !x.dark } else x

/-- Apply mask `m` to a matrix (rules R220, R234). -/
def Matrix.applyMask (M : Matrix) (size m : Nat) : Matrix := M.mapInside size fun i j x => x.masked (maskFn m i j)

/-- Body of `MASK_APPLY` (rule R234): `M_DARK` is the only plane that changes. -/
def maskApplyBody (mid : Nat) (s : State) : Result :=
  s.withSetCells fun s M =>
    ({ s.storeDark (M.applyMask s.side mid) with mask := BitVec.ofNat 3 mid }, none)

/-- Write the format word `w` into both strips of a symbol (rules R191, R238). -/
def Matrix.writeFormat (M : Matrix) (size : Nat) (w : BitVec 15) : Matrix :=
  (List.range 15).foldl (fun M i =>
    (M.update (fpos1 i).1 (fpos1 i).2 (Cell.force (w.getLsbD i))).update (fpos2 size i).1 (fpos2 size i).2
      (Cell.force (w.getLsbD i))) M

/-- Body of `FORMAT_WRITE` (rule R239): the word of `MASK`, whatever mask was applied. -/
def formatWriteBody (s : State) : Result :=
  s.withVersion fun s =>
    let w := formatWord s.maskId
    let M := s.mem.matrix.writeFormat s.side w
    ({ ((s.storeDark M).storeSet M).storeRsv M with fmt := w }, none)

/-- `MASK_SELECT` (rule R231). -/
def execMaskSelect (s : State) : Out := finish (maskSelectBody s)

/-- `MASK_APPLY` (rule R234). -/
def execMaskApply (mid : Nat) (s : State) : Out := finish (maskApplyBody mid s)

/-- `FORMAT_WRITE` (rule R239). -/
def execFormatWrite (s : State) : Out := finish (formatWriteBody s)

end Sys2Proof.Machine
end

