-- ==== Sys2Proof/Machine/Padder.lean ====
section
/-! DEFINITION. The bitstream_padder unit: version selection and the padded bit sequence (rules R120 to R131). -/

namespace Sys2Proof.Machine

/-- The selected version: the smallest `v` in 1..10 with `CAP[v] >= L`; none when `L > 271` (rules R123, R130). -/
def selectVersion (L : Nat) : Option Nat := (List.range' 1 10).find? fun v => decide (L ≤ capOf v)

/-- Mode indicator `"0100"`, count, data (rule R125). -/
def payloadBits (v : Nat) (input : List Byte) : List Bool :=
  natBits 4 4 ++ natBits (ccBits v) input.length ++ bytesBits input

/-- The payload and its terminator, cut short if fewer than 4 bits of room remain (rule R126). -/
def terminatedBits (v : Nat) (input : List Byte) : List Bool :=
  let bits := payloadBits v input
  bits ++ List.replicate (min 4 (8 * dataCwOf v - bits.length)) false

/-- Zero bits to the next byte boundary (rule R127). -/
def alignBits (bits : List Bool) : List Bool := bits ++ List.replicate ((8 - bits.length % 8) % 8) false

/-- The `j`-th pad byte (rule R128). -/
def padByte (j : Nat) : Byte := if j % 2 = 0 then 0xEC else 0x11

/-- Pad bytes up to the data bits of the version (rule R128). -/
def paddedBits (v : Nat) (input : List Byte) : List Bool :=
  let bits := alignBits (terminatedBits v input)
  bits ++ bytesBits ((List.range ((8 * dataCwOf v - bits.length) / 8)).map padByte)

/-- Body of `PAD` (rule R124): an input that is too long writes nothing. -/
def padBody (s : State) : Result :=
  match selectVersion s.inputLength with
  | none => (s, some .tooLong)
  | some v =>
    ({ s.fillBuf .dataCw (bitsBytes (dataCwOf v) (paddedBits v s.inputBytes)) with
        version := BitVec.ofNat 4 v
        bitlen := BitVec.ofNat 12 (terminatedBits v s.inputBytes).length },
      none)

/-- `PAD` (rule R124). -/
def execPad (s : State) : Out := finish (padBody s)

end Sys2Proof.Machine
end

