-- ==== Sys2Proof/Machine/Placer.lean ====
section
/-! DEFINITION. The data_placer_zig_zag unit: the two-column walk and the placement of the codeword bits (rules R210 to
R217). -/

namespace Sys2Proof.Machine

/-- The right column of the `p`-th column pair: pairs from the right, shifted by one past the timing column 6 (rule
R210). -/
def rightColumn (size p : Nat) : Nat :=
  let right := size - 1 - 2 * p
  if right ≤ 6 then right - 1 else right

/-- The cells of the walk, reserved or not: column pairs from right to left, upward first and then alternating, in each
row the right column before the left (rule R210). -/
def zigzag (size : Nat) : List (Nat × Nat) :=
  (List.range ((size - 1) / 2)).flatMap fun p =>
    (List.range size).flatMap fun k =>
      let r := if p % 2 = 0 then size - 1 - k else k
      [(r, rightColumn size p), (r, rightColumn size p - 1)]

/-- `ORDER(v)` over the reserved plane of a matrix (rule R210). -/
def placementOrder (M : Matrix) (size : Nat) : List (Nat × Nat) :=
  (zigzag size).filter fun p => !(M.cell p.1 p.2).rsv

/-- The bits to place: the codewords, most significant bit first, then 0 for each remainder cell (rules R212, R213). -/
def placedBits (v : Nat) (codewords : List Byte) : List Bool :=
  bytesBits codewords ++ List.replicate (remCells v) false

/-- Write a bit into each cell of an order (rules R211, R214). -/
def Matrix.writeBits (M : Matrix) (order : List (Nat × Nat)) (bits : List Bool) : Matrix :=
  (order.zip bits).foldl (fun M p => M.update p.1.1 p.1.2 (Cell.write p.2)) M

/-- Body of `PLACE` (rule R211): `CELLCNT` holds the count found, also when it is the wrong one (rules R215, R216). -/
def placeBody (s : State) : Result :=
  s.withVersion fun s =>
    let M := s.mem.matrix
    let order := placementOrder M s.side
    let counted := { s with cellcnt := BitVec.ofNat 12 order.length }
    if order.length ≠ 8 * totalCw s.ver + remCells s.ver then (counted, some .internalSizeMismatch)
    else
      let M' := M.writeBits order (placedBits s.ver (s.bufTake .cw (totalCw s.ver)))
      ((counted.storeDark M').storeSet M', none)

/-- `PLACE` (rule R211). -/
def execPlace (s : State) : Out := finish (placeBody s)

end Sys2Proof.Machine
end

