-- ==== Sys2Proof/Machine/Galois.lean ====
section
/-! DEFINITION. The galois_field_mult_table unit: the GF(256) tables, the product and the three commands that show them
(rules R140 to R146). -/

namespace Sys2Proof.Machine

/-- `GF_EXP[i]`, `i` in 0..511: the second half repeats the first, `GF_EXP[i] = GF_EXP[i-255]` (rule R140). -/
def gfExp (i : Nat) : Byte := gfExpTable.getD (i % 255) 0

/-- `GF_LOG[a]`: no entry for 0 (rule R141). -/
def gfLog (a : Byte) : Option Nat := if a = 0 then none else gfLogTable[a.toNat - 1]?

/-- The product of two field elements: 0 if either is 0 (rule R142). -/
def gfMul (a b : Byte) : Byte :=
  match gfLog a, gfLog b with
  | some x, some y => gfExp (x + y)
  | _, _ => 0

/-- Body of `GF_MUL` (rule R144). -/
def gfMulBody (s : State) : Result := ({ s with result := (gfMul s.argA s.argB).setWidth 32 }, none)

/-- Body of `GF_EXP` (rule R145). -/
def gfExpBody (s : State) : Result := ({ s with result := (gfExp s.argIndex).setWidth 32 }, none)

/-- Body of `GF_LOG` (rule R146): the log of 0 does not exist, and `RESULT` keeps its value. -/
def gfLogBody (s : State) : Result :=
  match gfLog s.argA with
  | none => (s, some .badArgument)
  | some i => ({ s with result := BitVec.ofNat 32 i }, none)

/-- `GF_MUL` (rule R144). -/
def execGfMul (s : State) : Out := finish (gfMulBody s)

/-- `GF_EXP` (rule R145). -/
def execGfExp (s : State) : Out := finish (gfExpBody s)

/-- `GF_LOG` (rule R146). -/
def execGfLog (s : State) : Out := finish (gfLogBody s)

end Sys2Proof.Machine
end

