-- ==== Sys2Proof/Machine/ReedSolomon.lean ====
section
/-! DEFINITION. The reed_solomon_encoder unit: the division by a generator polynomial, the RS blocks and their
interleaving (rules R160 to R168). -/

namespace Sys2Proof.Machine

/-- XOR the second sequence into the front of the first (rule R163). -/
def xorInto : List Byte → List Byte → List Byte
  | x :: xs, y :: ys => (x ^^^ y) :: xorInto xs ys
  | xs, [] => xs
  | [], _ => []

/-- `k` steps of the division by the monic polynomial `1 :: g`, coefficients from the highest degree down: a step whose
leading coefficient is 0 is skipped, any other cancels it; either way it leaves the sequence (rule R163; log 13). -/
def divide (g : List Byte) : Nat → List Byte → List Byte
  | 0, m => m
  | _, [] => []
  | k + 1, coef :: m => divide g k (if coef = 0 then m else xorInto m (g.map fun c => gfMul c coef))

/-- `ecc_of(data, n)`, the body `RS_ENCODE` and `ECC` share (rule R163). -/
def eccOf (data : List Byte) (n : Nat) : List Byte :=
  divide (((genPoly n).getD []).drop 1) data.length (data ++ List.replicate n 0)

/-- Split a sequence into blocks of the given lengths, in order (rule R165). -/
def splitBlocks {α : Type} : List Nat → List α → List (List α)
  | [], _ => []
  | n :: ns, l => l.take n :: splitBlocks ns (l.drop n)

/-- Column by column, one element of each sequence that is long enough, `n` columns (rule R166). -/
def columns {α : Type} (n : Nat) (ls : List (List α)) : List α :=
  (List.range n).flatMap fun i => ls.filterMap fun l => l[i]?

/-- The final codeword sequence of version `v`: the data codewords of the RS blocks interleaved, then their EC codewords
interleaved (rules R165, R166). -/
def finalCodewords (v : Nat) (data : List Byte) : List Byte :=
  let blocks := splitBlocks (blocksOf v) data
  columns ((blocksOf v).foldl max 0) blocks ++
    columns (ecPerBlock v) (blocks.map fun b => eccOf b (ecPerBlock v))

/-- Body of `ECC` (rule R167). -/
def eccBody (s : State) : Result :=
  s.withVersion fun s => (s.fillBuf .cw (finalCodewords s.ver (s.bufTake .dataCw (dataCwOf s.ver))), none)

/-- Body of `RS_ENCODE` (rule R162): the generator table is checked first. -/
def rsEncodeBody (n : Nat) (s : State) : Result :=
  match genPoly n with
  | none => (s, some .unsupportedConfig)
  | some _ =>
    if s.argIndex > Buf.rsIn.size then (s, some .badArgument)
    else (s.fillBuf .rsOut (eccOf (s.bufTake .rsIn s.argIndex) n), none)

/-- `ECC` (rule R167). -/
def execEcc (s : State) : Out := finish (eccBody s)

/-- `RS_ENCODE` (rule R162). -/
def execRsEncode (n : Nat) (s : State) : Out := finish (rsEncodeBody n s)

end Sys2Proof.Machine
end

