-- ==== Sys2Proof/Machine/Control.lean ====
section
/-! DEFINITION. The control commands `NOP`, `SOFT_RESET` and `ENCODE` (rules R104 to R110). -/

namespace Sys2Proof.Machine

/-- `NOP` (rule R104): nothing but its completion. -/
def execNop (s : State) : Out := finish (s, none)

/-- `SOFT_RESET` (rule R105). -/
def execSoftReset (s : State) : Out := finish (s.dataPathReset, none)

/-- Step 5 of `ENCODE` (rule R107): a forced mask id, or the choice of the mask evaluator. -/
def chooseMask (fm : Bool) (mid : Nat) (s : State) : Result :=
  if fm then ({ s with mask := BitVec.ofNat 3 mid }, none) else maskSelectBody s

/-- The seven steps of `ENCODE`, each the body of its command, each on what the one before it wrote (rule R107). -/
def encodeSteps (fm : Bool) (mid : Nat) (s : State) : Result :=
  let step1 := padBody s
  let step2 := step1.andThen eccBody
  let step3 := step2.andThen buildSkeletonBody
  let step4 := step3.andThen placeBody
  let step5 := step4.andThen (chooseMask fm mid)
  let step6 := step5.andThen fun s => maskApplyBody s.maskId s
  step6.andThen formatWriteBody

/-- Fail closed: on an error every plane bit becomes 0; what the completed steps wrote stays (rule R109). -/
def failClosed (r : Result) : Result :=
  match r with
  | (s, none) => (s, none)
  | (s, some e) => (s.clearPlanes, some e)

/-- `ENCODE` (rules R107, R109). -/
def execEncode (fm : Bool) (mid : Nat) (s : State) : Out := finish (failClosed (encodeSteps fm mid s))

end Sys2Proof.Machine
end

