-- ==== Sys2Proof/Machine/Dispatch.lean ====
section
/-! DEFINITION. One arm per command: the meaning of each (rule R84). -/

namespace Sys2Proof.Machine

/-- What a command does when it runs: its effect and its completion. -/
def exec (i : Instr) (s : State) : Host.Outcome State Fault Refusal :=
  match i with
  | .nop => Sys2Proof.Machine.execNop s
  | .softReset => Sys2Proof.Machine.execSoftReset s
  | .encode fm mid => Sys2Proof.Machine.execEncode fm mid s
  | .gfMul => Sys2Proof.Machine.execGfMul s
  | .gfExp => Sys2Proof.Machine.execGfExp s
  | .gfLog => Sys2Proof.Machine.execGfLog s
  | .pad => Sys2Proof.Machine.execPad s
  | .ecc => Sys2Proof.Machine.execEcc s
  | .rsEncode n => Sys2Proof.Machine.execRsEncode n s
  | .buildSkeleton => Sys2Proof.Machine.execBuildSkeleton s
  | .place => Sys2Proof.Machine.execPlace s
  | .maskSelect => Sys2Proof.Machine.execMaskSelect s
  | .maskApply mid => Sys2Proof.Machine.execMaskApply mid s
  | .formatWrite => Sys2Proof.Machine.execFormatWrite s

end Sys2Proof.Machine
end

