-- ==== Sys2Proof/Machine/Step.lean ====
section
/-! DEFINITION. One step of the block: the next event of the host, of the platform or of the sequencer (rules R13, R69,
R100), and the placing of a command where the sequencer fetches it. -/

namespace Sys2Proof.Machine

/-- The sequencer performs the accepted command: its effect and its completion as one atomic step (rules R12, R100, R102);
a `BAD` word completes with `BAD_COMMAND` (rule R86; log 10). -/
def runCommand (s : State) : Out :=
  match s.fetch with
  | .ok i => exec i s
  | .error _ => .next s.badCommand

/-- The sequencer's turn: it completes the running command; without one it is idle (rule R269). -/
def sequencerTurn (s : State) : Out := if s.status.busy then runCommand s else .next s

/-- One step takes the oldest event. When none is left, a running command completes (its latency is finite, rule R292; log
2) and an idle block stays as it is (rule R269). -/
def step (s : State) : Host.Outcome State Fault Refusal :=
  match s.events with
  | [] => sequencerTurn s
  | .sequencer :: es => sequencerTurn { s with events := es }
  | .hardReset :: es => .next (State.hardReset { s with events := es })
  | .read bytes addr :: es => busAccess bytes addr (State.hostRead { s with events := es } addr)
  | .write bytes addr v :: es => busAccess bytes addr (State.hostWrite { s with events := es } addr v)

/-- `s` with the command word of the bits `w` accepted and the sequencer's turn next, so that the next step fetches and
runs it: `BUSY` and `CMD` are where the block fetches (rules R14, R101; log 15). -/
def State.withFetchWord (s : State) (nbits w : Nat) : State :=
  { s.accept (BitVec.ofNat 32 (w % 2 ^ nbits)) with events := .sequencer :: s.events }

end Sys2Proof.Machine
end

