-- ==== Sys2Proof/Machine/HostProgram.lean ====
section
/-! DEFINITION. The host assembly of the spec and its pseudo-instructions, as the events they are (rules R88, R89). -/

namespace Sys2Proof.Machine

/-- A location a host statement names (rule R88), `k` being a byte offset from the base of a buffer or plane. -/
inductive HostLoc where
  | id | cmd | status | irqen | arg | result | len | version | mask | fmt | verinfo | cellcnt | bitlen
  | penalty (m : Nat)
  | pen (m k : Nat)
  | buf (b : Buf) (k : Nat)
  | plane (p : Plane) (k : Nat)
  | offset (off : Nat)
  deriving DecidableEq, Repr

/-- The window offset of a location (rules R15, R29, R30, R31, R32). -/
def HostLoc.addr : HostLoc → Nat
  | .id => 0x000 | .cmd => 0x004 | .status => 0x008 | .irqen => 0x00C | .arg => 0x010 | .result => 0x014
  | .len => 0x018 | .version => 0x01C | .mask => 0x020 | .fmt => 0x024 | .verinfo => 0x028 | .cellcnt => 0x02C
  | .bitlen => 0x030
  | .penalty m => 0x040 + 4 * m
  | .pen m k => 0x080 + 16 * m + 4 * k
  | .buf b k => b.base + k
  | .plane p k => p.base + k
  | .offset off => off

/-- A command as a host program writes it (rule R88): a command of the table, or a raw word. -/
inductive HostCommand where
  | instr (i : Instr)
  | word (w : Word)
  deriving DecidableEq, Repr

/-- The word a host program writes for a command (rules R84, R89). -/
def HostCommand.bits : HostCommand → Word
  | .instr i => encode i
  | .word w => w

/-- A statement of a host program (rules R88, R89). In `WAIT` and `RUN`, `polls` is how many reads of `STATUS` find the
command still running before it completes: its latency, which is open (rule R292; log 1). -/
inductive HostStmt where
  | wr (loc : HostLoc) (value : Word)
  | rd (loc : HostLoc)
  | cmd (c : HostCommand)
  | wait (polls : Nat)
  | run (c : HostCommand) (polls : Nat)
  | clr
  deriving DecidableEq, Repr

/-- The reads of a `WAIT` loop with the sequencer's turn among them: it ends with the first read that finds `BUSY = 0`
(rule R89). -/
def waitEvents (polls : Nat) : List Event :=
  List.replicate polls (.read 4 HostLoc.status.addr) ++ [.sequencer, .read 4 HostLoc.status.addr]

/-- The events of a statement (rules R88, R89). -/
def HostStmt.events : HostStmt → List Event
  | .wr loc v => [.write 4 loc.addr v]
  | .rd loc => [.read 4 loc.addr]
  | .cmd c => [.write 4 HostLoc.cmd.addr c.bits]
  | .wait polls => waitEvents polls
  | .run c polls => .write 4 HostLoc.cmd.addr c.bits :: waitEvents polls
  | .clr => [.write 4 HostLoc.status.addr 0x0000000E]

/-- `s` with a host program to be run after what is already scheduled. -/
def State.withProgram (s : State) (p : List HostStmt) : State := { s with events := s.events ++ p.flatMap HostStmt.events }

end Sys2Proof.Machine
end

