-- ==== Sys2Proof/Safety.lean ====
section
/-! DEFINITION. What claims about runs are stated in: the invariant of the block's state, and the accesses a host may make
so that no step stops. -/

namespace Sys2Proof.Machine

/-- Memory is in canonical form, and no bit is set that does not exist: outside the buffers and planes, past a buffer's
last byte, past column 56 of a plane row (rules R31, R32). -/
abbrev State.MemoryOk (s : State) : Prop := s.mem.wf = true ∧ ∀ c ∈ s.mem, c.2 &&& byteMask c.1 = c.2

/-- The invariant of rule R18, and rule R252's "8..15 reserved, never produced". -/
abbrev State.StatusOk (s : State) : Prop :=
  (s.status.err = false ↔ s.status.errCode = 0) ∧ s.status.errCode.toNat ≤ 7

/-- `PENALTYm` is the sum of `PEN[m][0]` to `PEN[m][3]` (rule R30). -/
abbrev State.PenaltyOk (s : State) : Prop :=
  ∀ m : Fin 8, s.penalty[m] = s.pen[m][0] + s.pen[m][1] + s.pen[m][2] + s.pen[m][3]

/-- What the result registers can hold: a bit length of at most 2192, a cell count of at most 3249, 0 or a version word,
0 or a format word (rules R25 to R28, R129, R195, R237). -/
abbrev State.ResultsOk (s : State) : Prop :=
  s.bitlen.toNat ≤ 2192 ∧ s.cellcnt.toNat ≤ 3249 ∧ (s.verinfo = 0 ∨ s.verinfo ∈ [7, 8, 9, 10].map versionWord) ∧
    (s.fmt = 0 ∨ s.fmt ∈ (List.range 8).map formatWord)

/-- The invariant that every step keeps. -/
abbrev State.Inv (s : State) : Prop := s.MemoryOk ∧ s.StatusOk ∧ s.PenaltyOk ∧ s.ResultsOk

/-- An access the spec gives the host: 32 bits wide and inside the window (rules R62, R63). -/
def Event.inScope : Event → Bool
  | .read bytes addr => bytes == Config.busBytes && decide (addr < Config.windowBytes)
  | .write bytes addr _ => bytes == Config.busBytes && decide (addr < Config.windowBytes)
  | .sequencer => true
  | .hardReset => true

/-- A run from a safe state never stops: the invariant holds and every access still to come is in scope. -/
abbrev State.Safe (s : State) : Prop := s.Inv ∧ s.events.all Event.inScope = true

end Sys2Proof.Machine
end

