-- ==== Sys2Proof/Certificates/Slice0/Obligations.lean ====
section
/-! DEFINITION. The statements for the provers, and before them the reference forms they are stated in: the spec's own
formulas, tables and loops, written apart from the model's. -/

namespace Sys2Proof.Ref

open Sys2Proof.Machine

/-! Completion, and the operands. -/

/-- Completion without an error: `BUSY <- 0`, `DONE <- 1` (rule R102). -/
def done (s : State) : State := { s with status := { s.status with busy := false, done := true } }

/-- Completion with an error code (rules R102, R251). -/
def failed (code : BitVec 4) (s : State) : State :=
  { s with status := { s.status with busy := false, done := true, err := true, errCode := code } }

/-- `VERSION` is 1 to 10 (rule R23). -/
abbrev Legal (s : State) : Prop := 1 ≤ s.version.toNat ∧ s.version.toNat ≤ 10

/-- `size = 17 + 4*x[VERSION]` (rules R10, R23). -/
def side (s : State) : Nat := 17 + 4 * s.version.toNat

/-- Every unreserved cell inside `size x size` has a value (rule R230). -/
abbrev AllSet (s : State) : Prop :=
  ∀ r, r < side s → ∀ c, c < side s → s.mem.planeBit .rsv r c = true ∨ s.mem.planeBit .set r c = true

/-- Run commands one after the other. -/
def runAll : List Instr → State → Option State
  | [], s => some s
  | i :: is, s =>
    match exec i s with
    | .next t => runAll is t
    | .fault _ => none
    | .refused _ => none

/-! The window (rules R15, R31, R32, R39). -/

/-- `off` lies in one of the ranges, each given by its first offset and the one after its last. -/
def inRanges (ranges : List (Nat × Nat)) (off : Nat) : Bool := ranges.any fun r => decide (r.1 ≤ off) && decide (off < r.2)

/-- The words of the writable buffers and of the planes (rule R15). -/
def writableWord : Nat → Bool :=
  inRanges [(0x400, 0x510), (0x600, 0x714), (0x800, 0x95C), (0xA00, 0xB00), (0x1000, 0x11C8), (0x1200, 0x13C8),
    (0x1400, 0x15C8)]

/-- The reserved offsets (rule R15). -/
def reservedOffset : Nat → Bool :=
  inRanges [(0x034, 0x040), (0x060, 0x080), (0x100, 0x400), (0x510, 0x600), (0x714, 0x800), (0x95C, 0xA00),
    (0xB20, 0x1000), (0x11C8, 0x1200), (0x13C8, 0x1400), (0x15C8, 0x4000)]

/-- The bytes of the buffers (rule R31). -/
def bufferByte : Nat → Bool := inRanges [(0x400, 0x510), (0x600, 0x712), (0x800, 0x95A), (0xA00, 0xB00), (0xB00, 0xB20)]

/-- The bytes of the three planes (rule R32). -/
def planeByte : Nat → Bool := inRanges [(0x1000, 0x11C8), (0x1200, 0x13C8), (0x1400, 0x15C8)]

/-- The bits that exist in a byte of the window: a buffer byte has 8; in a plane row of 8 bytes the last has the one of
column 56 (rules R31, R32). -/
def presentBits (a : Nat) : Byte :=
  if bufferByte a then 0xFF else if planeByte a then (if a % 8 = 7 then 0x01 else 0xFF) else 0x00

/-- A byte as the host reads it. -/
def byteAt (s : State) (a : Nat) : Nat := (s.mem.read a &&& presentBits a).toNat

/-- A word of a buffer or a plane, its byte 0 in bits 7:0 (rule R60). -/
def wordAt (s : State) (w : Nat) : Word :=
  BitVec.ofNat 32 (byteAt s w + 256 * byteAt s (w + 1) + 65536 * byteAt s (w + 2) + 16777216 * byteAt s (w + 3))

/-- The fields of `STATUS` (rule R18). -/
def statusWord (t : Status) : Word :=
  BitVec.ofNat 32 (t.busy.toNat + 2 * t.done.toNat + 4 * t.err.toNat + 8 * t.overrun.toNat + 256 * t.errCode.toNat)

/-- A write of `v` to `STATUS` (rule R18). -/
def statusClear (v : Word) (t : Status) : Status :=
  { t with
    done := if v.getLsbD 1 then false else t.done
    err := if v.getLsbD 2 then false else t.err
    errCode := if v.getLsbD 2 then 0 else t.errCode
    overrun := if v.getLsbD 3 then false else t.overrun }

/-- What the word at the aligned offset `w` reads as (rules R15 to R32, R39). -/
def readDefined (s : State) (w : Nat) : Word :=
  if w = 0x000 then 0x51520A01
  else if w = 0x004 then s.cmd
  else if w = 0x008 then statusWord s.status
  else if w = 0x00C then s.irqen.setWidth 32
  else if w = 0x010 then s.arg
  else if w = 0x014 then s.result
  else if w = 0x018 then s.len.setWidth 32
  else if w = 0x01C then s.version.setWidth 32
  else if w = 0x020 then s.mask.setWidth 32
  else if w = 0x024 then s.fmt.setWidth 32
  else if w = 0x028 then s.verinfo.setWidth 32
  else if w = 0x02C then s.cellcnt.setWidth 32
  else if w = 0x030 then s.bitlen.setWidth 32
  else if reservedOffset w then 0
  else if 0x040 ≤ w ∧ w < 0x060 then s.penalty.toList.getD ((w - 0x040) / 4) 0
  else if 0x080 ≤ w ∧ w < 0x100 then (s.pen.toList.flatMap Vector.toList).getD ((w - 0x080) / 4) 0
  else wordAt s w

/-- A host read of the word at `w` while `BUSY = 1` (rule R70). The unspecified word is the model's free value (log 3). -/
def readBusy (s : State) (w : Nat) : State :=
  if w = 0x000 ∨ w = 0x004 ∨ w = 0x008 ∨ w = 0x00C ∨ reservedOffset w = true then { s with busRead := readDefined s w }
  else { s with busRead := Config.freeWord s.draws, draws := s.draws + 1 }

/-- A host write to the word at `w` while `BUSY = 1` (rule R70). -/
def writeBusy (s : State) (w : Nat) (v : Word) : State :=
  if w = 0x008 then { s with status := statusClear v s.status }
  else if w = 0x00C then { s with irqen := v.setWidth 3 }
  else if w = 0x004 ∨ w = 0x010 ∨ w = 0x018 ∨ w = 0x01C ∨ w = 0x020 ∨ writableWord w = true then
    { s with status := { s.status with overrun := true } }
  else s

/-! The field and the code (rules R140, R160, R163). -/

/-- The product with the generator element 2 (rule R140). -/
def xtime (a : Byte) : Byte := if a.toNat * 2 ≥ 0x100 then BitVec.ofNat 8 ((a.toNat * 2) ^^^ 0x11D) else BitVec.ofNat 8 (a.toNat * 2)

/-- The `i`-th power of the generator element (rule R140). -/
def pow2 : Nat → Byte
  | 0 => 1
  | i + 1 => xtime (pow2 i)

/-- `a * x^i` in the field. -/
def shifted (a : Byte) : Nat → Byte
  | 0 => a
  | i + 1 => xtime (shifted a i)

/-- The product of two polynomials modulo 0x11D: the sum of `a * x^i` over the bits `i` of `b` (rule R140). -/
def mul (a b : Byte) : Byte :=
  (List.range 8).foldl (fun acc i => if b.getLsbD i then acc ^^^ shifted a i else acc) 0

/-- The product of a polynomial, highest degree first, with `x - r`. -/
def timesRoot (p : List Byte) (r : Byte) : List Byte :=
  List.zipWith (fun x y => x ^^^ y) (p ++ [0]) (0 :: p.map fun c => gfMul c r)

/-- `g_n(x)`, the product of the `x - 2^i` for `i` in 0..n-1, highest degree first (rule R160). -/
def generator (n : Nat) : List Byte := (List.range n).foldl (fun p i => timesRoot p (pow2 i)) [1]

/-- `EC_KEYS` (rules R6, R160). -/
def ecKeys : List Nat := [7, 10, 13, 15, 16, 17, 18, 20, 22, 24, 26, 28, 30]

/-- One step of the division loop, at place `i` (rule R163). -/
def divisionStep (g m : List Byte) (i : Nat) : List Byte :=
  let coef := m.getD i 0
  if coef ≠ 0 then
    (List.range g.length).foldl (fun m j => m.modify (i + j) fun x => x ^^^ gfMul (g.getD j 0) coef) m
  else m

/-- `ecc_of(data, n)` as the loop of rule R163. -/
def eccLoop (data : List Byte) (n : Nat) : List Byte :=
  ((List.range data.length).foldl (divisionStep ((genPoly n).getD [])) (data ++ List.replicate n 0)).drop data.length

/-- The value of a polynomial, highest degree first, at `x`. -/
def evalAt (x : Byte) (p : List Byte) : Byte := p.foldl (fun acc c => gfMul acc x ^^^ c) 0

/-! The tables per version, by position from version 0 (rules R121, R165, R183, R187). -/

/-- `DATA_CW_OF` (rule R121). -/
def dataCodewords (v : Nat) : Nat := [0, 19, 34, 55, 80, 108, 136, 156, 194, 232, 274].getD v 0

/-- `CC_BITS` (rule R121). -/
def countBits (v : Nat) : Nat := if v = 10 then 16 else 8

/-- `CAP` from its formula (rule R122). -/
def capacity (v : Nat) : Nat := (8 * dataCodewords v - 4 - countBits v) / 8

/-- `TOTAL_CW` (rules R165, R183). -/
def totalCodewords (v : Nat) : Nat := [0, 26, 44, 70, 100, 134, 172, 196, 242, 292, 346].getD v 0

/-- `REM_CELLS` (rule R183). -/
def remainderCells (v : Nat) : Nat := if 2 ≤ v ∧ v ≤ 6 then 7 else 0

/-- `EC_PER_BLOCK` (rule R165). -/
def ecCount (v : Nat) : Nat := [0, 7, 10, 15, 20, 26, 18, 20, 24, 30, 18].getD v 0

/-- The RS blocks: where each begins in `DATA_CW` and how long it is (rule R165). -/
def rsBlocks (v : Nat) : List (Nat × Nat) :=
  if v ≤ 5 then [(0, dataCodewords v)]
  else if v ≤ 9 then [(0, dataCodewords v / 2), (dataCodewords v / 2, dataCodewords v / 2)]
  else [(0, 68), (68, 68), (136, 69), (205, 69)]

/-- The alignment centres (rule R187). -/
def centres (v : Nat) : List (Nat × Nat) :=
  if v ≤ 1 then []
  else if v ≤ 6 then [(4 * v + 10, 4 * v + 10)]
  else
    let a := [22, 24, 26, 28].getD (v - 7) 0
    let b := [38, 42, 46, 50].getD (v - 7) 0
    [(6, a), (a, 6), (a, a), (a, b), (b, a), (b, b)]

/-! The padded bit sequence, in nibbles: every part of it is a multiple of 4 bits long (rules R125 to R129). -/

/-- Mode indicator, count, data and terminator. -/
def nibbles (v L : Nat) (data : Nat → Byte) : List Nat :=
  4 :: ((if v = 10 then [L / 4096 % 16, L / 256 % 16] else []) ++ [L / 16 % 16, L % 16] ++
    ((List.range L).flatMap fun k => [(data k).toNat / 16, (data k).toNat % 16]) ++ [0])

/-- Byte `i` of `DATA_CW` after `PAD` (rules R124, R128). -/
def paddedCodeword (v L : Nat) (data : Nat → Byte) (i : Nat) : Byte :=
  let n := nibbles v L data
  if 2 * i < n.length then BitVec.ofNat 8 (16 * n.getD (2 * i) 0 + n.getD (2 * i + 1) 0)
  else if i < dataCodewords v then (if (i - n.length / 2) % 2 = 0 then 0xEC else 0x11)
  else 0

/-! The final codewords (rule R166). -/

/-- The interleaved data codewords, then the interleaved EC codewords. -/
def interleaved (v : Nat) (data : Nat → Byte) : List Byte :=
  let B := (rsBlocks v).map fun b => (List.range b.2).map fun i => data (b.1 + i)
  let E := B.map fun b => eccLoop b (ecCount v)
  ((List.range ((B.map List.length).foldl max 0)).flatMap fun i =>
      B.flatMap fun b => if i < b.length then [b.getD i 0] else []) ++
    (List.range (ecCount v)).flatMap fun i => E.map fun e => e.getD i 0

/-! BCH words (rules R195, R236). -/

/-- The remainder of `x`, of fewer than `deg + n` bits, by the binary polynomial `g` of degree `deg`. -/
def bchRemainder (g deg : Nat) : Nat → Nat → Nat
  | 0, x => x
  | n + 1, x => bchRemainder g deg n (if x.testBit (deg + n) then x ^^^ (g <<< n) else x)

/-- The format word of mask `m` (rule R236). -/
def formatBits (m : Nat) : Nat :=
  let dat := 8 + m
  ((dat <<< 10) ||| bchRemainder 0x537 10 5 (dat <<< 10)) ^^^ 0x5412

/-- The version word of version `v` (rule R195). -/
def versionBits (v : Nat) : Nat := (v <<< 12) ||| bchRemainder 0x1F25 12 6 (v <<< 12)

/-! The matrix (rules R184 to R193, R210, R225). -/

/-- The cells of `FPOS1`, by bit (rule R191). -/
def formatStrip1 : List (Nat × Nat) :=
  [(0, 8), (1, 8), (2, 8), (3, 8), (4, 8), (5, 8), (7, 8), (8, 8), (8, 7), (8, 5), (8, 4), (8, 3), (8, 2), (8, 1), (8, 0)]

/-- The cells of `FPOS2`, by bit (rule R191). -/
def formatStrip2 (size : Nat) : List (Nat × Nat) :=
  ((List.range 8).map fun i => (8, size - 1 - i)) ++ (List.range 7).map fun k => (size - 7 + k, 8)

/-- The distance of two indices. -/
def gap (a b : Nat) : Nat := max a b - min a b

/-- A reserved cell with a value. -/
def fixed (dark : Bool) : Cell := { set := true, dark := dark, rsv := true }

/-- Some format strip covers the cell (rule R191). -/
def inFormatArea (size r c : Nat) : Bool :=
  (r == 8 && (decide (c ≤ 8) || decide (size - 8 ≤ c))) || (c == 8 && (decide (r ≤ 8) || decide (size - 7 ≤ r)))

/-- The cell in row `r` and column `c` of the skeleton of version `v`, said of each cell by itself: the first pattern that
covers it, in the order of rule R192. -/
def skeletonCell (v r c : Nat) : Cell :=
  let size := 17 + 4 * v
  let ring := fun (ar ac : Nat) => max (gap r ar) (gap c ac)
  if size ≤ r ∨ size ≤ c then { set := false, dark := false, rsv := false }
  else if ring 3 3 ≤ 4 then fixed (ring 3 3 != 2 && ring 3 3 != 4)
  else if ring 3 (size - 4) ≤ 4 then fixed (ring 3 (size - 4) != 2 && ring 3 (size - 4) != 4)
  else if ring (size - 4) 3 ≤ 4 then fixed (ring (size - 4) 3 != 2 && ring (size - 4) 3 != 4)
  else if r = 6 then fixed (c % 2 == 0)
  else if c = 6 then fixed (r % 2 == 0)
  else if (centres v).any fun p => ring p.1 p.2 ≤ 2 then
    fixed ((centres v).any fun p => ring p.1 p.2 == 0 || ring p.1 p.2 == 2)
  else if inFormatArea size r c then { set := false, dark := false, rsv := true }
  else if r = size - 8 ∧ c = 8 then fixed true
  else if 7 ≤ v ∧ r < 6 ∧ size - 11 ≤ c ∧ c ≤ size - 9 then fixed ((versionBits v).testBit (3 * r + (c - (size - 11))))
  else if 7 ≤ v ∧ c < 6 ∧ size - 11 ≤ r ∧ r ≤ size - 9 then fixed ((versionBits v).testBit (3 * c + (r - (size - 11))))
  else { set := false, dark := false, rsv := false }

/-- The cell that the three planes hold (rules R32, R33). -/
def cellOf (m : Memory) (r c : Nat) : Cell :=
  { set := m.planeBit .set r c, dark := m.planeBit .dark r c, rsv := m.planeBit .rsv r c }

/-- The loop of rule R210, from the column pair `right` and the pair number `p` on; `fuel` bounds its turns. -/
def walk (rsv : Nat → Nat → Bool) (size : Nat) : Nat → Nat → Nat → List (Nat × Nat)
  | 0, _, _ => []
  | fuel + 1, right, p =>
    if right < 1 then []
    else
      let right := if right = 6 then 5 else right
      ((List.range size).flatMap fun k =>
          let r := if p % 2 = 0 then size - 1 - k else k
          [right, right - 1].flatMap fun c => if rsv r c then [] else [(r, c)]) ++
        walk rsv size fuel (right - 2) (p + 1)

/-- `ORDER(v)` over a reserved plane (rule R210). -/
def order (rsv : Nat → Nat → Bool) (size : Nat) : List (Nat × Nat) := walk rsv size size (size - 1) 0

/-- `ORDER` over the reserved plane of a state. -/
def orderOf (s : State) : List (Nat × Nat) := order (fun r c => s.mem.planeBit .rsv r c) (side s)

/-- `MASK_FN` (rule R225). -/
def maskTrue (m i j : Nat) : Bool :=
  [decide ((i + j) % 2 = 0), decide (i % 2 = 0), decide (j % 3 = 0), decide ((i + j) % 3 = 0),
    decide ((i / 2 + j / 3) % 2 = 0), decide ((i * j) % 2 + (i * j) % 3 = 0),
    decide (((i * j) % 2 + (i * j) % 3) % 2 = 0), decide (((i + j) % 2 + (i * j) % 3) % 2 = 0)].getD m false

/-! The penalty score (rules R221 to R228). -/

/-- `G_m(i, j)` (rule R221). -/
def grid (mem : Memory) (m i j : Nat) : Option Bool :=
  if mem.planeBit .rsv i j then none else some (mem.planeBit .dark i j ^^ maskTrue m i j)

/-- The rows and the columns of a grid. -/
def gridLines (size : Nat) (G : Nat → Nat → Option Bool) : List (List (Option Bool)) :=
  ((List.range size).map fun i => (List.range size).map fun j => G i j) ++
    (List.range size).map fun j => (List.range size).map fun i => G i j

/-- Rule A on one line: its maximal runs of equal cells, the runs of `none` left out (rule R222). -/
def runScores (line : List (Option Bool)) : Nat :=
  ((line.splitBy fun a b => a == b).map fun run =>
    if run.head? ≠ some none ∧ 5 ≤ run.length then 3 + (run.length - 5) else 0).sum

/-- Rule A (rule R222). -/
def ruleA (size : Nat) (G : Nat → Nat → Option Bool) : Nat := ((gridLines size G).map runScores).sum

/-- Rule B (rule R223). -/
def ruleB (size : Nat) (G : Nat → Nat → Option Bool) : Nat :=
  ((List.range (size - 1)).map fun i => ((List.range (size - 1)).map fun j =>
    if G i j ≠ none ∧ G i (j + 1) = G i j ∧ G (i + 1) j = G i j ∧ G (i + 1) (j + 1) = G i j then 3 else 0).sum).sum

/-- The two windows of rule C, dark as `true` (rule R224). -/
def finderWindows : List (List (Option Bool)) :=
  [[some true, some false, some true, some true, some true, some false, some true, some false, some false, some false,
      some false],
    [some false, some false, some false, some false, some true, some false, some true, some true, some true, some false,
      some true]]

/-- Rule C (rule R224). -/
def ruleC (size : Nat) (G : Nat → Nat → Option Bool) : Nat :=
  ((gridLines size G).map fun line => ((List.range (size - 10)).map fun s =>
    if (line.drop s).take 11 ∈ finderWindows then 40 else 0).sum).sum

/-- Rule D (rule R227). -/
def ruleD (size : Nat) (G : Nat → Nat → Option Bool) : Nat :=
  let cells := (List.range size).flatMap fun i => (List.range size).map fun j => G i j
  let N := cells.countP fun x => x != none
  let K := cells.countP fun x => x == some true
  if N = 0 then 0 else 10 * ((20 * (K : Int) - 10 * (N : Int)).natAbs / N)

/-- `PEN_m` (rule R228). -/
def scores (mem : Memory) (size m : Nat) : List Nat :=
  [ruleA size (grid mem m), ruleB size (grid mem m), ruleC size (grid mem m), ruleD size (grid mem m)]

/-- `TOTAL_m` (rule R228). -/
def total (mem : Memory) (size m : Nat) : Nat := (scores mem size m).sum

end Sys2Proof.Ref

open Sys2Proof Sys2Proof.Machine Sys2Proof.Ref

/-! Encoding. -/

/-- The examples of rule R90: each word, the command it stands for both ways, what is said of `RS_ENCODE 8` and of `MID`
with `FM = 0`. -/
def Obligations.SpecWordsDecode : Prop :=
  (decode 0x00000010 = .ok (.encode false 0) ∧ encode (.encode false 0) = 0x00000010) ∧
  (decode 0x00000B10 = .ok (.encode true 5) ∧ encode (.encode true 5) = 0x00000B10) ∧
  (decode 0x00070032 = .ok (.rsEncode 7) ∧ encode (.rsEncode 7) = 0x00070032) ∧
  (decode 0x001E0032 = .ok (.rsEncode 30) ∧ encode (.rsEncode 30) = 0x001E0032) ∧
  (decode 0x00080032 = .ok (.rsEncode 8) ∧ encode (.rsEncode 8) = 0x00080032 ∧
    ∀ s, exec (.rsEncode 8) s = .next (failed 2 s)) ∧
  (decode 0x00000651 = .ok (.maskApply 3) ∧ encode (.maskApply 3) = 0x00000651) ∧
  (decode 0x00000011).toOption = none ∧ (decode 0x00001010).toOption = none ∧
  (decode 0x00000151).toOption = none ∧ (decode 0x00010020).toOption = none ∧
  (decode 0x00000E10 = .ok (.encode false 7) ∧ ∀ mid s, exec (.encode false mid) s = exec (.encode false 0) s)

/-- Decoding the word of a well-formed command gives it back, with every operand the encoding admits. -/
def Obligations.DecodeOfEncodeIsTheCommand : Prop := ∀ i : Instr, i.wellFormed = true → decode (encode i) = .ok i

/-- A word that decodes is the word of the command it decodes to, and that command is well formed: each command has one
word (rules R80, R82; log 12 for the `MID` of an `ENCODE` with `FM = 0`). -/
def Obligations.EncodeOfDecodeIsTheWord : Prop :=
  ∀ (w : Word) (i : Instr), decode w = .ok i → i.wellFormed = true ∧ encode i = w

/-- A word decodes exactly when it is a row of the opcode table: its fixed bits as the row's pattern gives them. Every
other word is `BAD` (rules R84, R85). -/
def Obligations.DecodesExactlyTheTableWords : Prop :=
  ∀ w : Word, (∃ i, decode w = .ok i) ↔
    (w ∈ [0x00000000, 0x00000001, 0x00000020, 0x00000021, 0x00000022, 0x00000030, 0x00000031, 0x00000040, 0x00000041,
        0x00000050, 0x00000052] ∨
      w &&& 0xFFFFF0FF = 0x00000010 ∨ w &&& 0xFF00FFFF = 0x00000032 ∨ w &&& 0xFFFFF1FF = 0x00000051)

/-! The step: acceptance, the sequencer, completion. -/

/-- While a command runs, the sequencer's turn is `exec` of the command that `CMD` decodes to: with that turn scheduled
next, or with nothing scheduled (log 1, 2). Placing a command word by `withFetchWord` makes the next step run it. -/
def Obligations.StepRunsTheAcceptedCommand : Prop :=
  ∀ (s : State) (i : Instr),
    (s.status.busy = true → decode s.cmd = .ok i →
      (∀ es, s.events = .sequencer :: es → step s = exec i { s with events := es }) ∧
      (s.events = [] → step s = exec i s)) ∧
    ∀ w, w < 2 ^ 32 → decode (BitVec.ofNat 32 w) = .ok i →
      step (s.withFetchWord 32 w) =
        exec i { s with
          cmd := BitVec.ofNat 32 w
          status := { s.status with busy := true, done := false, err := false, errCode := 0 } }

/-- A word that decodes to no command completes with `BAD_COMMAND` (6) and changes nothing but `STATUS` (rule R106): with the
sequencer's turn scheduled next (log 1), or with nothing scheduled, where that the running command completes is the model's
choice (log 2). -/
def Obligations.BadWordCompletesWithBadCommand : Prop :=
  ∀ (s : State) (r : Reject), s.status.busy = true → decode s.cmd = .error r →
    (∀ es, s.events = .sequencer :: es → step s = .next (failed 6 { s with events := es })) ∧
    (s.events = [] → step s = .next (failed 6 s))

/-- A host write to `CMD`, whatever the word: accepted when `BUSY = 0` (rule R101), else lost with `OVERRUN` set (rule
R103). The execution that follows acceptance is `StepRunsTheAcceptedCommand`. -/
def Obligations.CmdWriteIssuesTheCommand : Prop :=
  ∀ (s : State) (off : Nat) (v : Word) (es : List Event), off / 4 = 1 → s.events = .write 4 off v :: es →
    (s.status.busy = false → step s = .next { s with
      events := es
      cmd := v
      status := { s.status with busy := true, done := false, err := false, errCode := 0 } }) ∧
    (s.status.busy = true → step s = .next { s with events := es, status := { s.status with overrun := true } })

/-- `BUSY` rises only by a host write to `CMD` and falls only by a completion or the hardware reset (rules R18, R37, R294). -/
def Obligations.BusyFromAcceptanceToCompletion : Prop :=
  ∀ s t : State, step s = .next t →
    (s.status.busy = false → t.status.busy = true → ∃ off v es, s.events = .write 4 off v :: es ∧ off / 4 = 1 ∧ t.cmd = v) ∧
    (s.status.busy = true → t.status.busy = false →
      (t.status.done = true ∧ (s.events = [] ∨ ∃ es, s.events = .sequencer :: es)) ∨
        ∃ es, s.events = .hardReset :: es)

/-- Every command, run in any state, completes: `BUSY = 0`, `DONE = 1`, `OVERRUN` as before; `ERR` and `ERRCODE` as
acceptance left them, or `ERR = 1` with a code in 1..7 other than `BAD_COMMAND` (rules R102, R252). -/
def Obligations.EveryCommandCompletes : Prop :=
  ∀ (i : Instr) (s : State), ∃ t, exec i s = .next t ∧ t.status.busy = false ∧ t.status.done = true ∧
    t.status.overrun = s.status.overrun ∧
    ((t.status.err = s.status.err ∧ t.status.errCode = s.status.errCode) ∨
      (t.status.err = true ∧ t.status.errCode ∈ [1#4, 2#4, 3#4, 4#4, 5#4, 7#4]))

/-- What no command writes: `CMD`, `IRQEN` and `STATUS.OVERRUN`; and, but for `SOFT_RESET`, `ARG`, `LEN`, `INBUF`, `RS_IN`
and every byte that is no byte of `DATA_CW`, `CW`, `RS_OUT` or a plane (rule R40). The model's own fields are not
touched either. -/
def Obligations.CommandsKeepTheHostsState : Prop :=
  ∀ (i : Instr) (s t : State), exec i s = .next t →
    t.cmd = s.cmd ∧ t.irqen = s.irqen ∧ t.status.overrun = s.status.overrun ∧
    t.events = s.events ∧ t.draws = s.draws ∧ t.busRead = s.busRead ∧
    (i ≠ .softReset → t.arg = s.arg ∧ t.len = s.len ∧
      ∀ a, inRanges [(0x600, 0x712), (0x800, 0x95A), (0xB00, 0xB20), (0x1000, 0x11C8), (0x1200, 0x13C8),
        (0x1400, 0x15C8)] a = false → t.mem.read a = s.mem.read a)

/-- The latency of a command changes nothing (rule R292; log 1): a host that issues a command and polls `STATUS` ends,
however many reads find it running, in the state the command leaves, having read the final `STATUS` last (rule R89). -/
def Obligations.LatencyDoesNotMatter : Prop :=
  ∀ (s : State) (i : Instr) (polls : Nat), i.wellFormed = true → s.status.busy = false → s.events = [] →
    ∃ t, exec i (s.accept (encode i)) = .next t ∧
      Host.Core.run Sys2Proof.core (polls + 3) (s.withProgram [.run (.instr i) polls]) =
        .next { t with busRead := statusWord t.status }

/-! Host accesses. -/

/-- Reads and writes while `BUSY = 1`, location by location (rules R70, R103). The word an unspecified read returns is the
model's free value, a fresh one for each (log 3). -/
def Obligations.BusyAccessesFollowTheTable : Prop :=
  ∀ (s : State) (off : Nat) (v : Word) (es : List Event), off < 0x4000 → s.status.busy = true →
    (s.events = .read 4 off :: es → step s = .next (readBusy { s with events := es } (4 * (off / 4)))) ∧
    (s.events = .write 4 off v :: es → step s = .next (writeBusy { s with events := es } (4 * (off / 4)) v))

/-- No host access disturbs a running command: it keeps running, and all it reads and writes stays as it was (rules R70,
R73, R103, R288). -/
def Obligations.RunningCommandIsUndisturbed : Prop :=
  ∀ s t : State, s.status.busy = true → step s = .next t →
    (∃ es, (∃ off, s.events = .read 4 off :: es) ∨ ∃ off v, s.events = .write 4 off v :: es) →
    t.status.busy = true ∧ t.cmd = s.cmd ∧ t.arg = s.arg ∧ t.result = s.result ∧ t.len = s.len ∧ t.version = s.version ∧
      t.mask = s.mask ∧ t.fmt = s.fmt ∧ t.verinfo = s.verinfo ∧ t.cellcnt = s.cellcnt ∧ t.bitlen = s.bitlen ∧
      t.penalty = s.penalty ∧ t.pen = s.pen ∧ t.mem = s.mem

/-- A read while `BUSY = 0` returns what the register map gives, for every offset of the window, and changes nothing of the
block (rules R15 to R31, R39, R60, R62, R64, R66). -/
def Obligations.IdleReadsFollowTheRegisterMap : Prop :=
  ∀ (s : State) (off : Nat) (es : List Event), off < 0x4000 → s.status.busy = false → s.events = .read 4 off :: es →
    step s = .next { s with events := es, busRead := readDefined s (4 * (off / 4)) }

/-- Word `8*r + 4*h` of a plane holds cell `(r, 32*h + b)` in bit `b`; bits past column 56 read 0 (rule R32). -/
def Obligations.PlaneWordsHoldTheCells : Prop :=
  ∀ (s : State) (p : Plane) (r h : Nat) (es : List Event), r < 57 → h < 2 → s.status.busy = false →
    s.events = .read 4 (p.base + 8 * r + 4 * h) :: es →
    ∃ x : Word, step s = .next { s with events := es, busRead := x } ∧
      ∀ b, b < 32 → x.getLsbD b = (decide (32 * h + b ≤ 56) && s.mem.planeBit p r (32 * h + b))

/-- A write to a writable register while `BUSY = 0` stores the bits the register has and changes nothing else; `IRQEN` and
`STATUS` take their writes at any time (rules R18, R19, R20, R22, R23, R24). -/
def Obligations.RegisterWritesStoreTheirFields : Prop :=
  ∀ (s : State) (off : Nat) (v : Word) (es : List Event), s.events = .write 4 off v :: es →
    (off / 4 = 2 → step s = .next { s with events := es, status := statusClear v s.status }) ∧
    (off / 4 = 3 → step s = .next { s with events := es, irqen := v.setWidth 3 }) ∧
    (s.status.busy = false →
      (off / 4 = 4 → step s = .next { s with events := es, arg := v }) ∧
      (off / 4 = 6 → step s = .next { s with events := es, len := v.setWidth 9 }) ∧
      (off / 4 = 7 → step s = .next { s with events := es, version := v.setWidth 4 }) ∧
      (off / 4 = 8 → step s = .next { s with events := es, mask := v.setWidth 3 }))

/-- A write to a word of a writable buffer or of a plane while `BUSY = 0` stores its bytes, byte 0 from bits 7:0, but for
bits that do not exist, and changes no other byte (rules R31, R32, R60, R63, R64; log 8, log 11). -/
def Obligations.MemoryWritesStoreTheWord : Prop :=
  ∀ (s : State) (off : Nat) (v : Word) (es : List Event), writableWord (4 * (off / 4)) = true → s.status.busy = false →
    s.events = .write 4 off v :: es →
    ∃ m : Memory, step s = .next { s with events := es, mem := m } ∧
      ∀ a, m.read a =
        if 4 * (off / 4) ≤ a ∧ a < 4 * (off / 4) + 4 then (v >>> (8 * (a - 4 * (off / 4)))).setWidth 8 &&& presentBits a
        else s.mem.read a

/-- A write to a reserved offset, to a read-only register or to `RS_OUT` changes nothing, idle or busy (rules R39, R70). -/
def Obligations.ReadOnlyAndReservedWritesAreIgnored : Prop :=
  ∀ (s : State) (off : Nat) (v : Word) (es : List Event),
    (off / 4 = 0 ∨ off / 4 = 5 ∨ inRanges [(0x024, 0x034), (0x040, 0x060), (0x080, 0x100), (0xB00, 0xB20)] off = true ∨
      reservedOffset off = true) →
    s.events = .write 4 off v :: es → step s = .next { s with events := es }

/-- Reads have no side effects: the same word twice, and nothing changed but what the bus carries. A write anywhere but at
`CMD` and `STATUS` is idempotent (rule R66). -/
def Obligations.AccessesRepeatWithoutSideEffects : Prop :=
  (∀ (s : State) (off : Nat) (es : List Event), off < 0x4000 → s.status.busy = false →
    s.events = .read 4 off :: .read 4 off :: es →
    ∃ x : Word, step s = .next { s with events := .read 4 off :: es, busRead := x } ∧
      step { s with events := .read 4 off :: es, busRead := x } = .next { s with events := es, busRead := x }) ∧
  ∀ (s : State) (off : Nat) (v : Word) (es : List Event), off < 0x4000 → off / 4 ≠ 1 → off / 4 ≠ 2 →
    s.events = .write 4 off v :: .write 4 off v :: es →
    ∃ t : State, step s = .next { t with events := .write 4 off v :: es } ∧
      step { t with events := .write 4 off v :: es } = .next { t with events := es }

/-- Accesses outside the spec stop the model by name: a width other than 4 bytes, an offset at or above 0x4000 (log 7). -/
def Obligations.OutOfScopeAccessesStop : Prop :=
  ∀ (s : State) (bytes off : Nat) (v : Word) (es : List Event),
    s.events = .read bytes off :: es ∨ s.events = .write bytes off v :: es →
    (bytes ≠ 4 → step s = .refused (.accessWidth bytes)) ∧
    (bytes = 4 → 0x4000 ≤ off → step s = .fault (.outsideWindow off))

/-- While every access still to come is 4 bytes wide and inside the window no step stops, and a host access raises no
error (rule R250). -/
def Obligations.InScopeEventsNeverStopTheMachine : Prop :=
  ∀ s : State, s.events.all Event.inScope = true →
    ∃ t, step s = .next t ∧ t.events = s.events.tail ∧ t.events.all Event.inScope = true ∧
      ((∃ bytes off es, s.events = .read bytes off :: es ∨ ∃ v, s.events = .write bytes off v :: es) →
        t.status.err = true → s.status.err = true)

/-- The interrupt output is a function of `STATUS` and `IRQEN` (rule R258): bit `k` of `IRQEN` enables bit `k + 1` of
`STATUS`; it is 0 after reset; it rises with an enabled completion or refused write, and acceptance drops it unless an
enabled `OVERRUN` holds it. -/
def Obligations.IrqFollowsStatusAndEnable : Prop :=
  (∀ s : State, s.irq = true ↔ ∃ k, k < 3 ∧ (statusWord s.status).getLsbD (k + 1) = true ∧ s.irqen.getLsbD k = true) ∧
  State.reset.irq = false ∧
  (∀ s : State, s.irqen.getLsbD 0 = true → (done s).irq = true ∧ ∀ code, (failed code s).irq = true) ∧
  (∀ s : State, s.irqen.getLsbD 1 = true → ∀ code, (failed code s).irq = true) ∧
  (∀ s : State, s.irqen.getLsbD 2 = true → s.refuseWrite.irq = true) ∧
  ∀ (s : State) (w : Word), (s.accept w).irq = (s.status.overrun && s.irqen.getLsbD 2)

/-! Reset and the invariant. -/

/-- After reset (rule R281): idle, every readable location 0 but `ID`, the interrupt output 0 until a source is enabled,
and the first `CMD` write accepted. -/
def Obligations.ResetReadsZero : Prop :=
  State.reset.status.busy = false ∧
  (∀ off, off < 0x4000 → ∃ t, step { State.reset with events := [.read 4 off] } = .next t ∧
    t.busRead = if off / 4 = 0 then 0x51520A01 else 0) ∧
  (∀ a, State.reset.mem.read a = 0) ∧
  (∀ s : State, s.irqen = 0 → s.irq = false) ∧ State.reset.irqen = 0 ∧
  ∀ w : Word, ∃ t, step { State.reset with events := [.write 4 4 w] } = .next t ∧ t.status.busy = true ∧ t.cmd = w

/-- The hardware reset at any point, also while a command runs: every item of the reset table takes its reset value, the
command is abandoned (rule R280). What the host does next and what was read stays (the model's own fields, log 16). -/
def Obligations.HardResetEndsEverything : Prop :=
  ∀ (s : State) (es : List Event), s.events = .hardReset :: es →
    step s = .next { State.reset with events := es, draws := s.draws, busRead := s.busRead } ∧
      ∀ t, step s = .next t → t.irq = false

/-- The invariant holds after reset. -/
def Obligations.ResetMeetsTheInvariant : Prop := State.reset.Inv

/-- Every step keeps the invariant: memory in canonical form with no bit that does not exist; `ERR = 0` exactly when
`ERRCODE = 0`, and no reserved code; `PENALTYm` the sum of its four parts; the result registers in their ranges (rules
R18, R25 to R32, R252). -/
def Obligations.EveryStepKeepsTheInvariant : Prop := ∀ s t : State, s.Inv → step s = .next t → t.Inv

/-! The control commands. -/

/-- `NOP`: its completion and nothing else, `DONE = 1` and `ERR = 0` once accepted; no other word with its opcode is a
command (rule R104). -/
def Obligations.NopOnlyCompletes : Prop :=
  (∀ s : State, exec .nop s = .next (done s)) ∧
  encode .nop = 0x00000000 ∧
  (∀ w : Word, w.setWidth 8 = 0x00#8 → w ≠ 0 → (decode w).toOption = none) ∧
  (∀ s : State, ∃ t, exec .nop (s.accept (encode .nop)) = .next t ∧ t.status.done = true ∧ t.status.err = false ∧
    t.status.errCode = 0) ∧
  ∃ t, exec .nop (State.reset.accept (encode .nop)) = .next t ∧ statusWord t.status = 0x00000002

/-- `SOFT_RESET`: every item of the reset table but `ID`, `CMD`, `IRQEN` and `STATUS` takes its reset value, then the
command completes (rules R105, R283); the model's own fields stay. -/
def Obligations.SoftResetResetsTheDataPath : Prop :=
  ∀ s : State, exec .softReset s = .next (done { State.reset with
    cmd := s.cmd, irqen := s.irqen, status := s.status, events := s.events, draws := s.draws, busRead := s.busRead })

/-! The field. -/

/-- `GF_MUL` writes the product of two polynomials modulo 0x11D, `ARG[7:0]` times `ARG[15:8]`, and nothing else (rules R140,
R142, R144). -/
def Obligations.GfMulIsThePolynomialProduct : Prop :=
  ∀ s : State, exec .gfMul s =
    .next (done { s with result := (Ref.mul (s.arg.setWidth 8) ((s.arg >>> 8).setWidth 8)).setWidth 32 })

/-- The field laws of rule R143, of the product that `GF_MUL` and every division use. -/
def Obligations.GfFieldLaws : Prop :=
  ∀ a b c : Byte, gfMul a b = gfMul b a ∧ gfMul (gfMul a b) c = gfMul a (gfMul b c) ∧ gfMul a 1 = a ∧ gfMul a 0 = 0 ∧
    gfMul a (b ^^^ c) = gfMul a b ^^^ gfMul a c

/-- `GF_EXP` writes the power of the generator element that `ARG[8:0]` names, and nothing else (rules R140, R145). -/
def Obligations.GfExpReadsThePowersOfTwo : Prop :=
  ∀ s : State, exec .gfExp s = .next (done { s with result := (pow2 (s.arg.toNat % 512)).setWidth 32 })

/-- `GF_LOG`, word 0x00000022: of a non-zero byte `ARG[7:0]` it writes the one exponent in 0..254 whose power the byte is,
and nothing else; of 0 it fails with `BAD_ARGUMENT` (5) and `RESULT` stays (rules R141, R146). -/
def Obligations.GfLogInvertsTheExponent : Prop :=
  encode .gfLog = 0x00000022 ∧ ∀ s : State,
    ((s.arg.setWidth 8 : Byte) = 0 → exec .gfLog s = .next (failed 5 s)) ∧
    ((s.arg.setWidth 8 : Byte) ≠ 0 → ∃ i, i < 255 ∧ pow2 i = s.arg.setWidth 8 ∧
      (∀ j, j < 255 → pow2 j = s.arg.setWidth 8 → j = i) ∧
      exec .gfLog s = .next (done { s with result := BitVec.ofNat 32 i }))

/-! The padder. -/

/-- `CAP[v]` is the greatest byte count that fits the data bits of the version, and it rises strictly (rule R122). -/
def Obligations.CapacityIsWhatFits : Prop :=
  ∀ v, 1 ≤ v → v ≤ 10 →
    capOf v = (8 * dataCwOf v - 4 - ccBits v) / 8 ∧ (v < 10 → capOf v < capOf (v + 1)) ∧
      ∀ n, 4 + ccBits v + 8 * n ≤ 8 * dataCwOf v ↔ n ≤ capOf v

/-- `PAD` of at most 271 bytes: the smallest version that holds them; `BITLEN` is `8*L + 16`, in version 10 `8*L + 24`;
`DATA_CW` holds mode, count, data, terminator and the alternating pad bytes, then zeros; nothing else changes (rules R123
to R129). -/
def Obligations.PadBuildsTheCodewords : Prop :=
  ∀ s : State, s.len.toNat ≤ 271 →
    ∃ (v : Nat) (m : Memory), 1 ≤ v ∧ v ≤ 10 ∧ s.len.toNat ≤ capacity v ∧
      (∀ u, 1 ≤ u → u < v → capacity u < s.len.toNat) ∧
      exec .pad s = .next (done { s with
        version := BitVec.ofNat 4 v
        bitlen := BitVec.ofNat 12 (8 * s.len.toNat + if v = 10 then 24 else 16)
        mem := m }) ∧
      ∀ a, m.read a =
        if 0x600 ≤ a ∧ a < 0x712 then paddedCodeword v s.len.toNat (fun k => s.mem.read (0x400 + k)) (a - 0x600)
        else s.mem.read a

/-! The Reed-Solomon unit. -/

/-- The generator table is the product of rule R160, for the counts of `EC_KEYS` and for no other. -/
def Obligations.GeneratorTableIsTheProduct : Prop :=
  (∀ n, n ∈ ecKeys → genPoly n = some (generator n)) ∧ ∀ n, n ∉ ecKeys → genPoly n = none

/-- The division is the loop of rule R163, and its result has `n` codewords. -/
def Obligations.DivisionIsTheLoop : Prop :=
  ∀ (data : List Byte) (n : Nat), n ∈ ecKeys → eccOf data n = eccLoop data n ∧ (eccOf data n).length = n

/-- The data followed by its EC codewords is 0 at every root of the generator polynomial (rules R160, R164). -/
def Obligations.EccHasZeroSyndromes : Prop :=
  ∀ (data : List Byte) (n i : Nat), n ∈ ecKeys → i < n → evalAt (pow2 i) (data ++ eccOf data n) = 0

/-- `RS_ENCODE`: the EC codewords of `RS_IN[0..k)` in `RS_OUT`, then zeros, and nothing else changed; a count with no
generator fails with `UNSUPPORTED_CONFIG` (2), checked first, a length above 256 with `BAD_ARGUMENT` (5), and `RS_OUT`
stays (rules R162, R253). -/
def Obligations.RsEncodeWritesTheRemainder : Prop :=
  ∀ (s : State) (n : Nat),
    (n ∉ ecKeys → exec (.rsEncode n) s = .next (failed 2 s)) ∧
    (n ∈ ecKeys → 256 < s.arg.toNat % 512 → exec (.rsEncode n) s = .next (failed 5 s)) ∧
    (n ∈ ecKeys → s.arg.toNat % 512 ≤ 256 → ∃ m : Memory,
      exec (.rsEncode n) s = .next (done { s with mem := m }) ∧
      ∀ a, m.read a =
        if 0xB00 ≤ a ∧ a < 0xB20 then
          (eccLoop ((List.range (s.arg.toNat % 512)).map fun k => s.mem.read (0xA00 + k)) n).getD (a - 0xB00) 0
        else s.mem.read a)

/-- `ECC`: `DATA_CW` split into the RS blocks of the version, their data codewords and then their EC codewords interleaved in
`CW`, then zeros, and nothing else changed (rules R165 to R167). -/
def Obligations.EccInterleavesTheBlocks : Prop :=
  ∀ s : State, Legal s →
    (interleaved s.version.toNat fun k => s.mem.read (0x600 + k)).length = totalCodewords s.version.toNat ∧
    ∃ m : Memory, exec .ecc s = .next (done { s with mem := m }) ∧
      ∀ a, m.read a =
        if 0x800 ≤ a ∧ a < 0x95A then
          (interleaved s.version.toNat fun k => s.mem.read (0x600 + k)).getD (a - 0x800) 0
        else s.mem.read a

/-! Errors. -/

/-- Each error, where its check comes first, and nothing changed but `STATUS` and what that error keeps (rules R251, R252,
R253): `TOO_LONG`; `BAD_ARGUMENT` and `UNSUPPORTED_CONFIG`; `BAD_VERSION` of all six commands; `INTERNAL_SIZE_MISMATCH`,
which keeps `CELLCNT`; `UNSET_READ`. -/
def Obligations.ErrorsFollowTheCheckOrder : Prop :=
  ∀ s : State,
    (271 < s.len.toNat → exec .pad s = .next (failed 1 s)) ∧
    (s.arg.toNat % 256 = 0 → exec .gfLog s = .next (failed 5 s)) ∧
    (∀ n, n ∉ ecKeys → exec (.rsEncode n) s = .next (failed 2 s)) ∧
    (∀ n, n ∈ ecKeys → 256 < s.arg.toNat % 512 → exec (.rsEncode n) s = .next (failed 5 s)) ∧
    (¬Legal s → ∀ i, i ∈ [Instr.ecc, .buildSkeleton, .place, .maskSelect, .formatWrite] ∨ (∃ mid, i = .maskApply mid) →
      exec i s = .next (failed 4 s)) ∧
    (Legal s → (orderOf s).length ≠ 8 * totalCodewords s.version.toNat + remainderCells s.version.toNat →
      exec .place s = .next (failed 3 { s with cellcnt := BitVec.ofNat 12 (orderOf s).length })) ∧
    (Legal s → ¬AllSet s → exec .maskSelect s = .next (failed 7 s) ∧ ∀ mid, exec (.maskApply mid) s = .next (failed 7 s))

/-! The matrix builder and the placer. -/

/-- `BUILD_SKELETON`: every one of the 57x57 cells is as its pattern says, `VERINFO` is the version word or 0, and nothing
else changes (rules R180 to R195). -/
def Obligations.BuildSkeletonBuildsTheSkeleton : Prop :=
  ∀ s : State, Legal s → ∃ m : Memory,
    exec .buildSkeleton s = .next (done { s with
      verinfo := if 7 ≤ s.version.toNat then BitVec.ofNat 18 (versionBits s.version.toNat) else 0
      mem := m }) ∧
    (∀ r c, r < 57 → c < 57 → cellOf m r c = skeletonCell s.version.toNat r c) ∧
    ∀ a, planeByte a = false → m.read a = s.mem.read a

/-- The cell counts of rule R183 for every version, and the table columns they give. -/
def Obligations.SkeletonCellCounts : Prop :=
  ∀ v, 1 ≤ v → v ≤ 10 →
    let cells := (List.range (17 + 4 * v)).flatMap fun r => (List.range (17 + 4 * v)).map fun c => (skeleton v).cell r c
    let reserved := [233, 266, 274, 282, 290, 298, 457, 465, 473, 481].getD (v - 1) 0
    let unreserved := [208, 359, 567, 807, 1079, 1383, 1568, 1936, 2336, 2768].getD (v - 1) 0
    cells.countP Cell.rsv = reserved ∧ cells.countP (fun x => !x.rsv) = unreserved ∧
      reserved + unreserved = (17 + 4 * v) * (17 + 4 * v) ∧
      totalCw v = unreserved / 8 ∧ remCells v = unreserved % 8

/-- On the skeleton of every version the order begins at the bottom-right cell and visits each unreserved cell of the
symbol exactly once, and no other cell (rule R217). -/
def Obligations.OrderVisitsEveryUnreservedCellOnce : Prop :=
  ∀ v, 1 ≤ v → v ≤ 10 →
    (∀ r, r < 17 + 4 * v → ((skeleton v).cell r 6).rsv = true) ∧
    (placementOrder (skeleton v) (17 + 4 * v)).head? = some (16 + 4 * v, 16 + 4 * v) ∧
    (placementOrder (skeleton v) (17 + 4 * v)).Nodup ∧
    ∀ r c, (r, c) ∈ placementOrder (skeleton v) (17 + 4 * v) ↔
      r < 17 + 4 * v ∧ c < 17 + 4 * v ∧ ((skeleton v).cell r c).rsv = false

/-- The order is the loop of rule R210, over any reserved plane. -/
def Obligations.PlacementOrderIsTheWalk : Prop :=
  ∀ (M : Matrix) (v : Nat), 1 ≤ v → v ≤ 10 →
    placementOrder M (17 + 4 * v) = order (fun r c => (M.cell r c).rsv) (17 + 4 * v)

/-- `PLACE`, when the count agrees: the cells of the order get the bits of `CW`, most significant first, then light; they
stay unreserved; `CELLCNT` is their count; nothing else changes (rules R210 to R216). -/
def Obligations.PlaceWritesTheBits : Prop :=
  ∀ s : State, Legal s →
    (orderOf s).length = 8 * totalCodewords s.version.toNat + remainderCells s.version.toNat →
    ∃ m : Memory,
      exec .place s = .next (done { s with cellcnt := BitVec.ofNat 12 (orderOf s).length, mem := m }) ∧
      (∀ i, i < (orderOf s).length → cellOf m ((orderOf s).getD i (0, 0)).1 ((orderOf s).getD i (0, 0)).2 =
        { set := true
          dark := decide (i < 8 * totalCodewords s.version.toNat) && (s.mem.read (0x800 + i / 8)).getLsbD (7 - i % 8)
          rsv := false }) ∧
      (∀ r c, r < 57 → c < 57 → (r, c) ∉ orderOf s → cellOf m r c = cellOf s.mem r c) ∧
      ∀ a, inRanges [(0x1000, 0x11C8), (0x1200, 0x13C8)] a = false → m.read a = s.mem.read a

/-! The mask evaluator and the format writer. -/

/-- The four penalties of a mask are those of the rules (rules R221 to R227), on any planes. -/
def Obligations.PenaltiesFollowTheRules : Prop :=
  ∀ (mem : Memory) (v m : Nat), 1 ≤ v → v ≤ 10 → m < 8 → penalties mem.matrix (17 + 4 * v) m = scores mem (17 + 4 * v) m

/-- The bounds of rule R232, rule by rule and of the total: of the penalties the model computes on any planes, of the
rules' reference forms, and of the registers a successful `MASK_SELECT` leaves, which hold those penalties and totals
without wrapping, each below 230100. -/
def Obligations.PenaltiesAreBounded : Prop :=
  (∀ (mem : Memory) (v m : Nat), 1 ≤ v → v ≤ 10 → m < 8 →
    (∃ a b c d, penalties mem.matrix (17 + 4 * v) m = [a, b, c, d] ∧ a ≤ 6270 ∧ b ≤ 9408 ∧ c ≤ 214320 ∧ d ≤ 100 ∧
      totalPenalty mem.matrix (17 + 4 * v) m = a + b + c + d) ∧
    totalPenalty mem.matrix (17 + 4 * v) m < 230100 ∧
    ruleA (17 + 4 * v) (grid mem m) ≤ 6270 ∧ ruleB (17 + 4 * v) (grid mem m) ≤ 9408 ∧
      ruleC (17 + 4 * v) (grid mem m) ≤ 214320 ∧ ruleD (17 + 4 * v) (grid mem m) ≤ 100 ∧
      total mem (17 + 4 * v) m < 230100) ∧
  ∀ s : State, Legal s → AllSet s → ∃ t, exec .maskSelect s = .next t ∧ ∀ m : Fin 8,
    (t.penalty[m]).toNat = totalPenalty s.mem.matrix (side s) m ∧ (t.penalty[m]).toNat < 230100 ∧
    ∀ k : Fin 4, (t.pen[m][k]).toNat = (penalties s.mem.matrix (side s) m).getD k 0 ∧ (t.pen[m][k]).toNat < 230100

/-- `MASK_SELECT`: `PEN[m][k]` and `PENALTYm` are the penalties of the rules, without wrapping; `MASK` is the mask of the least
total, the lowest of equals; the planes and all else stay (rules R228 to R231). -/
def Obligations.MaskSelectChoosesTheLeast : Prop :=
  ∀ s : State, Legal s → AllSet s →
    ∃ (pen : Vector (Vector Word 4) 8) (penalty : Vector Word 8) (best : Nat),
      exec .maskSelect s = .next (done { s with pen := pen, penalty := penalty, mask := BitVec.ofNat 3 best }) ∧
      (∀ m : Fin 8, (∀ k : Fin 4, (pen[m][k]).toNat = (scores s.mem (side s) m).getD k 0) ∧
        (penalty[m]).toNat = total s.mem (side s) m) ∧
      best < 8 ∧
      ∀ m, m < 8 → total s.mem (side s) best ≤ total s.mem (side s) m ∧
        (m < best → total s.mem (side s) best < total s.mem (side s) m)

/-- `MASK_APPLY`: every unreserved cell of the symbol that the mask selects is inverted, `MASK` is the mask, and nothing else
changes (rules R220, R225, R234). -/
def Obligations.MaskApplyInvertsTheSelectedCells : Prop :=
  ∀ (s : State) (mid : Nat), mid < 8 → Legal s → AllSet s → ∃ m : Memory,
    exec (.maskApply mid) s = .next (done { s with mask := BitVec.ofNat 3 mid, mem := m }) ∧
    (∀ r c, r < 57 → c < 57 → cellOf m r c =
      if r < side s ∧ c < side s ∧ s.mem.planeBit .rsv r c = false ∧ maskTrue mid r c = true then
        { cellOf s.mem r c with dark := !s.mem.planeBit .dark r c }
      else cellOf s.mem r c) ∧
    ∀ a, inRanges [(0x1000, 0x11C8)] a = false → m.read a = s.mem.read a

/-- Applying a mask twice restores the matrix: all of memory, as data, in every state with the invariant (rule R226). -/
def Obligations.MaskApplyTwiceRestores : Prop :=
  ∀ (s : State) (mid : Nat), s.Inv → mid < 8 → Legal s → AllSet s →
    ∃ t, exec (.maskApply mid) s = .next t ∧
      exec (.maskApply mid) t = .next (done { s with mask := BitVec.ofNat 3 mid })

/-- The format words and the version words are the BCH words of rules R236 and R195. -/
def Obligations.FormatAndVersionWordsAreBch : Prop :=
  (∀ m, m < 8 → formatWord m = BitVec.ofNat 15 (formatBits m)) ∧
  ∀ v, 7 ≤ v → v ≤ 10 → versionWord v = BitVec.ofNat 18 (versionBits v)

/-- `FORMAT_WRITE`: bit `i` of the format word of `MASK` in both cells of bit `i`, dark for 1, each set and reserved; `FMT`
holds the word; nothing else changes (rules R191, R236 to R239). -/
def Obligations.FormatWriteWritesBothStrips : Prop :=
  ∀ s : State, Legal s → ∃ m : Memory,
    exec .formatWrite s = .next (done { s with fmt := BitVec.ofNat 15 (formatBits s.mask.toNat), mem := m }) ∧
    (∀ i, i < 15 → ∀ strip, strip ∈ [formatStrip1, formatStrip2 (side s)] →
      cellOf m (strip.getD i (0, 0)).1 (strip.getD i (0, 0)).2 = fixed ((formatBits s.mask.toNat).testBit i)) ∧
    (∀ r c, r < 57 → c < 57 → (r, c) ∉ formatStrip1 ++ formatStrip2 (side s) → cellOf m r c = cellOf s.mem r c) ∧
    ∀ a, planeByte a = false → m.read a = s.mem.read a

/-! The whole pipeline. -/

/-- `ENCODE` of at most 271 bytes completes without an error, from every state: the smallest version that holds the input;
every cell of the symbol has a value, the reserved ones are those of the skeleton, and every cell outside is unset and
unreserved; a forced mask is the one asked for; `FMT` is the word of `MASK`; with a forced mask the penalties stay; nothing
else changes but `CELLCNT`, `VERINFO`, `BITLEN`, `DATA_CW` and `CW` (rules R107, R108, R110). -/
def Obligations.EncodeSucceeds : Prop :=
  ∀ (s : State) (fm : Bool) (mid : Nat), mid < 8 → s.len.toNat ≤ 271 →
    ∃ (t : State) (v : Nat), exec (.encode fm mid) s = .next t ∧ t.status = (done s).status ∧
      t.version = BitVec.ofNat 4 v ∧ 1 ≤ v ∧ v ≤ 10 ∧ s.len.toNat ≤ capacity v ∧
      (∀ u, 1 ≤ u → u < v → capacity u < s.len.toNat) ∧
      (∀ r c, r < 57 → c < 57 → t.mem.planeBit .rsv r c = (skeletonCell v r c).rsv ∧
        t.mem.planeBit .set r c = (decide (r < 17 + 4 * v) && decide (c < 17 + 4 * v))) ∧
      (fm = true → t.mask = BitVec.ofNat 3 mid ∧ t.pen = s.pen ∧ t.penalty = s.penalty) ∧
      t.fmt = BitVec.ofNat 15 (formatBits t.mask.toNat) ∧
      t.cmd = s.cmd ∧ t.irqen = s.irqen ∧ t.arg = s.arg ∧ t.result = s.result ∧ t.len = s.len ∧
      ∀ a, inRanges [(0x600, 0x712), (0x800, 0x95A)] a = false → planeByte a = false → t.mem.read a = s.mem.read a

/-- `ENCODE` of more than 271 bytes fails closed: `TOO_LONG`, every plane bit 0, and nothing else changed (rules R109, R256). -/
def Obligations.EncodeFailsClosed : Prop :=
  ∀ (s : State) (fm : Bool) (mid : Nat), 271 < s.len.toNat → ∃ m : Memory,
    exec (.encode fm mid) s = .next (failed 1 { s with mem := m }) ∧
    ∀ a, m.read a = if planeByte a then 0 else s.mem.read a

/-- A host that runs the steps one by one gets the very state that `ENCODE` gives: with a forced mask, and with the mask
that `MASK_SELECT` left (rules R107, R287). -/
def Obligations.EncodeIsTheStepwisePipeline : Prop :=
  ∀ (s : State) (mid : Nat), mid < 8 → s.len.toNat ≤ 271 →
    (∃ t, runAll [.pad, .ecc, .buildSkeleton, .place, .maskApply mid, .formatWrite] s = some t ∧
      exec (.encode true mid) s = .next t) ∧
    ∃ u t, runAll [.pad, .ecc, .buildSkeleton, .place, .maskSelect] s = some u ∧
      runAll [.maskApply u.mask.toNat, .formatWrite] u = some t ∧ exec (.encode false mid) s = .next t

/-- The symbol is a function of the input alone: two states that agree on `LEN` and the input bytes, whatever else they
hold, give the same registers, codewords and planes (rules R40, R112). -/
def Obligations.EncodeReadsOnlyItsInput : Prop :=
  ∀ (s s' : State) (fm : Bool) (mid : Nat), mid < 8 → s.len.toNat ≤ 271 → s'.len = s.len →
    (∀ k, k < s.len.toNat → s'.mem.read (0x400 + k) = s.mem.read (0x400 + k)) →
    ∃ t t', exec (.encode fm mid) s = .next t ∧ exec (.encode fm mid) s' = .next t' ∧
      t'.version = t.version ∧ t'.bitlen = t.bitlen ∧ t'.verinfo = t.verinfo ∧ t'.cellcnt = t.cellcnt ∧
      t'.mask = t.mask ∧ t'.fmt = t.fmt ∧ (fm = false → t'.pen = t.pen ∧ t'.penalty = t.penalty) ∧
      ∀ a, inRanges [(0x600, 0x712), (0x800, 0x95A)] a = true ∨ planeByte a = true → t'.mem.read a = t.mem.read a
end

