-- ==== Sys2Proof/Laws/Memory.lean ====
section
/-! SUPPORT. The laws of memory: reading after a write, the canonical form, and that equal readings are equal data. -/

namespace Sys2Proof.Machine

namespace Memory

theorem read_nil (x : Nat) : Memory.read [] x = 0 := rfl

theorem read_cons (c : Host.Cell) (m : Memory) (x : Nat) :
    Memory.read (c :: m) x = if x = c.1 then c.2 else Memory.read m x := by
  rcases c with ⟨a, v⟩
  by_cases h : x = a
  · simp [Memory.read, h]
  · have hb : (x == a) = false := by simpa using h
    simp only [Memory.read, List.lookup_cons, hb, if_neg h]

/-- An offset listed nowhere in `l` reads from what follows `l`. -/
theorem read_append_of_not_mem {l m : Memory} {x : Nat} (h : ∀ c ∈ l, c.1 ≠ x) :
    Memory.read (l ++ m) x = Memory.read m x := by
  induction l with
  | nil => rfl
  | cons c l ih =>
    rw [List.cons_append, read_cons, if_neg (fun e => h c (by simp) e.symm)]
    exact ih fun d hd => h d (by simp [hd])

theorem read_eq_zero {m : Memory} {x : Nat} (h : ∀ c ∈ m, c.1 ≠ x) : m.read x = 0 := by
  have e := read_append_of_not_mem (m := []) h
  rwa [List.append_nil] at e

/-- An offset not listed in `m` reads from the part before. -/
theorem read_append_left {l m : Memory} {x : Nat} (h : ∀ c ∈ m, c.1 ≠ x) :
    Memory.read (l ++ m) x = Memory.read l x := by
  induction l with
  | nil => exact read_eq_zero h
  | cons c l ih => rw [List.cons_append, read_cons, read_cons, ih]

/-- Dropping entries that are not at `x` does not change what `x` reads as. -/
theorem read_filter {m : Memory} {p : Host.Cell → Bool} {x : Nat} (h : ∀ v, p (x, v) = true) :
    Memory.read (m.filter p) x = m.read x := by
  induction m with
  | nil => rfl
  | cons c m ih =>
    rcases c with ⟨a, v⟩
    by_cases hx : x = a
    · subst hx; simp [h, read_cons]
    · rw [read_cons, if_neg hx, List.filter_cons]
      split
      · rw [read_cons, if_neg hx, ih]
      · exact ih

theorem listed_range {a : Nat} {vs : List Byte} {c : Host.Cell} (h : c ∈ listed a vs) :
    a ≤ c.1 ∧ c.1 < a + vs.length ∧ vs.getD (c.1 - a) 0 = c.2 ∧ c.2 ≠ 0 := by
  induction vs generalizing a with
  | nil => cases h
  | cons v vs ih =>
    simp only [listed] at h
    have key : c ∈ listed (a + 1) vs →
        a ≤ c.1 ∧ c.1 < a + (v :: vs).length ∧ (v :: vs).getD (c.1 - a) 0 = c.2 ∧ c.2 ≠ 0 := fun h => by
      obtain ⟨h1, h2, h3, h4⟩ := ih h
      refine ⟨by omega, by simp only [List.length_cons]; omega, ?_, h4⟩
      rw [show c.1 - a = (c.1 - (a + 1)) + 1 by omega]; simpa using h3
    split at h
    · exact key h
    · rename_i hv
      rcases List.mem_cons.mp h with rfl | h
      · simpa [unlisted] using hv
      · exact key h

theorem read_listed (a : Nat) (vs : List Byte) (x : Nat) :
    Memory.read (listed a vs) x = if a ≤ x ∧ x < a + vs.length then vs.getD (x - a) 0 else 0 := by
  induction vs generalizing a with
  | nil => simp only [listed, read_nil, List.length_nil, List.getD_nil, ite_self]
  | cons v vs ih =>
    have hlt : x < a + (v :: vs).length ↔ x < a + 1 + vs.length := by simp only [List.length_cons]; omega
    by_cases hx : x = a
    · subst hx
      have hno : ∀ c ∈ listed (x + 1) vs, c.1 ≠ x := fun c hc => by have := (listed_range hc).1; omega
      have hin : x ≤ x ∧ x < x + (v :: vs).length := ⟨le_rfl, by simp⟩
      rw [if_pos hin]
      simp only [listed, Nat.sub_self, List.getD_cons_zero]
      split
      · rename_i hv; rw [read_eq_zero hno, hv]; rfl
      · rw [read_cons, if_pos rfl]
    · have htail : Memory.read (listed a (v :: vs)) x = Memory.read (listed (a + 1) vs) x := by
        simp only [listed]
        split
        · rfl
        · rw [read_cons, if_neg hx]
      rw [htail, ih]
      by_cases h1 : a + 1 ≤ x ∧ x < a + 1 + vs.length
      · rw [if_pos h1, if_pos ⟨by omega, hlt.mpr h1.2⟩, show x - a = (x - (a + 1)) + 1 by omega,
          List.getD_cons_succ]
      · rw [if_neg h1, if_neg fun h => h1 ⟨by omega, hlt.mp h.2⟩]

/-- Reading after a write: the bytes written inside the run, what was there before outside it. -/
theorem read_splice (m : Memory) (a : Nat) (vs : List Byte) (x : Nat) :
    (m.splice a vs).read x = if a ≤ x ∧ x < a + vs.length then vs.getD (x - a) 0 else m.read x := by
  have hlow : ∀ c ∈ m.filter (fun c => decide (c.1 < a)), c.1 < a := fun c hc => by
    simpa using (List.mem_filter.mp hc).2
  have hhigh : ∀ c ∈ m.filter (fun c => decide (a + vs.length ≤ c.1)), a + vs.length ≤ c.1 := fun c hc => by
    simpa using (List.mem_filter.mp hc).2
  unfold splice
  rw [List.append_assoc]
  by_cases h1 : x < a
  · rw [read_append_left, read_filter fun v => by simpa using h1, if_neg (by omega)]
    intro c hc
    rcases List.mem_append.mp hc with hc | hc
    · have := (listed_range hc).1; omega
    · have := hhigh c hc; omega
  · rw [read_append_of_not_mem fun c hc => by have := hlow c hc; omega]
    by_cases h2 : x < a + vs.length
    · rw [read_append_left fun c hc => by have := hhigh c hc; omega, read_listed]
      simp only [show a ≤ x by omega, h2, and_self, if_true]
    · rw [read_append_of_not_mem fun c hc => by have := (listed_range hc).2.1; omega,
        read_filter fun v => by simpa using (by omega : a + vs.length ≤ x), if_neg (by omega)]

theorem read_window {m : Memory} {a n x : Nat} (h : a ≤ x ∧ x < a + n) : (m.window a n).read x = m.read x :=
  read_filter fun _ => by simpa using h

@[simp] theorem length_load (m : Memory) (a n : Nat) : (m.load a n).length = n := by simp [load]

theorem getD_load (m : Memory) {a n i : Nat} (h : i < n) : (m.load a n).getD i 0 = m.read (a + i) := by
  have hi : i < (m.load a n).length := by simpa using h
  rw [List.getD_eq_getElem _ _ hi]
  simp only [load, List.getElem_map, List.getElem_range]
  exact read_window ⟨by omega, by omega⟩

/-- Two runs of bytes are equal when every byte of them reads the same. -/
theorem load_congr {m m' : Memory} {a n : Nat} (h : ∀ x, a ≤ x → x < a + n → m.read x = m'.read x) :
    m.load a n = m'.load a n := by
  refine List.ext_getElem (by simp) fun i h1 h2 => ?_
  have hi : i < n := by simpa using h1
  have e := getD_load m (a := a) hi
  have e' := getD_load m' (a := a) hi
  rw [List.getD_eq_getElem _ _ h1] at e
  rw [List.getD_eq_getElem _ _ h2] at e'
  rw [e, e', h _ (by omega) (by omega)]

/-! The canonical form. -/

theorem wfFrom_mono {lo lo' : Nat} {m : List Host.Cell} (h : lo' ≤ lo) (hm : wfFrom lo m = true) :
    wfFrom lo' m = true := by
  cases m with
  | nil => rfl
  | cons c m =>
    simp only [wfFrom, Bool.and_eq_true, decide_eq_true_eq] at hm ⊢
    exact ⟨⟨by omega, hm.1.2⟩, hm.2⟩

theorem wfFrom_mem {lo : Nat} {m : List Host.Cell} (hm : wfFrom lo m = true) {c : Host.Cell} (hc : c ∈ m) :
    lo ≤ c.1 ∧ c.2 ≠ 0 := by
  induction m generalizing lo with
  | nil => cases hc
  | cons d m ih =>
    simp only [wfFrom, Bool.and_eq_true, decide_eq_true_eq, bne_iff_ne, ne_eq] at hm
    rcases List.mem_cons.mp hc with rfl | hc
    · exact ⟨hm.1.1, hm.1.2⟩
    · have := ih hm.2 hc; exact ⟨by omega, this.2⟩

theorem wfFrom_filter {lo : Nat} {m : List Host.Cell} {p : Host.Cell → Bool} (hm : wfFrom lo m = true) :
    wfFrom lo (m.filter p) = true := by
  induction m generalizing lo with
  | nil => rfl
  | cons c m ih =>
    simp only [wfFrom, Bool.and_eq_true, decide_eq_true_eq] at hm
    rw [List.filter_cons]
    split
    · simp only [wfFrom, Bool.and_eq_true, decide_eq_true_eq]; exact ⟨hm.1, ih hm.2⟩
    · exact wfFrom_mono (by omega) (ih hm.2)

/-- Two canonical parts, the second beginning at or above an offset that all of the first lies below. -/
theorem wfFrom_append {lo hi : Nat} {l m : List Host.Cell} (hl : wfFrom lo l = true) (hm : wfFrom hi m = true)
    (hlt : ∀ c ∈ l, c.1 < hi) (hle : lo ≤ hi) : wfFrom lo (l ++ m) = true := by
  induction l generalizing lo with
  | nil => exact wfFrom_mono hle hm
  | cons c l ih =>
    simp only [List.cons_append, wfFrom, Bool.and_eq_true, decide_eq_true_eq] at hl ⊢
    have := hlt c (by simp)
    exact ⟨hl.1, ih hl.2 (fun d hd => hlt d (by simp [hd])) (by omega)⟩

theorem wfFrom_listed (a : Nat) (vs : List Byte) : wfFrom a (listed a vs) = true := by
  induction vs generalizing a with
  | nil => rfl
  | cons v vs ih =>
    simp only [listed]
    split
    · exact wfFrom_mono (by omega) (ih (a + 1))
    · rename_i hv
      simp only [wfFrom, Bool.and_eq_true, decide_eq_true_eq, bne_iff_ne, ne_eq]
      exact ⟨⟨le_rfl, hv⟩, ih (a + 1)⟩

theorem wfFrom_of_le {lo lo' : Nat} {m : List Host.Cell} (hm : wfFrom lo m = true) (h : ∀ c ∈ m, lo' ≤ c.1) :
    wfFrom lo' m = true := by
  cases m with
  | nil => rfl
  | cons c m =>
    simp only [wfFrom, Bool.and_eq_true, decide_eq_true_eq] at hm ⊢
    exact ⟨⟨h c (by simp), hm.1.2⟩, hm.2⟩

/-- Every write keeps the canonical form. -/
theorem wf_splice {m : Memory} (a : Nat) (vs : List Byte) (h : m.wf = true) : (m.splice a vs).wf = true := by
  unfold wf splice at *
  rw [List.append_assoc]
  refine wfFrom_append (hi := a) (wfFrom_filter h) ?_ (fun c hc => by simpa using (List.mem_filter.mp hc).2)
    (Nat.zero_le _)
  refine wfFrom_append (hi := a + vs.length) (wfFrom_listed a vs) ?_ (fun c hc => (listed_range hc).2.1) (by omega)
  exact wfFrom_of_le (wfFrom_filter h) fun c hc => by simpa using (List.mem_filter.mp hc).2

theorem wf_fillPlane {m : Memory} (p : Plane) (bytes : List Byte) (h : m.wf = true) :
    (m.fillPlane p bytes).wf = true := wf_splice _ _ h

/-- An entry after a write is one that was there before, outside the run, or a byte of the run. -/
theorem mem_splice {m : Memory} {a : Nat} {vs : List Byte} {c : Host.Cell} (h : c ∈ m.splice a vs) :
    c ∈ m ∨ (a ≤ c.1 ∧ c.1 < a + vs.length ∧ vs.getD (c.1 - a) 0 = c.2) := by
  simp only [splice, List.append_assoc, List.mem_append, List.mem_filter] at h
  rcases h with h | h | h
  · exact .inl h.1
  · have := listed_range h; exact .inr ⟨this.1, this.2.1, this.2.2.1⟩
  · exact .inl h.1

/-- What a canonical memory lists, it reads. -/
theorem read_of_mem {lo : Nat} {m : Memory} (h : wfFrom lo m = true) {c : Host.Cell} (hc : c ∈ m) :
    m.read c.1 = c.2 := by
  induction m generalizing lo with
  | nil => cases hc
  | cons d m ih =>
    simp only [wfFrom, Bool.and_eq_true, decide_eq_true_eq] at h
    rw [read_cons]
    rcases List.mem_cons.mp hc with rfl | hc
    · rw [if_pos rfl]
    · have := (wfFrom_mem h.2 hc).1
      rw [if_neg (by omega), ih h.2 hc]

theorem wfFrom_ext {lo : Nat} {m m' : Memory} (h : wfFrom lo m = true) (h' : wfFrom lo m' = true)
    (he : ∀ x, m.read x = m'.read x) : m = m' := by
  induction m generalizing lo m' with
  | nil =>
    cases m' with
    | nil => rfl
    | cons d m' =>
      have := he d.1
      rw [read_of_mem h' (c := d) (by simp), read_nil] at this
      exact absurd this.symm (wfFrom_mem h' (c := d) (by simp)).2
  | cons c m ih =>
    cases m' with
    | nil =>
      have := he c.1
      rw [read_of_mem h (c := c) (by simp), read_nil] at this
      exact absurd this (wfFrom_mem h (c := c) (by simp)).2
    | cons d m' =>
      have hc := he c.1
      have hd := he d.1
      rw [read_of_mem h (c := c) (by simp)] at hc
      rw [read_of_mem h' (c := d) (by simp)] at hd
      simp only [wfFrom, Bool.and_eq_true, decide_eq_true_eq, bne_iff_ne, ne_eq] at h h'
      have low : ∀ (e : Host.Cell) (l : Memory) (x : Nat), wfFrom (e.1 + 1) l = true → x < e.1 →
          Memory.read (e :: l) x = 0 := fun e l x hl hx =>
        read_eq_zero fun f hf => by
          rcases List.mem_cons.mp hf with rfl | hf
          · omega
          · have := (wfFrom_mem hl hf).1; omega
      have e1 : c.1 = d.1 := by
        rcases Nat.lt_trichotomy c.1 d.1 with hlt | heq | hgt
        · exact absurd (by rw [hc]; exact low d m' _ h'.2 hlt) h.1.2
        · exact heq
        · exact absurd (by rw [← hd]; exact low c m _ h.2 hgt) h'.1.2
      have e2 : c.2 = d.2 := by
        rw [hc, e1, read_cons, if_pos rfl]
      obtain rfl : c = d := Prod.ext e1 e2
      rw [ih h.2 h'.2 fun x => ?_]
      by_cases hx : x = c.1
      · subst hx
        rw [read_eq_zero fun e he' => by have := (wfFrom_mem h.2 he').1; omega,
          read_eq_zero fun e he' => by have := (wfFrom_mem h'.2 he').1; omega]
      · have := he x
        rwa [read_cons, read_cons, if_neg hx, if_neg hx] at this

/-- Equal readings are equal data. -/
theorem ext_of_wf {m m' : Memory} (h : m.wf = true) (h' : m'.wf = true) (he : ∀ x, m.read x = m'.read x) : m = m' :=
  wfFrom_ext h h' he

end Memory

@[simp] theorem length_fitTo {α : Type} (n : Nat) (x : α) (l : List α) : (fitTo n x l).length = n := by
  simp [fitTo]

theorem getD_fitTo {α : Type} {n i : Nat} (x : α) (l : List α) (h : i < n) : (fitTo n x l).getD i x = l.getD i x := by
  simp only [fitTo, List.getD_eq_getElem?_getD, List.getElem?_take, h, if_true]
  by_cases hl : i < l.length
  · rw [List.getElem?_append_left hl]
  · rw [List.getElem?_append_right (by omega), List.getElem?_eq_none (l := l) (by omega),
      List.getElem?_replicate, if_pos (by omega)]
    rfl

/-- A buffer after it is filled: the bytes given, zeros after them (D32). -/
theorem State.read_fillBuf (s : State) (b : Buf) (bytes : List Byte) (x : Nat) :
    (s.fillBuf b bytes).mem.read x =
      if b.base ≤ x ∧ x < b.base + b.size then bytes.getD (x - b.base) 0 else s.mem.read x := by
  simp only [State.fillBuf, Memory.read_splice, length_fitTo]
  split
  · rw [getD_fitTo _ _ (by omega)]
  · rfl

theorem State.wf_fillBuf {s : State} (b : Buf) (bytes : List Byte) (h : s.mem.wf = true) : (s.fillBuf b bytes).mem.wf = true :=
  Memory.wf_splice _ _ h

theorem State.wf_clearPlanes {s : State} (h : s.mem.wf = true) : s.clearPlanes.mem.wf = true :=
  Memory.wf_fillPlane _ _ (Memory.wf_fillPlane _ _ (Memory.wf_fillPlane _ _ h))

/-- Reset memory is in canonical form. -/
theorem State.wf_reset : State.reset.mem.wf = true := rfl

/-- A plane after it is filled. -/
theorem Memory.read_fillPlane (m : Memory) (p : Plane) (bytes : List Byte) (x : Nat) :
    (m.fillPlane p bytes).read x =
      if p.base ≤ x ∧ x < p.base + planeBytes then bytes.getD (x - p.base) 0 else m.read x := by
  simp only [Memory.fillPlane, Memory.read_splice, length_fitTo]
  split
  · rw [getD_fitTo _ _ (by omega)]
  · rfl

end Sys2Proof.Machine
end

