-- ==== Sys2Proof/Laws/Matrix.lean ====
section
/-! SUPPORT. The laws of the matrix: it is 57 by 57 whatever a command does to it, a changed cell is the only one that
changes, and what is written to a plane is what the plane holds. -/

namespace Sys2Proof.Machine

/-- 57 rows of 57 cells (rule R32). -/
def Matrix.Square (M : Matrix) : Prop := M.length = planeSide ∧ ∀ row ∈ M, row.length = planeSide

namespace Matrix

theorem square_blank : Square blank := by
  refine ⟨by simp [blank], fun row h => ?_⟩
  rw [List.eq_of_mem_replicate h, List.length_replicate]

/-- The row in place `r` of a square matrix. -/
theorem Square.length_getD {M : Matrix} (h : M.Square) {r : Nat} (hr : r < planeSide) :
    (M.getD r []).length = planeSide := by
  rw [List.getD_eq_getElem _ _ (by rw [h.1]; exact hr)]
  exact h.2 _ (List.getElem_mem _)

theorem Square.update {M : Matrix} (h : M.Square) (r c : Nat) (f : Cell → Cell) : (M.update r c f).Square := by
  refine ⟨by simp [Matrix.update, h.1], fun row hrow => ?_⟩
  obtain ⟨i, hi, rfl⟩ := List.getElem_of_mem hrow
  have hi' : i < M.length := by simpa [Matrix.update] using hi
  simp only [Matrix.update, List.getElem_modify]
  split
  · rw [List.length_modify]; exact h.2 _ (List.getElem_mem _)
  · exact h.2 _ (List.getElem_mem _)

/-- The cell that is changed changes as said, and no other does. -/
theorem cell_update {M : Matrix} (h : M.Square) {r c : Nat} (hr : r < planeSide) (hc : c < planeSide)
    (f : Cell → Cell) (r' c' : Nat) :
    (M.update r c f).cell r' c' = if r' = r ∧ c' = c then f (M.cell r' c') else M.cell r' c' := by
  simp only [cell, Matrix.update, List.getD_eq_getElem?_getD, List.getElem?_modify]
  by_cases e : r' = r
  · subst e
    have hlen : r' < M.length := by rw [h.1]; exact hr
    have hrow : M[r'].length = planeSide := h.2 _ (List.getElem_mem _)
    rw [List.getElem?_eq_getElem hlen]
    by_cases e' : c' = c
    · subst e'
      have hlen' : c' < M[r'].length := by rw [hrow]; exact hc
      simp [hlen']
    · have e'' : ¬c = c' := fun h => e' h.symm
      simp [e', e'']
  · rw [if_neg fun h => e h.1]
    cases hx : M[r']? <;> simp [Ne.symm e]

theorem Square.mapInside {M : Matrix} (h : M.Square) (size : Nat) (f : Nat → Nat → Cell → Cell) :
    (M.mapInside size f).Square := by
  refine ⟨by simp [Matrix.mapInside, h.1], fun row hrow => ?_⟩
  simp only [Matrix.mapInside, List.mem_map] at hrow
  obtain ⟨x, hx, rfl⟩ := hrow
  simp only [List.length_map, List.length_zipIdx]
  exact h.2 _ (by have := List.mem_zipIdx hx; rw [this.2.2]; exact List.getElem_mem _)

theorem cell_mapInside {M : Matrix} (h : M.Square) (size : Nat) (f : Nat → Nat → Cell → Cell) {r c : Nat}
    (hr : r < planeSide) (hc : c < planeSide) :
    (M.mapInside size f).cell r c = if r < size ∧ c < size then f r c (M.cell r c) else M.cell r c := by
  have h1 : r < M.length := by rw [h.1]; exact hr
  have h2 : c < M[r].length := by rw [h.2 _ (List.getElem_mem _)]; exact hc
  simp [cell, Matrix.mapInside, List.getD_eq_getElem?_getD, h1, h2]

theorem Square.place1 {M : Matrix} (h : M.Square) (p : Placement) : (M.place1 p).Square := h.update _ _ _

theorem square_skeleton (v : Nat) : (skeleton v).Square := by
  unfold skeleton
  generalize hM : Matrix.blank = M
  have h : M.Square := hM ▸ square_blank
  clear hM
  induction placements v generalizing M with
  | nil => exact h
  | cons p ps ih => exact ih _ (h.place1 p)

theorem Square.writeBits {M : Matrix} (h : M.Square) (order : List (Nat × Nat)) (bits : List Bool) :
    (M.writeBits order bits).Square := by
  unfold Matrix.writeBits
  induction order.zip bits generalizing M with
  | nil => exact h
  | cons p ps ih => exact ih (h.update _ _ _)

theorem Square.applyMask {M : Matrix} (h : M.Square) (size m : Nat) : (M.applyMask size m).Square := h.mapInside _ _

theorem Square.writeFormat {M : Matrix} (h : M.Square) (size : Nat) (w : BitVec 15) : (M.writeFormat size w).Square := by
  unfold Matrix.writeFormat
  induction List.range 15 generalizing M with
  | nil => exact h
  | cons i is ih => exact ih ((h.update _ _ _).update _ _ _)

end Matrix

/-! The bits of a plane row. -/

theorem getD_rowBits (bytes : List Byte) {k i : Nat} (hi : i < 8) :
    (rowBits bytes).getD (8 * k + i) false = (bytes.getD k 0).getLsbD i := by
  induction bytes generalizing k with
  | nil => simp [rowBits]
  | cons b bs ih =>
    have e : rowBits (b :: bs) = ((List.range 8).map fun j => b.getLsbD j) ++ rowBits bs := rfl
    rw [e, List.getD_eq_getElem?_getD]
    cases k with
    | zero => rw [List.getElem?_append_left (by simp; omega)]; simp [hi]
    | succ k =>
      rw [List.getElem?_append_right (by simp; omega)]
      rw [List.getD_cons_succ, ← ih, List.getD_eq_getElem?_getD]
      congr 2
      simp only [List.length_map, List.length_range]; omega

theorem length_rowBits (bytes : List Byte) : (rowBits bytes).length = 8 * bytes.length := by
  induction bytes with
  | nil => rfl
  | cons b bs ih =>
    have e : rowBits (b :: bs) = ((List.range 8).map fun j => b.getLsbD j) ++ rowBits bs := rfl
    rw [e, List.length_append, ih]; simp; omega

@[simp] theorem length_rowBytes (n : Nat) (bits : List Bool) : (rowBytes n bits).length = n := by
  induction n generalizing bits with
  | zero => rfl
  | succ n ih => simp [rowBytes, ih]

theorem bitsNat_append_one (l : List Bool) (b : Bool) : bitsNat (l ++ [b]) = 2 * bitsNat l + b.toNat := by
  simp [bitsNat]

theorem testBit_bitsNat_reverse (l : List Bool) (i : Nat) : (bitsNat l.reverse).testBit i = l.getD i false := by
  induction l generalizing i with
  | nil => simp [bitsNat]
  | cons b l ih =>
    rw [List.reverse_cons, bitsNat_append_one]
    cases i with
    | zero => cases b <;> simp
    | succ i =>
      rw [Nat.testBit_succ, show (2 * bitsNat l.reverse + b.toNat) / 2 = bitsNat l.reverse by
          have := Bool.toNat_lt b; omega,
        ih, List.getD_cons_succ]

/-- A byte of a plane row holds 8 of its bits, the leftmost in bit 0. -/
theorem getLsbD_rowBytes {n : Nat} (bits : List Bool) {k i : Nat} (hk : k < n) (hi : i < 8) :
    ((rowBytes n bits).getD k 0).getLsbD i = bits.getD (8 * k + i) false := by
  induction n generalizing bits k with
  | zero => omega
  | succ n ih =>
    cases k with
    | zero =>
      rw [rowBytes, List.getD_cons_zero, BitVec.getLsbD_ofNat, testBit_bitsNat_reverse, List.getD_eq_getElem?_getD,
        List.getElem?_take, if_pos hi, Nat.mul_zero, Nat.zero_add, List.getD_eq_getElem?_getD]
      simp [hi]
    | succ k =>
      simp only [rowBytes, List.getD_cons_succ]
      rw [ih _ (by omega), List.getD_eq_getElem?_getD, List.getElem?_drop, List.getD_eq_getElem?_getD]
      congr 2; omega

/-! The matrix that the planes hold. -/

theorem Memory.length_planeRow (m : Memory) (p : Plane) {row : List Bool} (h : row ∈ m.planeRows p) :
    row.length = planeSide := by
  simp only [Memory.planeRows, List.mem_map] at h
  obtain ⟨r, -, rfl⟩ := h
  rw [List.length_take, length_rowBits, Memory.length_load]
  decide

@[simp] theorem Memory.length_planeRows (m : Memory) (p : Plane) : (m.planeRows p).length = planeSide := by
  simp [Memory.planeRows]

theorem Memory.square_matrix (m : Memory) : m.matrix.Square := by
  refine ⟨by simp [Memory.matrix], fun row h => ?_⟩
  obtain ⟨i, hi, rfl⟩ := List.getElem_of_mem h
  have hi' : i < planeSide := by simpa [Memory.matrix] using hi
  simp only [Memory.matrix, List.getElem_zipWith, List.length_zipWith, List.length_zip]
  rw [m.length_planeRow .set (List.getElem_mem _), m.length_planeRow .dark (List.getElem_mem _),
    m.length_planeRow .rsv (List.getElem_mem _)]
  decide

theorem Memory.getD_planeRows (m : Memory) (p : Plane) {r c : Nat} (hr : r < planeSide) (hc : c < planeSide) :
    ((m.planeRows p).getD r []).getD c false = m.planeBit p r c := by
  have hs : planeSide = 57 := rfl
  have ht : rowStride = 8 := rfl
  have hp : planeBytes = 456 := rfl
  have hr' : r < (m.planeRows p).length := by simpa using hr
  rw [List.getD_eq_getElem _ _ hr']
  simp only [Memory.planeRows, List.getElem_map, List.getElem_range]
  have hmul : rowStride * r = 8 * r := rfl
  rw [List.getD_eq_getElem?_getD, List.getElem?_take, if_pos hc, ← List.getD_eq_getElem?_getD]
  conv_lhs => rw [show c = 8 * (c / 8) + c % 8 by omega]
  rw [getD_rowBits _ (by omega), Memory.getD_load _ (by omega), Memory.read_window ⟨by omega, by omega⟩]
  rfl

/-- A cell of the matrix is the three bits of the planes (rules R32, R33). -/
theorem Memory.cell_matrix (m : Memory) {r c : Nat} (hr : r < planeSide) (hc : c < planeSide) :
    m.matrix.cell r c =
      { set := m.planeBit .set r c, dark := m.planeBit .dark r c, rsv := m.planeBit .rsv r c } := by
  have row (p : Plane) : ∃ l : List Bool, (m.planeRows p)[r]? = some l ∧ l.length = planeSide ∧
      l.getD c false = m.planeBit p r c := by
    have h1 : r < (m.planeRows p).length := by simpa using hr
    refine ⟨(m.planeRows p)[r], List.getElem?_eq_getElem h1, m.length_planeRow p (List.getElem_mem _), ?_⟩
    rw [← m.getD_planeRows p hr hc, List.getD_eq_getElem (m.planeRows p) _ h1]
  obtain ⟨st, hst, lst, est⟩ := row .set
  obtain ⟨dk, hdk, ldk, edk⟩ := row .dark
  obtain ⟨rv, hrv, lrv, erv⟩ := row .rsv
  have get (l : List Bool) (h : l.length = planeSide) : l[c]? = some (l.getD c false) := by
    rw [List.getD_eq_getElem _ _ (by omega), List.getElem?_eq_getElem]
  simp only [Matrix.cell, Memory.matrix, List.getD_eq_getElem?_getD (l := List.zipWith _ _ _), List.getElem?_zipWith,
    hst, hdk, hrv, Option.getD_some, List.zip, get _ lst, get _ ldk, get _ lrv, est, edk, erv]

@[simp] theorem Matrix.Square.length_planeBytes {M : Matrix} (h : M.Square) (bit : Cell → Bool) :
    (M.planeBytes bit).length = Machine.planeBytes := by
  have : ∀ (l : Matrix), (Matrix.planeBytes l bit).length = rowStride * l.length := fun l => by
    induction l with
    | nil => rfl
    | cons row l ih =>
      have e : Matrix.planeBytes (row :: l) bit = rowBytes rowStride (row.map bit) ++ Matrix.planeBytes l bit := rfl
      rw [e, List.length_append, ih, length_rowBytes, List.length_cons]; ring
  rw [this, h.1]; rfl

theorem Matrix.getD_planeBytes (M : Matrix) (bit : Cell → Bool) (r : Nat) {k : Nat} (hk : k < rowStride) :
    (M.planeBytes bit).getD (rowStride * r + k) 0 =
      if r < M.length then (rowBytes rowStride ((M.getD r []).map bit)).getD k 0 else 0 := by
  have ht : rowStride = 8 := rfl
  induction M generalizing r with
  | nil => simp [Matrix.planeBytes]
  | cons row M ih =>
    have e : Matrix.planeBytes (row :: M) bit = rowBytes rowStride (row.map bit) ++ Matrix.planeBytes M bit := rfl
    rw [e, List.getD_eq_getElem?_getD]
    cases r with
    | zero =>
      rw [List.getElem?_append_left (by simp; omega)]
      simp [List.getD_eq_getElem?_getD]
    | succ r =>
      rw [List.getElem?_append_right (by simp; rw [Nat.mul_succ]; omega)]
      simp only [length_rowBytes, show rowStride * (r + 1) + k - rowStride = rowStride * r + k by
        rw [Nat.mul_succ]; omega, List.length_cons, Nat.add_lt_add_iff_right, List.getD_cons_succ]
      rw [← ih, List.getD_eq_getElem?_getD]

/-- What is written to a plane is what the plane holds. -/
theorem Memory.planeBit_fillPlane (m : Memory) (p : Plane) {M : Matrix} (h : M.Square) (bit : Cell → Bool) {r c : Nat}
    (hr : r < planeSide) (hc : c < planeSide) :
    (m.fillPlane p (M.planeBytes bit)).planeBit p r c = bit (M.cell r c) := by
  have hs : planeSide = 57 := rfl
  have ht : rowStride = 8 := rfl
  have hp : planeBytes = 456 := rfl
  have hmul : rowStride * r = 8 * r := rfl
  simp only [Memory.planeBit, Memory.read_fillPlane]
  rw [if_pos ⟨by omega, by omega⟩, show p.base + rowStride * r + c / 8 - p.base = rowStride * r + c / 8 by omega,
    M.getD_planeBytes bit r (by omega), if_pos (by rw [h.1]; exact hr), getLsbD_rowBytes _ (by omega) (by omega),
    show 8 * (c / 8) + c % 8 = c by omega]
  have hlen : c < (M.getD r []).length := by rw [h.length_getD hr]; exact hc
  rw [List.getD_eq_getElem _ _ (by simpa using hlen), List.getElem_map, Matrix.cell, List.getD_eq_getElem _ _ hlen]

/-- The planes do not overlap: writing one leaves the bits of the others. -/
theorem Memory.planeBit_fillPlane_of_ne (m : Memory) {p q : Plane} (hpq : p ≠ q) (bytes : List Byte) {r c : Nat}
    (hr : r < planeSide) (hc : c < planeSide) : (m.fillPlane p bytes).planeBit q r c = m.planeBit q r c := by
  have hs : planeSide = 57 := rfl
  have ht : rowStride = 8 := rfl
  have hp : planeBytes = 456 := rfl
  have hmul : rowStride * r = 8 * r := rfl
  simp only [Memory.planeBit, Memory.read_fillPlane]
  rw [if_neg]
  cases p <;> cases q <;> simp only [Plane.base] <;> first | exact absurd rfl hpq | omega

theorem State.wf_storeDark {s : State} (M : Matrix) (h : s.mem.wf = true) : (s.storeDark M).mem.wf = true :=
  Memory.wf_fillPlane _ _ h

theorem State.wf_storeSet {s : State} (M : Matrix) (h : s.mem.wf = true) : (s.storeSet M).mem.wf = true :=
  Memory.wf_fillPlane _ _ h

theorem State.wf_storeRsv {s : State} (M : Matrix) (h : s.mem.wf = true) : (s.storeRsv M).mem.wf = true :=
  Memory.wf_fillPlane _ _ h

end Sys2Proof.Machine
end

