-- ==== Sys2Proof/Laws/State.lean ====
section
/-! SUPPORT. What each named update of State does to each of its fields, so that no later proof unfolds a record update. -/

namespace Sys2Proof.Machine

variable (s : State)

@[simp] theorem State.accept_cmd (w : Word) : (s.accept w).cmd = w := rfl
@[simp] theorem State.accept_status (w : Word) : (s.accept w).status = s.status.accepted := rfl
@[simp] theorem State.accept_irqen (w : Word) : (s.accept w).irqen = s.irqen := rfl
@[simp] theorem State.accept_arg (w : Word) : (s.accept w).arg = s.arg := rfl
@[simp] theorem State.accept_result (w : Word) : (s.accept w).result = s.result := rfl
@[simp] theorem State.accept_len (w : Word) : (s.accept w).len = s.len := rfl
@[simp] theorem State.accept_version (w : Word) : (s.accept w).version = s.version := rfl
@[simp] theorem State.accept_mask (w : Word) : (s.accept w).mask = s.mask := rfl
@[simp] theorem State.accept_fmt (w : Word) : (s.accept w).fmt = s.fmt := rfl
@[simp] theorem State.accept_verinfo (w : Word) : (s.accept w).verinfo = s.verinfo := rfl
@[simp] theorem State.accept_cellcnt (w : Word) : (s.accept w).cellcnt = s.cellcnt := rfl
@[simp] theorem State.accept_bitlen (w : Word) : (s.accept w).bitlen = s.bitlen := rfl
@[simp] theorem State.accept_penalty (w : Word) : (s.accept w).penalty = s.penalty := rfl
@[simp] theorem State.accept_pen (w : Word) : (s.accept w).pen = s.pen := rfl
@[simp] theorem State.accept_mem (w : Word) : (s.accept w).mem = s.mem := rfl
@[simp] theorem State.accept_events (w : Word) : (s.accept w).events = s.events := rfl
@[simp] theorem State.accept_draws (w : Word) : (s.accept w).draws = s.draws := rfl
@[simp] theorem State.accept_busRead (w : Word) : (s.accept w).busRead = s.busRead := rfl

@[simp] theorem State.complete_cmd (e : Option ErrCode) : (s.complete e).cmd = s.cmd := rfl
@[simp] theorem State.complete_status (e : Option ErrCode) : (s.complete e).status = s.status.completed e := rfl
@[simp] theorem State.complete_irqen (e : Option ErrCode) : (s.complete e).irqen = s.irqen := rfl
@[simp] theorem State.complete_arg (e : Option ErrCode) : (s.complete e).arg = s.arg := rfl
@[simp] theorem State.complete_result (e : Option ErrCode) : (s.complete e).result = s.result := rfl
@[simp] theorem State.complete_len (e : Option ErrCode) : (s.complete e).len = s.len := rfl
@[simp] theorem State.complete_version (e : Option ErrCode) : (s.complete e).version = s.version := rfl
@[simp] theorem State.complete_mask (e : Option ErrCode) : (s.complete e).mask = s.mask := rfl
@[simp] theorem State.complete_fmt (e : Option ErrCode) : (s.complete e).fmt = s.fmt := rfl
@[simp] theorem State.complete_verinfo (e : Option ErrCode) : (s.complete e).verinfo = s.verinfo := rfl
@[simp] theorem State.complete_cellcnt (e : Option ErrCode) : (s.complete e).cellcnt = s.cellcnt := rfl
@[simp] theorem State.complete_bitlen (e : Option ErrCode) : (s.complete e).bitlen = s.bitlen := rfl
@[simp] theorem State.complete_penalty (e : Option ErrCode) : (s.complete e).penalty = s.penalty := rfl
@[simp] theorem State.complete_pen (e : Option ErrCode) : (s.complete e).pen = s.pen := rfl
@[simp] theorem State.complete_mem (e : Option ErrCode) : (s.complete e).mem = s.mem := rfl
@[simp] theorem State.complete_events (e : Option ErrCode) : (s.complete e).events = s.events := rfl
@[simp] theorem State.complete_draws (e : Option ErrCode) : (s.complete e).draws = s.draws := rfl
@[simp] theorem State.complete_busRead (e : Option ErrCode) : (s.complete e).busRead = s.busRead := rfl

@[simp] theorem State.refuseWrite_cmd : (s.refuseWrite).cmd = s.cmd := rfl
@[simp] theorem State.refuseWrite_status : (s.refuseWrite).status = s.status.refused := rfl
@[simp] theorem State.refuseWrite_irqen : (s.refuseWrite).irqen = s.irqen := rfl
@[simp] theorem State.refuseWrite_arg : (s.refuseWrite).arg = s.arg := rfl
@[simp] theorem State.refuseWrite_result : (s.refuseWrite).result = s.result := rfl
@[simp] theorem State.refuseWrite_len : (s.refuseWrite).len = s.len := rfl
@[simp] theorem State.refuseWrite_version : (s.refuseWrite).version = s.version := rfl
@[simp] theorem State.refuseWrite_mask : (s.refuseWrite).mask = s.mask := rfl
@[simp] theorem State.refuseWrite_fmt : (s.refuseWrite).fmt = s.fmt := rfl
@[simp] theorem State.refuseWrite_verinfo : (s.refuseWrite).verinfo = s.verinfo := rfl
@[simp] theorem State.refuseWrite_cellcnt : (s.refuseWrite).cellcnt = s.cellcnt := rfl
@[simp] theorem State.refuseWrite_bitlen : (s.refuseWrite).bitlen = s.bitlen := rfl
@[simp] theorem State.refuseWrite_penalty : (s.refuseWrite).penalty = s.penalty := rfl
@[simp] theorem State.refuseWrite_pen : (s.refuseWrite).pen = s.pen := rfl
@[simp] theorem State.refuseWrite_mem : (s.refuseWrite).mem = s.mem := rfl
@[simp] theorem State.refuseWrite_events : (s.refuseWrite).events = s.events := rfl
@[simp] theorem State.refuseWrite_draws : (s.refuseWrite).draws = s.draws := rfl
@[simp] theorem State.refuseWrite_busRead : (s.refuseWrite).busRead = s.busRead := rfl

@[simp] theorem State.fillBuf_cmd (b : Buf) (bytes : List Byte) : (s.fillBuf b bytes).cmd = s.cmd := rfl
@[simp] theorem State.fillBuf_status (b : Buf) (bytes : List Byte) : (s.fillBuf b bytes).status = s.status := rfl
@[simp] theorem State.fillBuf_irqen (b : Buf) (bytes : List Byte) : (s.fillBuf b bytes).irqen = s.irqen := rfl
@[simp] theorem State.fillBuf_arg (b : Buf) (bytes : List Byte) : (s.fillBuf b bytes).arg = s.arg := rfl
@[simp] theorem State.fillBuf_result (b : Buf) (bytes : List Byte) : (s.fillBuf b bytes).result = s.result := rfl
@[simp] theorem State.fillBuf_len (b : Buf) (bytes : List Byte) : (s.fillBuf b bytes).len = s.len := rfl
@[simp] theorem State.fillBuf_version (b : Buf) (bytes : List Byte) : (s.fillBuf b bytes).version = s.version := rfl
@[simp] theorem State.fillBuf_mask (b : Buf) (bytes : List Byte) : (s.fillBuf b bytes).mask = s.mask := rfl
@[simp] theorem State.fillBuf_fmt (b : Buf) (bytes : List Byte) : (s.fillBuf b bytes).fmt = s.fmt := rfl
@[simp] theorem State.fillBuf_verinfo (b : Buf) (bytes : List Byte) : (s.fillBuf b bytes).verinfo = s.verinfo := rfl
@[simp] theorem State.fillBuf_cellcnt (b : Buf) (bytes : List Byte) : (s.fillBuf b bytes).cellcnt = s.cellcnt := rfl
@[simp] theorem State.fillBuf_bitlen (b : Buf) (bytes : List Byte) : (s.fillBuf b bytes).bitlen = s.bitlen := rfl
@[simp] theorem State.fillBuf_penalty (b : Buf) (bytes : List Byte) : (s.fillBuf b bytes).penalty = s.penalty := rfl
@[simp] theorem State.fillBuf_pen (b : Buf) (bytes : List Byte) : (s.fillBuf b bytes).pen = s.pen := rfl
@[simp] theorem State.fillBuf_mem (b : Buf) (bytes : List Byte) : (s.fillBuf b bytes).mem = s.mem.splice b.base (fitTo b.size 0 bytes) := rfl
@[simp] theorem State.fillBuf_events (b : Buf) (bytes : List Byte) : (s.fillBuf b bytes).events = s.events := rfl
@[simp] theorem State.fillBuf_draws (b : Buf) (bytes : List Byte) : (s.fillBuf b bytes).draws = s.draws := rfl
@[simp] theorem State.fillBuf_busRead (b : Buf) (bytes : List Byte) : (s.fillBuf b bytes).busRead = s.busRead := rfl

@[simp] theorem State.clearPlanes_cmd : (s.clearPlanes).cmd = s.cmd := rfl
@[simp] theorem State.clearPlanes_status : (s.clearPlanes).status = s.status := rfl
@[simp] theorem State.clearPlanes_irqen : (s.clearPlanes).irqen = s.irqen := rfl
@[simp] theorem State.clearPlanes_arg : (s.clearPlanes).arg = s.arg := rfl
@[simp] theorem State.clearPlanes_result : (s.clearPlanes).result = s.result := rfl
@[simp] theorem State.clearPlanes_len : (s.clearPlanes).len = s.len := rfl
@[simp] theorem State.clearPlanes_version : (s.clearPlanes).version = s.version := rfl
@[simp] theorem State.clearPlanes_mask : (s.clearPlanes).mask = s.mask := rfl
@[simp] theorem State.clearPlanes_fmt : (s.clearPlanes).fmt = s.fmt := rfl
@[simp] theorem State.clearPlanes_verinfo : (s.clearPlanes).verinfo = s.verinfo := rfl
@[simp] theorem State.clearPlanes_cellcnt : (s.clearPlanes).cellcnt = s.cellcnt := rfl
@[simp] theorem State.clearPlanes_bitlen : (s.clearPlanes).bitlen = s.bitlen := rfl
@[simp] theorem State.clearPlanes_penalty : (s.clearPlanes).penalty = s.penalty := rfl
@[simp] theorem State.clearPlanes_pen : (s.clearPlanes).pen = s.pen := rfl
@[simp] theorem State.clearPlanes_mem : (s.clearPlanes).mem = ((s.mem.fillPlane .dark []).fillPlane .set []).fillPlane .rsv [] := rfl
@[simp] theorem State.clearPlanes_events : (s.clearPlanes).events = s.events := rfl
@[simp] theorem State.clearPlanes_draws : (s.clearPlanes).draws = s.draws := rfl
@[simp] theorem State.clearPlanes_busRead : (s.clearPlanes).busRead = s.busRead := rfl

@[simp] theorem State.storeDark_cmd (M : Matrix) : (s.storeDark M).cmd = s.cmd := rfl
@[simp] theorem State.storeDark_status (M : Matrix) : (s.storeDark M).status = s.status := rfl
@[simp] theorem State.storeDark_irqen (M : Matrix) : (s.storeDark M).irqen = s.irqen := rfl
@[simp] theorem State.storeDark_arg (M : Matrix) : (s.storeDark M).arg = s.arg := rfl
@[simp] theorem State.storeDark_result (M : Matrix) : (s.storeDark M).result = s.result := rfl
@[simp] theorem State.storeDark_len (M : Matrix) : (s.storeDark M).len = s.len := rfl
@[simp] theorem State.storeDark_version (M : Matrix) : (s.storeDark M).version = s.version := rfl
@[simp] theorem State.storeDark_mask (M : Matrix) : (s.storeDark M).mask = s.mask := rfl
@[simp] theorem State.storeDark_fmt (M : Matrix) : (s.storeDark M).fmt = s.fmt := rfl
@[simp] theorem State.storeDark_verinfo (M : Matrix) : (s.storeDark M).verinfo = s.verinfo := rfl
@[simp] theorem State.storeDark_cellcnt (M : Matrix) : (s.storeDark M).cellcnt = s.cellcnt := rfl
@[simp] theorem State.storeDark_bitlen (M : Matrix) : (s.storeDark M).bitlen = s.bitlen := rfl
@[simp] theorem State.storeDark_penalty (M : Matrix) : (s.storeDark M).penalty = s.penalty := rfl
@[simp] theorem State.storeDark_pen (M : Matrix) : (s.storeDark M).pen = s.pen := rfl
@[simp] theorem State.storeDark_mem (M : Matrix) : (s.storeDark M).mem = s.mem.fillPlane .dark (M.planeBytes Cell.dark) := rfl
@[simp] theorem State.storeDark_events (M : Matrix) : (s.storeDark M).events = s.events := rfl
@[simp] theorem State.storeDark_draws (M : Matrix) : (s.storeDark M).draws = s.draws := rfl
@[simp] theorem State.storeDark_busRead (M : Matrix) : (s.storeDark M).busRead = s.busRead := rfl

@[simp] theorem State.storeSet_cmd (M : Matrix) : (s.storeSet M).cmd = s.cmd := rfl
@[simp] theorem State.storeSet_status (M : Matrix) : (s.storeSet M).status = s.status := rfl
@[simp] theorem State.storeSet_irqen (M : Matrix) : (s.storeSet M).irqen = s.irqen := rfl
@[simp] theorem State.storeSet_arg (M : Matrix) : (s.storeSet M).arg = s.arg := rfl
@[simp] theorem State.storeSet_result (M : Matrix) : (s.storeSet M).result = s.result := rfl
@[simp] theorem State.storeSet_len (M : Matrix) : (s.storeSet M).len = s.len := rfl
@[simp] theorem State.storeSet_version (M : Matrix) : (s.storeSet M).version = s.version := rfl
@[simp] theorem State.storeSet_mask (M : Matrix) : (s.storeSet M).mask = s.mask := rfl
@[simp] theorem State.storeSet_fmt (M : Matrix) : (s.storeSet M).fmt = s.fmt := rfl
@[simp] theorem State.storeSet_verinfo (M : Matrix) : (s.storeSet M).verinfo = s.verinfo := rfl
@[simp] theorem State.storeSet_cellcnt (M : Matrix) : (s.storeSet M).cellcnt = s.cellcnt := rfl
@[simp] theorem State.storeSet_bitlen (M : Matrix) : (s.storeSet M).bitlen = s.bitlen := rfl
@[simp] theorem State.storeSet_penalty (M : Matrix) : (s.storeSet M).penalty = s.penalty := rfl
@[simp] theorem State.storeSet_pen (M : Matrix) : (s.storeSet M).pen = s.pen := rfl
@[simp] theorem State.storeSet_mem (M : Matrix) : (s.storeSet M).mem = s.mem.fillPlane .set (M.planeBytes Cell.set) := rfl
@[simp] theorem State.storeSet_events (M : Matrix) : (s.storeSet M).events = s.events := rfl
@[simp] theorem State.storeSet_draws (M : Matrix) : (s.storeSet M).draws = s.draws := rfl
@[simp] theorem State.storeSet_busRead (M : Matrix) : (s.storeSet M).busRead = s.busRead := rfl

@[simp] theorem State.storeRsv_cmd (M : Matrix) : (s.storeRsv M).cmd = s.cmd := rfl
@[simp] theorem State.storeRsv_status (M : Matrix) : (s.storeRsv M).status = s.status := rfl
@[simp] theorem State.storeRsv_irqen (M : Matrix) : (s.storeRsv M).irqen = s.irqen := rfl
@[simp] theorem State.storeRsv_arg (M : Matrix) : (s.storeRsv M).arg = s.arg := rfl
@[simp] theorem State.storeRsv_result (M : Matrix) : (s.storeRsv M).result = s.result := rfl
@[simp] theorem State.storeRsv_len (M : Matrix) : (s.storeRsv M).len = s.len := rfl
@[simp] theorem State.storeRsv_version (M : Matrix) : (s.storeRsv M).version = s.version := rfl
@[simp] theorem State.storeRsv_mask (M : Matrix) : (s.storeRsv M).mask = s.mask := rfl
@[simp] theorem State.storeRsv_fmt (M : Matrix) : (s.storeRsv M).fmt = s.fmt := rfl
@[simp] theorem State.storeRsv_verinfo (M : Matrix) : (s.storeRsv M).verinfo = s.verinfo := rfl
@[simp] theorem State.storeRsv_cellcnt (M : Matrix) : (s.storeRsv M).cellcnt = s.cellcnt := rfl
@[simp] theorem State.storeRsv_bitlen (M : Matrix) : (s.storeRsv M).bitlen = s.bitlen := rfl
@[simp] theorem State.storeRsv_penalty (M : Matrix) : (s.storeRsv M).penalty = s.penalty := rfl
@[simp] theorem State.storeRsv_pen (M : Matrix) : (s.storeRsv M).pen = s.pen := rfl
@[simp] theorem State.storeRsv_mem (M : Matrix) : (s.storeRsv M).mem = s.mem.fillPlane .rsv (M.planeBytes Cell.rsv) := rfl
@[simp] theorem State.storeRsv_events (M : Matrix) : (s.storeRsv M).events = s.events := rfl
@[simp] theorem State.storeRsv_draws (M : Matrix) : (s.storeRsv M).draws = s.draws := rfl
@[simp] theorem State.storeRsv_busRead (M : Matrix) : (s.storeRsv M).busRead = s.busRead := rfl

@[simp] theorem State.writeRam_cmd (w : Nat) (v : Word) : (s.writeRam w v).cmd = s.cmd := rfl
@[simp] theorem State.writeRam_status (w : Nat) (v : Word) : (s.writeRam w v).status = s.status := rfl
@[simp] theorem State.writeRam_irqen (w : Nat) (v : Word) : (s.writeRam w v).irqen = s.irqen := rfl
@[simp] theorem State.writeRam_arg (w : Nat) (v : Word) : (s.writeRam w v).arg = s.arg := rfl
@[simp] theorem State.writeRam_result (w : Nat) (v : Word) : (s.writeRam w v).result = s.result := rfl
@[simp] theorem State.writeRam_len (w : Nat) (v : Word) : (s.writeRam w v).len = s.len := rfl
@[simp] theorem State.writeRam_version (w : Nat) (v : Word) : (s.writeRam w v).version = s.version := rfl
@[simp] theorem State.writeRam_mask (w : Nat) (v : Word) : (s.writeRam w v).mask = s.mask := rfl
@[simp] theorem State.writeRam_fmt (w : Nat) (v : Word) : (s.writeRam w v).fmt = s.fmt := rfl
@[simp] theorem State.writeRam_verinfo (w : Nat) (v : Word) : (s.writeRam w v).verinfo = s.verinfo := rfl
@[simp] theorem State.writeRam_cellcnt (w : Nat) (v : Word) : (s.writeRam w v).cellcnt = s.cellcnt := rfl
@[simp] theorem State.writeRam_bitlen (w : Nat) (v : Word) : (s.writeRam w v).bitlen = s.bitlen := rfl
@[simp] theorem State.writeRam_penalty (w : Nat) (v : Word) : (s.writeRam w v).penalty = s.penalty := rfl
@[simp] theorem State.writeRam_pen (w : Nat) (v : Word) : (s.writeRam w v).pen = s.pen := rfl
@[simp] theorem State.writeRam_mem (w : Nat) (v : Word) : (s.writeRam w v).mem = s.mem.splice w ((wordBytes v).zipIdx.map fun b => b.1 &&& byteMask (w + b.2)) := rfl
@[simp] theorem State.writeRam_events (w : Nat) (v : Word) : (s.writeRam w v).events = s.events := rfl
@[simp] theorem State.writeRam_draws (w : Nat) (v : Word) : (s.writeRam w v).draws = s.draws := rfl
@[simp] theorem State.writeRam_busRead (w : Nat) (v : Word) : (s.writeRam w v).busRead = s.busRead := rfl

@[simp] theorem State.hardReset_cmd : (s.hardReset).cmd = State.reset.cmd := rfl
@[simp] theorem State.hardReset_status : (s.hardReset).status = State.reset.status := rfl
@[simp] theorem State.hardReset_irqen : (s.hardReset).irqen = State.reset.irqen := rfl
@[simp] theorem State.hardReset_arg : (s.hardReset).arg = State.reset.arg := rfl
@[simp] theorem State.hardReset_result : (s.hardReset).result = State.reset.result := rfl
@[simp] theorem State.hardReset_len : (s.hardReset).len = State.reset.len := rfl
@[simp] theorem State.hardReset_version : (s.hardReset).version = State.reset.version := rfl
@[simp] theorem State.hardReset_mask : (s.hardReset).mask = State.reset.mask := rfl
@[simp] theorem State.hardReset_fmt : (s.hardReset).fmt = State.reset.fmt := rfl
@[simp] theorem State.hardReset_verinfo : (s.hardReset).verinfo = State.reset.verinfo := rfl
@[simp] theorem State.hardReset_cellcnt : (s.hardReset).cellcnt = State.reset.cellcnt := rfl
@[simp] theorem State.hardReset_bitlen : (s.hardReset).bitlen = State.reset.bitlen := rfl
@[simp] theorem State.hardReset_penalty : (s.hardReset).penalty = State.reset.penalty := rfl
@[simp] theorem State.hardReset_pen : (s.hardReset).pen = State.reset.pen := rfl
@[simp] theorem State.hardReset_mem : (s.hardReset).mem = State.reset.mem := rfl
@[simp] theorem State.hardReset_events : (s.hardReset).events = s.events := rfl
@[simp] theorem State.hardReset_draws : (s.hardReset).draws = s.draws := rfl
@[simp] theorem State.hardReset_busRead : (s.hardReset).busRead = s.busRead := rfl

@[simp] theorem State.dataPathReset_cmd : (s.dataPathReset).cmd = s.cmd := rfl
@[simp] theorem State.dataPathReset_status : (s.dataPathReset).status = s.status := rfl
@[simp] theorem State.dataPathReset_irqen : (s.dataPathReset).irqen = s.irqen := rfl
@[simp] theorem State.dataPathReset_arg : (s.dataPathReset).arg = State.reset.arg := rfl
@[simp] theorem State.dataPathReset_result : (s.dataPathReset).result = State.reset.result := rfl
@[simp] theorem State.dataPathReset_len : (s.dataPathReset).len = State.reset.len := rfl
@[simp] theorem State.dataPathReset_version : (s.dataPathReset).version = State.reset.version := rfl
@[simp] theorem State.dataPathReset_mask : (s.dataPathReset).mask = State.reset.mask := rfl
@[simp] theorem State.dataPathReset_fmt : (s.dataPathReset).fmt = State.reset.fmt := rfl
@[simp] theorem State.dataPathReset_verinfo : (s.dataPathReset).verinfo = State.reset.verinfo := rfl
@[simp] theorem State.dataPathReset_cellcnt : (s.dataPathReset).cellcnt = State.reset.cellcnt := rfl
@[simp] theorem State.dataPathReset_bitlen : (s.dataPathReset).bitlen = State.reset.bitlen := rfl
@[simp] theorem State.dataPathReset_penalty : (s.dataPathReset).penalty = State.reset.penalty := rfl
@[simp] theorem State.dataPathReset_pen : (s.dataPathReset).pen = State.reset.pen := rfl
@[simp] theorem State.dataPathReset_mem : (s.dataPathReset).mem = State.reset.mem := rfl
@[simp] theorem State.dataPathReset_events : (s.dataPathReset).events = s.events := rfl
@[simp] theorem State.dataPathReset_draws : (s.dataPathReset).draws = s.draws := rfl
@[simp] theorem State.dataPathReset_busRead : (s.dataPathReset).busRead = s.busRead := rfl

/-! `STATUS`. -/

@[simp] theorem Status.accepted_busy (t : Status) : t.accepted.busy = true := rfl
@[simp] theorem Status.accepted_done (t : Status) : t.accepted.done = false := rfl
@[simp] theorem Status.accepted_err (t : Status) : t.accepted.err = false := rfl
@[simp] theorem Status.accepted_errCode (t : Status) : t.accepted.errCode = 0 := rfl
@[simp] theorem Status.accepted_overrun (t : Status) : t.accepted.overrun = t.overrun := rfl
@[simp] theorem Status.completed_busy (e : Option ErrCode) (t : Status) : (t.completed e).busy = false := by
  cases e <;> rfl
@[simp] theorem Status.completed_done (e : Option ErrCode) (t : Status) : (t.completed e).done = true := by
  cases e <;> rfl
@[simp] theorem Status.completed_overrun (e : Option ErrCode) (t : Status) : (t.completed e).overrun = t.overrun := by
  cases e <;> rfl
@[simp] theorem Status.completed_none_err (t : Status) : (t.completed none).err = t.err := rfl
@[simp] theorem Status.completed_none_errCode (t : Status) : (t.completed none).errCode = t.errCode := rfl
@[simp] theorem Status.completed_some_err (e : ErrCode) (t : Status) : (t.completed (some e)).err = true := rfl
@[simp] theorem Status.completed_some_errCode (e : ErrCode) (t : Status) : (t.completed (some e)).errCode = e.bits := rfl
@[simp] theorem Status.refused_busy (t : Status) : t.refused.busy = t.busy := rfl
@[simp] theorem Status.refused_done (t : Status) : t.refused.done = t.done := rfl
@[simp] theorem Status.refused_err (t : Status) : t.refused.err = t.err := rfl
@[simp] theorem Status.refused_errCode (t : Status) : t.refused.errCode = t.errCode := rfl
@[simp] theorem Status.refused_overrun (t : Status) : t.refused.overrun = true := rfl
@[simp] theorem Status.cleared_busy (v : Word) (t : Status) : (t.cleared v).busy = t.busy := rfl

/-- The codes 8 to 15 are never produced, and 0 is the code of no error (rule R252). -/
theorem ErrCode.bits_range (e : ErrCode) : e.bits ≠ 0 ∧ e.bits.toNat ≤ 7 := by cases e <;> decide

end Sys2Proof.Machine
end

