-- ==== Sys2Proof/Laws/Ops.lean ====
section
/-! SUPPORT. For each shared operation and each command's body, once, everything it can do: the cases later proofs cite in
place of unfolding it. -/

namespace Sys2Proof.Machine

@[simp] theorem finish_eq (r : Result) : finish r = .next (r.1.complete r.2) := rfl

/-! The parts a command's body is made of. -/

@[simp] theorem Result.andThen_ok (s : State) (f : State → Result) : Result.andThen (s, none) f = f s := rfl

@[simp] theorem Result.andThen_error (s : State) (e : ErrCode) (f : State → Result) :
    Result.andThen (s, some e) f = (s, some e) := rfl

theorem legalVersion_iff (v : Nat) : legalVersion v = true ↔ 1 ≤ v ∧ v ≤ 10 := by simp [legalVersion]

theorem State.withVersion_legal {s : State} {body : State → Result} (h : 1 ≤ s.ver ∧ s.ver ≤ 10) :
    s.withVersion body = body s := if_pos ((legalVersion_iff _).mpr h)

theorem State.withVersion_illegal {s : State} {body : State → Result} (h : ¬(1 ≤ s.ver ∧ s.ver ≤ 10)) :
    s.withVersion body = (s, some .badVersion) := if_neg (mt (legalVersion_iff _).mp h)

theorem State.withVersion_cases (s : State) (body : State → Result) :
    ((1 ≤ s.ver ∧ s.ver ≤ 10) ∧ s.withVersion body = body s) ∨
      (¬(1 ≤ s.ver ∧ s.ver ≤ 10) ∧ s.withVersion body = (s, some .badVersion)) := by
  by_cases h : 1 ≤ s.ver ∧ s.ver ≤ 10
  · exact .inl ⟨h, s.withVersion_legal h⟩
  · exact .inr ⟨h, s.withVersion_illegal h⟩

theorem State.withSetCells_cases (s : State) (body : State → Matrix → Result) :
    ((1 ≤ s.ver ∧ s.ver ≤ 10) ∧ unsetInside s.mem.matrix s.side = false ∧ s.withSetCells body = body s s.mem.matrix) ∨
      ((1 ≤ s.ver ∧ s.ver ≤ 10) ∧ unsetInside s.mem.matrix s.side = true ∧ s.withSetCells body = (s, some .unsetRead)) ∨
      (¬(1 ≤ s.ver ∧ s.ver ≤ 10) ∧ s.withSetCells body = (s, some .badVersion)) := by
  unfold State.withSetCells
  by_cases h : 1 ≤ s.ver ∧ s.ver ≤ 10
  · rw [s.withVersion_legal h]
    cases hu : unsetInside s.mem.matrix s.side
    · exact .inl ⟨h, rfl, if_neg (by rw [hu]; decide)⟩
    · exact .inr (.inl ⟨h, rfl, if_pos hu⟩)
  · exact .inr (.inr ⟨h, s.withVersion_illegal h⟩)

/-! What the body of each command can give. -/

theorem gfLogBody_cases (s : State) :
    (gfLog s.argA = none ∧ gfLogBody s = (s, some .badArgument)) ∨
      ∃ i, gfLog s.argA = some i ∧ gfLogBody s = ({ s with result := BitVec.ofNat 32 i }, none) := by
  unfold gfLogBody
  cases h : gfLog s.argA with
  | none => exact .inl ⟨rfl, rfl⟩
  | some i => exact .inr ⟨i, rfl, rfl⟩

theorem padBody_cases (s : State) :
    (selectVersion s.inputLength = none ∧ padBody s = (s, some .tooLong)) ∨
      ∃ v, selectVersion s.inputLength = some v ∧
        padBody s =
          ({ s.fillBuf .dataCw (bitsBytes (dataCwOf v) (paddedBits v s.inputBytes)) with
              version := BitVec.ofNat 4 v
              bitlen := BitVec.ofNat 12 (terminatedBits v s.inputBytes).length }, none) := by
  unfold padBody
  cases h : selectVersion s.inputLength with
  | none => exact .inl ⟨rfl, rfl⟩
  | some v => exact .inr ⟨v, rfl, rfl⟩

theorem rsEncodeBody_cases (n : Nat) (s : State) :
    (genPoly n = none ∧ rsEncodeBody n s = (s, some .unsupportedConfig)) ∨
      ((genPoly n).isSome ∧ 256 < s.argIndex ∧ rsEncodeBody n s = (s, some .badArgument)) ∨
      ((genPoly n).isSome ∧ s.argIndex ≤ 256 ∧
        rsEncodeBody n s = (s.fillBuf .rsOut (eccOf (s.bufTake .rsIn s.argIndex) n), none)) := by
  unfold rsEncodeBody
  cases h : genPoly n with
  | none => exact .inl ⟨rfl, rfl⟩
  | some g =>
    by_cases hk : s.argIndex > Buf.rsIn.size
    · exact .inr (.inl ⟨rfl, hk, if_pos hk⟩)
    · exact .inr (.inr ⟨rfl, Nat.le_of_not_lt hk, if_neg hk⟩)

theorem placeBody_cases (s : State) :
    (¬(1 ≤ s.ver ∧ s.ver ≤ 10) ∧ placeBody s = (s, some .badVersion)) ∨
      ((1 ≤ s.ver ∧ s.ver ≤ 10) ∧
        (placementOrder s.mem.matrix s.side).length ≠ 8 * totalCw s.ver + remCells s.ver ∧
        placeBody s =
          ({ s with cellcnt := BitVec.ofNat 12 (placementOrder s.mem.matrix s.side).length },
            some .internalSizeMismatch)) ∨
      ((1 ≤ s.ver ∧ s.ver ≤ 10) ∧
        (placementOrder s.mem.matrix s.side).length = 8 * totalCw s.ver + remCells s.ver ∧
        placeBody s =
          (let M := s.mem.matrix.writeBits (placementOrder s.mem.matrix s.side)
              (placedBits s.ver (s.bufTake .cw (totalCw s.ver)))
           ((({ s with cellcnt := BitVec.ofNat 12 (placementOrder s.mem.matrix s.side).length } : State).storeDark
              M).storeSet M, none))) := by
  unfold placeBody
  by_cases h : 1 ≤ s.ver ∧ s.ver ≤ 10
  · rw [s.withVersion_legal h]
    by_cases hc : (placementOrder s.mem.matrix s.side).length ≠ 8 * totalCw s.ver + remCells s.ver
    · exact .inr (.inl ⟨h, hc, if_pos hc⟩)
    · exact .inr (.inr ⟨h, not_not.mp hc, if_neg hc⟩)
  · exact .inl ⟨h, s.withVersion_illegal h⟩

/-- The body of each command: what `exec` does but for the completion. -/
def bodyOf : Instr → State → Result
  | .nop => fun s => (s, none)
  | .softReset => fun s => (s.dataPathReset, none)
  | .encode fm mid => fun s => failClosed (encodeSteps fm mid s)
  | .gfMul => gfMulBody
  | .gfExp => gfExpBody
  | .gfLog => gfLogBody
  | .pad => padBody
  | .ecc => eccBody
  | .rsEncode n => rsEncodeBody n
  | .buildSkeleton => buildSkeletonBody
  | .place => placeBody
  | .maskSelect => maskSelectBody
  | .maskApply mid => maskApplyBody mid
  | .formatWrite => formatWriteBody

/-- Every command is its body and its completion. -/
theorem exec_eq_finish (i : Instr) (s : State) : exec i s = finish (bodyOf i s) := by cases i <;> rfl

end Sys2Proof.Machine
end

