-- ==== Sys2Proof/Laws/PerInstr.lean ====
section
/-! SUPPORT. A statement about every command as text: the fields of its word (rules R81, R82, R84). -/

namespace Sys2Proof.Laws.EncodedFields

/-- The word of a well-formed command has its opcode of rule R84 in bits 7:0, and `R1` and `R2` 0. -/
def Statement (i : Instr) : Prop :=
  i.wellFormed = true → fieldOP (encode i) = (opcodeOf i).toNat ∧ fieldR1 (encode i) = 0 ∧ fieldR2 (encode i) = 0

theorem nop : Statement .nop := by unfold Statement; decide

theorem softReset : Statement .softReset := by unfold Statement; decide

theorem encode (fm : Bool) (mid : Nat) : Statement (.encode fm mid) := by
  intro h
  simp only [Instr.wellFormed, maskIdInRange, decide_eq_true_eq] at h
  cases fm <;> interval_cases mid <;> decide

theorem gfMul : Statement .gfMul := by unfold Statement; decide

theorem gfExp : Statement .gfExp := by unfold Statement; decide

theorem gfLog : Statement .gfLog := by unfold Statement; decide

theorem pad : Statement .pad := by unfold Statement; decide

theorem ecc : Statement .ecc := by unfold Statement; decide

theorem rsEncode (n : Nat) : Statement (.rsEncode n) := by
  intro h
  simp only [Instr.wellFormed, eccCountInRange, decide_eq_true_eq] at h
  interval_cases n <;> decide

theorem buildSkeleton : Statement .buildSkeleton := by unfold Statement; decide

theorem place : Statement .place := by unfold Statement; decide

theorem maskSelect : Statement .maskSelect := by unfold Statement; decide

theorem maskApply (mid : Nat) : Statement (.maskApply mid) := by
  intro h
  simp only [Instr.wellFormed, maskIdInRange, decide_eq_true_eq] at h
  interval_cases mid <;> decide

theorem formatWrite : Statement .formatWrite := by unfold Statement; decide

end Sys2Proof.Laws.EncodedFields
end

