-- ==== Sys2Proof/Laws/Step.lean ====
section
/-! SUPPORT. Once, everything one step can do (rules R13, R69, R100), and what each host access can do. -/

namespace Sys2Proof.Machine

theorem busAccess_cases (bytes addr : Nat) (t : State) :
    (bytes = 4 ∧ addr < 0x4000 ∧ busAccess bytes addr t = .next t) ∨
      (bytes = 4 ∧ 0x4000 ≤ addr ∧ busAccess bytes addr t = .fault (.outsideWindow addr)) ∨
      (bytes ≠ 4 ∧ busAccess bytes addr t = .refused (.accessWidth bytes)) := by
  unfold busAccess Config.busBytes Config.windowBytes
  by_cases h : bytes = 4
  · by_cases ha : 0x4000 ≤ addr
    · exact .inr (.inl ⟨h, ha, by rw [if_neg (not_not.mpr h), if_pos ha]⟩)
    · exact .inl ⟨h, by omega, by rw [if_neg (not_not.mpr h), if_neg ha]⟩
  · exact .inr (.inr ⟨h, if_pos h⟩)

theorem busAccess_next {bytes addr : Nat} {t u : State} (h : busAccess bytes addr t = .next u) :
    bytes = 4 ∧ addr < 0x4000 ∧ u = t := by
  rcases busAccess_cases bytes addr t with ⟨h1, h2, e⟩ | ⟨-, -, e⟩ | ⟨-, e⟩ <;> rw [e] at h <;> cases h
  exact ⟨h1, h2, rfl⟩

theorem sequencerTurn_cases (s : State) :
    (s.status.busy = false ∧ sequencerTurn s = .next s) ∨
      (s.status.busy = true ∧ ∃ i, decode s.cmd = .ok i ∧ sequencerTurn s = exec i s) ∨
      (s.status.busy = true ∧ (∃ r, decode s.cmd = .error r) ∧
        sequencerTurn s = .next (s.complete (some .badCommand))) := by
  unfold sequencerTurn runCommand State.fetch State.badCommand
  cases hb : s.status.busy with
  | false => exact .inl ⟨rfl, rfl⟩
  | true =>
    cases hd : decode s.cmd with
    | ok i => exact .inr (.inl ⟨rfl, i, rfl, rfl⟩)
    | error r => exact .inr (.inr ⟨rfl, ⟨r, rfl⟩, rfl⟩)

/-- The machine takes its oldest event; with none left the sequencer has the turn. -/
theorem step_cases (s : State) :
    (s.events = [] ∧ step s = sequencerTurn s) ∨
      (∃ es, s.events = .sequencer :: es ∧ step s = sequencerTurn { s with events := es }) ∨
      (∃ es, s.events = .hardReset :: es ∧ step s = .next (State.hardReset { s with events := es })) ∨
      (∃ bytes addr es, s.events = .read bytes addr :: es ∧
        step s = busAccess bytes addr (State.hostRead { s with events := es } addr)) ∨
      ∃ bytes addr v es, s.events = .write bytes addr v :: es ∧
        step s = busAccess bytes addr (State.hostWrite { s with events := es } addr v) := by
  unfold step
  cases h : s.events with
  | nil => exact .inl ⟨rfl, rfl⟩
  | cons e es =>
    cases e with
    | read bytes addr => exact .inr (.inr (.inr (.inl ⟨bytes, addr, es, rfl, rfl⟩)))
    | write bytes addr v => exact .inr (.inr (.inr (.inr ⟨bytes, addr, v, es, rfl, rfl⟩)))
    | sequencer => exact .inr (.inl ⟨es, rfl, rfl⟩)
    | hardReset => exact .inr (.inr (.inl ⟨es, rfl, rfl⟩))

theorem hostRead_cases (s : State) (off : Nat) :
    (s.status.busy = true ∧ (locate off).readableBusy = false ∧
        s.hostRead off = { s with busRead := Config.freeWord s.draws, draws := s.draws + 1 }) ∨
      ((s.status.busy = false ∨ (locate off).readableBusy = true) ∧
        s.hostRead off = { s with busRead := s.readWord off }) := by
  unfold State.hostRead
  cases s.status.busy <;> cases (locate off).readableBusy <;> simp

theorem hostWrite_cases (s : State) (off : Nat) (v : Word) :
    (s.status.busy = true ∧ (locate off).refusedBusy = true ∧ s.hostWrite off v = s.refuseWrite) ∨
      ((s.status.busy = false ∨ (locate off).refusedBusy = false) ∧ s.hostWrite off v = s.writeWord off v) := by
  unfold State.hostWrite
  cases s.status.busy <;> cases (locate off).refusedBusy <;> simp

/-- A host write that is not refused: it issues a command, changes `STATUS`, writes one register or one word of a buffer
or plane, or changes nothing. -/
theorem writeWord_cases (s : State) (off : Nat) (v : Word) :
    (locate off = .cmd ∧ s.writeWord off v = s.accept v) ∨
      (locate off = .status ∧ s.writeWord off v = { s with status := s.status.cleared v }) ∨
      (locate off = .irqen ∧ s.writeWord off v = { s with irqen := v.setWidth 3 }) ∨
      (locate off = .arg ∧ s.writeWord off v = { s with arg := v }) ∨
      (locate off = .len ∧ s.writeWord off v = { s with len := v.setWidth 9 }) ∨
      (locate off = .version ∧ s.writeWord off v = { s with version := v.setWidth 4 }) ∨
      (locate off = .mask ∧ s.writeWord off v = { s with mask := v.setWidth 3 }) ∨
      (locate off = .ram ∧ s.writeWord off v = s.writeRam (wordOffset off) v) ∨
      ((locate off).refusedBusy = false ∧ s.writeWord off v = s) := by
  unfold State.writeWord
  cases locate off <;> simp [Loc.refusedBusy]

theorem State.wf_writeRam {s : State} (w : Nat) (v : Word) (h : s.mem.wf = true) : (s.writeRam w v).mem.wf = true :=
  Memory.wf_splice _ _ h

end Sys2Proof.Machine
end

