-- ==== Sys2Proof/Tests/Slice0.lean ====
section
/-! SUPPORT. The model's own tests: ill-formed commands refused, words of the spec decoded, single steps with the results of
`95_test_vectors.md` and of the rules' examples, and a witness for the hypotheses of every statement. -/

namespace Sys2Proof.Tests

open Sys2Proof.Machine Sys2Proof.Ref

/-! Well-formedness: one ill-formed command for each check (rule R83). -/

theorem test_mask_id_out_of_range : (Instr.encode true 8).wellFormed = false ∧ (Instr.maskApply 8).wellFormed = false := by
  decide

theorem test_ec_count_out_of_range : (Instr.rsEncode 256).wellFormed = false := by decide

/-! Decoding: words written out from the field table (rule R81), fields from the left `R2 N R1 MID FM OP`. -/

theorem test_decode_control :
    decode (0b00000000_00000000_0000_000_0_00000000#32) = .ok .nop ∧
    decode (0b00000000_00000000_0000_000_0_00000001#32) = .ok .softReset ∧
    decode (0b00000000_00000000_0000_101_1_00010000#32) = .ok (.encode true 5) ∧
    decode (0b00000000_00000000_0000_000_0_00010000#32) = .ok (.encode false 0) := by decide

theorem test_decode_field :
    decode (0b00000000_00000000_0000_000_0_00100000#32) = .ok .gfMul ∧
    decode (0b00000000_00000000_0000_000_0_00100001#32) = .ok .gfExp ∧
    decode (0b00000000_00000000_0000_000_0_00100010#32) = .ok .gfLog := by decide

theorem test_decode_codewords :
    decode (0b00000000_00000000_0000_000_0_00110000#32) = .ok .pad ∧
    decode (0b00000000_00000000_0000_000_0_00110001#32) = .ok .ecc ∧
    decode (0b00000000_00011110_0000_000_0_00110010#32) = .ok (.rsEncode 30) := by decide

theorem test_decode_matrix :
    decode (0b00000000_00000000_0000_000_0_01000000#32) = .ok .buildSkeleton ∧
    decode (0b00000000_00000000_0000_000_0_01000001#32) = .ok .place := by decide

theorem test_decode_mask :
    decode (0b00000000_00000000_0000_000_0_01010000#32) = .ok .maskSelect ∧
    decode (0b00000000_00000000_0000_011_0_01010001#32) = .ok (.maskApply 3) ∧
    decode (0b00000000_00000000_0000_000_0_01010010#32) = .ok .formatWrite := by decide

/-- The `BAD` words of vector EN-1. -/
theorem test_bad_words :
    [0x00010010#32, 0x00000122#32, 0x00070232#32, 0x01070032#32, 0x00000151#32, 0x00010051#32, 0x00001000#32,
      0x00000002#32, 0x00000011#32, 0x00000033#32, 0x00000053#32, 0x000000FF#32, 0xFFFFFFFF#32].all
      (fun w => (decode w).toOption == none) = true := by decide

theorem test_decode_table_word : decodeTableWord 32 0x00070032 = some (.rsEncode 7) ∧ decodeTableWord 32 0x11 = none := by
  decide

/-! Small states. -/

/-- The state a step answers, if it answers one. -/
def next? (o : Out) : Option State :=
  match o with
  | .next t => some t
  | .fault _ => none
  | .refused _ => none

/-- Run a command; read the `STATUS` word and one thing more. -/
def outcome {α : Type} (i : Instr) (s : State) (f : State → α) : Option (Word × α) :=
  (next? (exec i s)).map fun t => (statusWord t.status, f t)

/-- An idle state with things to come. -/
def idle (es : List Event) : State := { State.reset with events := es }

/-- A state in which the word `w` is running. -/
def running (w : Word) (es : List Event) : State := { State.reset.accept w with events := es }

/-- After reset but for `ARG`. -/
def withArg (a : Word) : State := { State.reset with arg := a }

/-- After reset but for `VERSION`. -/
def withVer (v : BitVec 4) : State := { State.reset with version := v }

/-- After reset but for `LEN` and a first input byte. -/
def withInput (n : BitVec 9) (b : Byte) : State := { State.reset with len := n, mem := Memory.splice [] 0x400 [b] }

/-- `VERSION = v` and every cell set. -/
def allSet (v : BitVec 4) : State :=
  (withVer v).storeSet (List.replicate 57 (List.replicate 57 { set := true, dark := false, rsv := false }))

/-- `VERSION = v` and the reserved plane of its skeleton. -/
def reservedOnly (v : BitVec 4) : State := (withVer v).storeRsv (skeleton v.toNat)

/-- Version 1, every cell reserved but columns 0 to 4 of row 0, which hold dark, light, dark, light, dark. -/
def fiveCells : State :=
  let row0 := [true, false, true, false, true].map fun d => ({ set := true, dark := d, rsv := false } : Cell)
  let M := (row0 ++ List.replicate 52 { set := true, dark := false, rsv := true }) ::
    List.replicate 56 (List.replicate 57 ({ set := true, dark := false, rsv := true } : Cell))
  (((withVer 1).storeDark M).storeSet M).storeRsv M

/-! One command at a time. -/

/-- R104, and FL-1: `OVERRUN` is kept. -/
theorem test_nop : outcome .nop State.reset (fun t => t.irq) = some (0x00000002#32, false) ∧
    outcome .nop { State.reset with status := { Status.reset with overrun := true } } (fun t => t.len) =
      some (0x0000000A#32, 0) := by decide

/-- R105: `VERSION` is 0 after it, `STATUS` 0x00000002. -/
theorem test_soft_reset : outcome .softReset (withVer 3) (fun t => t.version) = some (0x00000002#32, 0) := by decide

/-- GF-1. -/
theorem test_gf_mul : outcome .gfMul (withArg 0x0000FFFF) (fun t => t.result) = some (0x002#32, 0xE2) ∧
    outcome .gfMul (withArg 0xFFFF0703) (fun t => t.result) = some (0x002#32, 0x09) := by decide

/-- GF-1. -/
theorem test_gf_exp : outcome .gfExp (withArg 0x000001FF) (fun t => t.result) = some (0x002#32, 0x02) ∧
    outcome .gfExp (withArg 0x000000FE) (fun t => t.result) = some (0x002#32, 0x8E) := by decide +kernel

/-- GF-1. -/
theorem test_gf_log : outcome .gfLog (withArg 0x000000FF) (fun t => t.result) = some (0x002#32, 0xAF) ∧
    outcome .gfLog (withArg 0x00000100) (fun t => t.result) = some (0x506#32, 0) := by decide +kernel

/-- PD-2, "A". -/
theorem test_pad : outcome .pad (withInput 1 0x41) (fun t => (t.version, t.bitlen, t.mem.load 0x600 6)) =
    some (0x002#32, 1, 24, [0x40, 0x14, 0x10, 0xEC, 0x11, 0xEC]) := by decide +kernel

/-- PD-1: the first boundary. -/
theorem test_pad_version_2 : outcome .pad (withInput 18 0x61) (fun t => t.version) = some (0x002#32, 2) := by decide +kernel

/-- EC-1, "A". -/
theorem test_ecc : outcome .ecc { withVer 1 with
      mem := Memory.splice [] 0x600 [0x40, 0x14, 0x10, 0xEC, 0x11, 0xEC, 0x11, 0xEC, 0x11, 0xEC, 0x11, 0xEC, 0x11, 0xEC,
        0x11, 0xEC, 0x11, 0xEC, 0x11] } (fun t => t.mem.load 0x813 8) =
    some (0x002#32, [0x52, 0x4B, 0xB5, 0x3B, 0xAF, 0x8D, 0xF1, 0x00]) := by decide +kernel

/-- RS-1: a leading zero byte is skipped. -/
theorem test_rs_encode : outcome (.rsEncode 7) { withArg 2 with mem := Memory.splice [] 0xA00 [0, 1] }
      (fun t => t.mem.load 0xB00 8) =
    some (0x002#32, [0x7F, 0x7A, 0x9A, 0xA4, 0x0B, 0x44, 0x75, 0x00]) := by decide +kernel

/-- RS-2: the count is checked first. -/
theorem test_rs_encode_error : outcome (.rsEncode 8) (withArg 300) (fun t => t.mem) = some (0x206#32, []) := by
  decide +kernel

/-- MB-1: the dark module, a format cell, and the counted reserved cells. -/
theorem test_build_skeleton : outcome .buildSkeleton (withVer 1) (fun t =>
      (cellOf t.mem 13 8, cellOf t.mem 8 8, ((t.mem.planeRows .rsv).map fun r => r.countP id).sum)) =
    some (0x002#32, fixed true, { set := false, dark := false, rsv := true }, 233) := by decide +kernel

/-- DP-1: the first 8 cells take the bits of `CW[0] = 0x40`. -/
theorem test_place : outcome .place { reservedOnly 1 with mem := (reservedOnly 1).mem.splice 0x800 [0x40] }
      (fun t => (t.cellcnt, [(20, 20), (20, 19), (19, 20), (19, 19)].map fun p => (cellOf t.mem p.1 p.2).value)) =
    some (0x002#32, 208, [.light, .dark, .light, .light]) := by decide +kernel

/-- DP-4: planes never built. -/
theorem test_place_mismatch : outcome .place (withVer 1) (fun t => t.cellcnt) = some (0x306#32, 420) := by decide +kernel

/-- Rules R222 to R229 by hand: masks 0 and 7 make all five cells light (A 3, D 100); masks 1, 5 and 6 give 01010, masks 2
and 3 give 00111, mask 4 gives 01001 (D 20 each). The least total is 20, first at mask 1. -/
theorem test_mask_select : outcome .maskSelect fiveCells (fun t => (t.mask, t.penalty.toList)) =
    some (0x002#32, 1, [103, 20, 20, 20, 20, 20, 20, 103]) := by decide +kernel

/-- MS and ER-1: cells without a value. -/
theorem test_mask_select_unset : outcome .maskSelect (withVer 1) (fun t => t.mask) = some (0x706#32, 0) := by decide +kernel

/-- MA-1: `(20,20)` becomes dark under mask 0, `(20,19)` stays. -/
theorem test_mask_apply : outcome (.maskApply 0) (allSet 1) (fun t =>
      ((cellOf t.mem 20 20).value, (cellOf t.mem 20 19).value, (cellOf t.mem 21 21).value)) =
    some (0x002#32, .dark, .light, .light) := by decide +kernel

/-- FW-1: `FMT`, bit 0 at (0,8), bit 14 at (8,0) and (20,8). -/
theorem test_format_write : outcome .formatWrite (withVer 1) (fun t =>
      (t.fmt, [(0, 8), (8, 0), (20, 8)].map fun p => cellOf t.mem p.1 p.2)) =
    some (0x002#32, 0x77C4, [fixed false, fixed true, fixed true]) := by decide +kernel

/-- ENC-4: "A" with mask 3; the first row of the symbol. -/
theorem test_encode_forced : outcome (.encode true 3) (withInput 1 0x41) (fun t =>
      (t.mask, t.fmt, t.mem.load 0x1000 4)) = some (0x002#32, 3, 0x789D, [0x7F, 0xDD, 0x1F, 0x00]) := by decide +kernel

/-- ENC-5: too long, every plane bit 0. -/
theorem test_encode_too_long : outcome (.encode false 0) { allSet 1 with len := 272 } (fun t => t.mem) =
    some (0x106#32, []) := by decide +kernel

/-- Rule R60: a word of `INBUF` and its bytes; R31: the last word of `CW` has two. -/
theorem test_bus : ((next? (step (idle [.write 4 0x400 0x44434241]))).map fun t => t.mem) =
      some [(0x400, 0x41), (0x401, 0x42), (0x402, 0x43), (0x403, 0x44)] ∧
    ((next? (step (idle [.write 4 0x95B 0xFFFFFFFF]))).map fun t => t.mem) = some [(0x958, 0xFF), (0x959, 0xFF)] := by
  decide +kernel

/-- FL-1: a write of `LEN` while `BUSY = 1` sets `OVERRUN` and is lost. -/
theorem test_refused_write : ((next? (step (running 0 [.write 4 0x018 5]))).map fun t => (statusWord t.status, t.len)) =
    some (0x009#32, 0) := by decide +kernel

/-! Witnesses: for each statement, states and operands that meet its hypotheses, at the boundaries of each clause. -/

theorem witness_DecodeOfEncodeIsTheCommand : (Instr.encode true 7).wellFormed = true ∧
    (Instr.encode false 0).wellFormed = true ∧ (Instr.rsEncode 255).wellFormed = true ∧
    (Instr.rsEncode 0).wellFormed = true ∧ (Instr.maskApply 7).wellFormed = true := by decide

theorem witness_EncodeOfDecodeIsTheWord : decode 0x00000E10 = .ok (.encode false 7) ∧
    decode 0x00FF0032 = .ok (.rsEncode 255) := by decide

theorem witness_StepRunsTheAcceptedCommand :
    ((running 0x20 [.sequencer, .hardReset]).status.busy = true ∧
      decode (running 0x20 [.sequencer, .hardReset]).cmd = .ok .gfMul ∧
      (running 0x20 [.sequencer, .hardReset]).events = .sequencer :: [.hardReset]) ∧
    ((running 0x20 []).status.busy = true ∧ decode (running 0x20 []).cmd = .ok .gfMul ∧ (running 0x20 []).events = []) ∧
    0x00000E51 < 2 ^ 32 ∧ decode (BitVec.ofNat 32 0x00000E51) = .ok (.maskApply 7) := by decide

theorem witness_BadWordCompletesWithBadCommand :
    ((running 0xFF [.sequencer]).status.busy = true ∧ decode (running 0xFF [.sequencer]).cmd = .error .reservedOpcode ∧
      (running 0xFF [.sequencer]).events = .sequencer :: []) ∧
    (running 0x1000 []).status.busy = true ∧ decode (running 0x1000 []).cmd = .error .reservedField ∧
      (running 0x1000 []).events = [] := by decide

theorem witness_CmdWriteIssuesTheCommand :
    (4 / 4 = 1 ∧ (idle [.write 4 4 0x20]).events = .write 4 4 0x20 :: [] ∧ (idle [.write 4 4 0x20]).status.busy = false) ∧
    (7 / 4 = 1 ∧ (running 0 [.write 4 7 0x20]).events = .write 4 7 0x20 :: [] ∧
      (running 0 [.write 4 7 0x20]).status.busy = true) := by decide

theorem witness_BusyFromAcceptanceToCompletion :
    (∃ t, step (idle [.write 4 4 0]) = .next t ∧ (idle [.write 4 4 0]).status.busy = false ∧ t.status.busy = true) ∧
    (∃ t, step (running 0 [.sequencer]) = .next t ∧ (running 0 [.sequencer]).status.busy = true ∧ t.status.busy = false) ∧
    (∃ t, step (running 0 []) = .next t ∧ (running 0 []).status.busy = true ∧ t.status.busy = false) ∧
    ∃ t, step (running 0 [.hardReset]) = .next t ∧ (running 0 [.hardReset]).status.busy = true ∧ t.status.busy = false :=
  ⟨⟨_, rfl, rfl, rfl⟩, ⟨_, rfl, rfl, rfl⟩, ⟨_, rfl, rfl, rfl⟩, ⟨_, rfl, rfl, rfl⟩⟩

theorem witness_CommandsKeepTheHostsState :
    (∃ t, exec .gfMul (withArg 0x0703) = .next t) ∧ Instr.gfMul ≠ .softReset ∧
    inRanges [(0x600, 0x712), (0x800, 0x95A), (0xB00, 0xB20), (0x1000, 0x11C8), (0x1200, 0x13C8), (0x1400, 0x15C8)]
      0x5FF = false ∧
    inRanges [(0x600, 0x712), (0x800, 0x95A), (0xB00, 0xB20), (0x1000, 0x11C8), (0x1200, 0x13C8), (0x1400, 0x15C8)]
      0x712 = false := ⟨⟨_, rfl⟩, by decide⟩

theorem witness_LatencyDoesNotMatter : (Instr.rsEncode 7).wellFormed = true ∧ State.reset.status.busy = false ∧
    State.reset.events = [] := by decide

theorem witness_BusyAccessesFollowTheTable :
    (0x3FFF < 0x4000 ∧ (running 0 [.read 4 0x3FFF]).status.busy = true ∧
      (running 0 [.read 4 0x3FFF]).events = .read 4 0x3FFF :: []) ∧
    0x010 < 0x4000 ∧ (running 0 [.write 4 0x010 1]).status.busy = true ∧
      (running 0 [.write 4 0x010 1]).events = .write 4 0x010 1 :: [] := by decide

theorem witness_RunningCommandIsUndisturbed :
    ((running 0 [.read 4 0x400]).status.busy = true ∧ (∃ t, step (running 0 [.read 4 0x400]) = .next t) ∧
      (running 0 [.read 4 0x400]).events = .read 4 0x400 :: []) ∧
    (running 0 [.write 4 0x400 1]).status.busy = true ∧ (∃ t, step (running 0 [.write 4 0x400 1]) = .next t) ∧
      (running 0 [.write 4 0x400 1]).events = .write 4 0x400 1 :: [] :=
  ⟨⟨rfl, ⟨_, rfl⟩, rfl⟩, rfl, ⟨_, rfl⟩, rfl⟩

theorem witness_IdleReadsFollowTheRegisterMap :
    0x3FFF < 0x4000 ∧ (idle [.read 4 0x3FFF]).status.busy = false ∧ (idle [.read 4 0x3FFF]).events = .read 4 0x3FFF :: [] := by
  decide

theorem witness_PlaneWordsHoldTheCells :
    (56 < 57 ∧ 1 < 2 ∧ (idle [.read 4 (Plane.rsv.base + 8 * 56 + 4 * 1)]).status.busy = false ∧
      (idle [.read 4 (Plane.rsv.base + 8 * 56 + 4 * 1)]).events = .read 4 (Plane.rsv.base + 8 * 56 + 4 * 1) :: []) ∧
    0 < 32 ∧ 31 < 32 := by decide

theorem witness_RegisterWritesStoreTheirFields :
    (running 0 [.write 4 0x00B 0xE]).events = .write 4 0x00B 0xE :: [] ∧ 0x00B / 4 = 2 ∧ 0x00C / 4 = 3 ∧
    (idle [.write 4 0x010 1]).status.busy = false ∧ 0x010 / 4 = 4 ∧ 0x01B / 4 = 6 ∧ 0x01C / 4 = 7 ∧ 0x023 / 4 = 8 := by
  decide

theorem witness_MemoryWritesStoreTheWord :
    (writableWord (4 * (0x400 / 4)) = true ∧ writableWord (4 * (0x713 / 4)) = true ∧
      writableWord (4 * (0x15C7 / 4)) = true) ∧
    (idle [.write 4 0x15C7 1]).status.busy = false ∧ (idle [.write 4 0x15C7 1]).events = .write 4 0x15C7 1 :: [] := by decide

theorem witness_ReadOnlyAndReservedWritesAreIgnored :
    (idle [.write 4 3 1]).events = .write 4 3 1 :: [] ∧ 3 / 4 = 0 ∧ 0x017 / 4 = 5 ∧
    inRanges [(0x024, 0x034), (0x040, 0x060), (0x080, 0x100), (0xB00, 0xB20)] 0xB1F = true ∧
    reservedOffset 0x034 = true ∧ reservedOffset 0x3FFF = true := by decide

theorem witness_AccessesRepeatWithoutSideEffects :
    (0x3FFC < 0x4000 ∧ (idle [.read 4 0x3FFC, .read 4 0x3FFC]).status.busy = false ∧
      (idle [.read 4 0x3FFC, .read 4 0x3FFC]).events = .read 4 0x3FFC :: .read 4 0x3FFC :: []) ∧
    0x400 < 0x4000 ∧ 0x400 / 4 ≠ 1 ∧ 0x400 / 4 ≠ 2 ∧
      (idle [.write 4 0x400 7, .write 4 0x400 7]).events = .write 4 0x400 7 :: .write 4 0x400 7 :: [] := by decide

theorem witness_OutOfScopeAccessesStop :
    ((idle [.read 2 0]).events = .read 2 0 :: [] ∧ 2 ≠ 4) ∧
    (idle [.write 4 0x4000 0]).events = .write 4 0x4000 0 :: [] ∧ 0x4000 ≤ 0x4000 := by decide

theorem witness_InScopeEventsNeverStopTheMachine :
    (idle [.read 4 0x3FFF, .write 4 0x004 0x10, .sequencer, .hardReset]).events.all Event.inScope = true ∧
    (idle []).events.all Event.inScope = true := by decide

theorem witness_IrqFollowsStatusAndEnable :
    ({ State.reset with irqen := 7 } : State).irqen.getLsbD 0 = true ∧
    ({ State.reset with irqen := 7 } : State).irqen.getLsbD 1 = true ∧
    ({ State.reset with irqen := 7 } : State).irqen.getLsbD 2 = true := by decide

theorem witness_ResetReadsZero : 0 < 0x4000 ∧ 0x3FFF < 0x4000 ∧ State.reset.irqen = 0 := by decide

theorem witness_HardResetEndsEverything :
    (running 0x10 [.hardReset, .sequencer]).events = .hardReset :: [.sequencer] := by decide

theorem witness_EveryStepKeepsTheInvariant :
    (idle [.write 4 4 0x10]).Inv ∧ ∃ t, step (idle [.write 4 4 0x10]) = .next t := ⟨by decide, _, rfl⟩

theorem witness_NopOnlyCompletes : (0x00000100 : Word).setWidth 8 = 0x00#8 ∧ (0x00000100 : Word) ≠ 0 := by decide

theorem witness_GfLogInvertsTheExponent :
    ((withArg 0x100).arg.setWidth 8 : Byte) = 0 ∧ ((withArg 1).arg.setWidth 8 : Byte) ≠ 0 ∧
    ((withArg 0xFF).arg.setWidth 8 : Byte) ≠ 0 := by decide

theorem witness_CapacityIsWhatFits : (1 ≤ 1 ∧ 1 ≤ 10 ∧ 1 < 10) ∧ 1 ≤ 10 ∧ 10 ≤ 10 := by decide

theorem witness_PadBuildsTheCodewords : (withInput 0 0).len.toNat ≤ 271 ∧ (withInput 271 0x41).len.toNat ≤ 271 := by decide

theorem witness_GeneratorTableIsTheProduct : 7 ∈ ecKeys ∧ 30 ∈ ecKeys ∧ 8 ∉ ecKeys ∧ 31 ∉ ecKeys := by decide

theorem witness_DivisionIsTheLoop : 7 ∈ ecKeys ∧ 30 ∈ ecKeys := by decide

theorem witness_EccHasZeroSyndromes : 30 ∈ ecKeys ∧ 0 < 30 ∧ 29 < 30 := by decide

theorem witness_RsEncodeWritesTheRemainder :
    0 ∉ ecKeys ∧ 8 ∉ ecKeys ∧ 256 ∉ ecKeys ∧ (7 ∈ ecKeys ∧ 256 < (withArg 257).arg.toNat % 512) ∧
    (30 ∈ ecKeys ∧ (withArg 256).arg.toNat % 512 ≤ 256) ∧ 7 ∈ ecKeys ∧ (withArg 0x200).arg.toNat % 512 ≤ 256 := by decide

theorem witness_EccInterleavesTheBlocks : Legal (withVer 1) ∧ Legal (withVer 10) := by decide

theorem witness_ErrorsFollowTheCheckOrder :
    271 < ({ State.reset with len := 272 } : State).len.toNat ∧ (withArg 0x100).arg.toNat % 256 = 0 ∧ 8 ∉ ecKeys ∧
    (7 ∈ ecKeys ∧ 256 < (withArg 257).arg.toNat % 512) ∧ ¬Legal (withVer 0) ∧ ¬Legal (withVer 11) ∧
    Legal (withVer 1) ∧ (orderOf (withVer 1)).length ≠ 8 * totalCodewords 1 + remainderCells 1 ∧ ¬AllSet (withVer 1) := by
  decide +kernel

theorem witness_BuildSkeletonBuildsTheSkeleton : Legal (withVer 1) ∧ Legal (withVer 7) ∧ Legal (withVer 10) ∧ 56 < 57 ∧
    planeByte 0xFFF = false ∧ planeByte 0x15C8 = false := by decide

theorem witness_SkeletonCellCounts : 1 ≤ 1 ∧ 1 ≤ 10 ∧ 10 ≤ 10 := by decide

theorem witness_OrderVisitsEveryUnreservedCellOnce : (1 ≤ 1 ∧ 1 ≤ 10 ∧ 20 < 17 + 4 * 1) ∧ 10 ≤ 10 ∧ 56 < 17 + 4 * 10 := by
  decide

theorem witness_PlacementOrderIsTheWalk : 1 ≤ 1 ∧ 1 ≤ 10 ∧ 10 ≤ 10 := by decide

/-- Versions 1 and 2: without and with remainder cells. -/
theorem witness_PlaceWritesTheBits :
    (Legal (reservedOnly 1) ∧ (orderOf (reservedOnly 1)).length =
      8 * totalCodewords (reservedOnly 1).version.toNat + remainderCells (reservedOnly 1).version.toNat) ∧
    Legal (reservedOnly 2) ∧ (orderOf (reservedOnly 2)).length =
      8 * totalCodewords (reservedOnly 2).version.toNat + remainderCells (reservedOnly 2).version.toNat := by decide +kernel

theorem witness_PenaltiesFollowTheRules : 1 ≤ 1 ∧ 1 ≤ 10 ∧ 10 ≤ 10 ∧ 0 < 8 ∧ 7 < 8 := by decide

/-- The set plane of a matrix whose cells all have a value, whatever the reserved plane is. -/
theorem planeBit_set_of_all {m : Memory} {M : Matrix} (hM : M.Square) (h : ∀ row ∈ M, ∀ x ∈ row, x.set = true) {r c : Nat}
    (hr : r < planeSide) (hc : c < planeSide) : (m.fillPlane .set (M.planeBytes Cell.set)).planeBit .set r c = true := by
  rw [Memory.planeBit_fillPlane m .set hM Cell.set hr hc]
  have h1 : r < M.length := by rw [hM.1]; exact hr
  have h2 : c < M[r].length := by rw [hM.2 _ (List.getElem_mem _)]; exact hc
  simpa [Matrix.cell, List.getD_eq_getElem?_getD, h1, h2] using h _ (List.getElem_mem h1) _ (List.getElem_mem h2)

theorem allSet_AllSet {v : BitVec 4} (hv : v.toNat ≤ 10) : AllSet (allSet v) := fun r hr c hc => by
  have hs : side (allSet v) = 17 + 4 * v.toNat := rfl
  have h57 : planeSide = 57 := rfl
  exact .inr (planeBit_set_of_all (m := (withVer v).mem) ⟨by decide, by decide⟩ (by decide) (by omega) (by omega))

theorem fiveCells_AllSet : AllSet fiveCells := fun r hr c hc => by
  have hs : side fiveCells = 21 := rfl
  have h57 : planeSide = 57 := rfl
  have hr' : r < planeSide := by omega
  have hc' : c < planeSide := by omega
  exact .inr (by
    unfold fiveCells
    simp only [State.storeRsv]
    rw [Memory.planeBit_fillPlane_of_ne _ (by decide) _ hr' hc']
    exact planeBit_set_of_all ⟨by decide, by decide⟩ (by decide) hr' hc')

theorem witness_PenaltiesAreBounded : (1 ≤ 1 ∧ 1 ≤ 10 ∧ 10 ≤ 10 ∧ 0 < 8 ∧ 7 < 8) ∧ Legal fiveCells ∧ AllSet fiveCells :=
  ⟨by decide, by decide, fiveCells_AllSet⟩

theorem witness_MaskSelectChoosesTheLeast : Legal fiveCells ∧ AllSet fiveCells := ⟨by decide, fiveCells_AllSet⟩

theorem witness_MaskApplyInvertsTheSelectedCells : 0 < 8 ∧ 7 < 8 ∧ (Legal (allSet 1) ∧ AllSet (allSet 1)) ∧
    Legal (allSet 10) ∧ AllSet (allSet 10) :=
  ⟨by decide, by decide, ⟨by decide, allSet_AllSet (by decide)⟩, by decide, allSet_AllSet (by decide)⟩

theorem witness_MaskApplyTwiceRestores : (allSet 1).Inv ∧ 7 < 8 ∧ Legal (allSet 1) ∧ AllSet (allSet 1) :=
  ⟨by decide +kernel, by decide, by decide, allSet_AllSet (by decide)⟩

theorem witness_FormatAndVersionWordsAreBch : 0 < 8 ∧ 7 < 8 ∧ 7 ≤ 7 ∧ 7 ≤ 10 ∧ 10 ≤ 10 := by decide

theorem witness_FormatWriteWritesBothStrips : Legal (withVer 1) ∧ Legal (withVer 10) ∧ 14 < 15 ∧
    (13, 8) ∉ formatStrip1 ++ formatStrip2 (side (withVer 1)) ∧ planeByte 0x11C8 = false := by decide

theorem witness_EncodeSucceeds : 7 < 8 ∧ (withInput 0 0).len.toNat ≤ 271 ∧ (withInput 271 0x41).len.toNat ≤ 271 := by decide

theorem witness_EncodeFailsClosed : 271 < (withInput 272 0).len.toNat ∧ 271 < (withInput 511 0).len.toNat := by decide

theorem witness_EncodeIsTheStepwisePipeline : 0 < 8 ∧ 7 < 8 ∧ (withInput 271 0x41).len.toNat ≤ 271 := by decide

/-- Two states that hold different things beside the same input. -/
theorem witness_EncodeReadsOnlyItsInput : 7 < 8 ∧ (withInput 1 0x41).len.toNat ≤ 271 ∧
    ({ withInput 1 0x41 with arg := 5, mask := 3 } : State).len = (withInput 1 0x41).len ∧
    ∀ k, k < (withInput 1 0x41).len.toNat →
      ({ withInput 1 0x41 with arg := 5, mask := 3 } : State).mem.read (0x400 + k) =
        (withInput 1 0x41).mem.read (0x400 + k) := by decide

end Sys2Proof.Tests
end

namespace Sys2Proof.Machine

theorem step_of_events_nil {s : State} (h : s.events = []) : step s = sequencerTurn s := by rw [step, h]

theorem step_of_events_sequencer {s : State} {es : List Event} (h : s.events = .sequencer :: es) :
    step s = sequencerTurn { s with events := es } := by rw [step, h]

/-- A running command is the one that `CMD` decodes to: the other two cases of a turn contradict `BUSY = 1` and the
decoding (rules R12, R100). -/
theorem sequencerTurn_of_decode_ok {s : State} {i : Instr} (hb : s.status.busy = true) (hd : decode s.cmd = .ok i) :
    sequencerTurn s = exec i s := by
  rcases sequencerTurn_cases s with ⟨hidle, -⟩ | ⟨-, j, hj, e⟩ | ⟨-, ⟨r, hr⟩, -⟩
  · rw [hb] at hidle; cases hidle
  · rw [hd] at hj; cases hj; exact e
  · rw [hd] at hr; cases hr

/-- The sequencer's turn that `withFetchWord` schedules finds the state of acceptance (rule R101; log 15). -/
theorem step_withFetchWord (s : State) {w : Nat} (hw : w < 2 ^ 32) :
    step (s.withFetchWord 32 w) = sequencerTurn (s.accept (BitVec.ofNat 32 w)) := by
  have hmod : w % 2 ^ 32 = w := Nat.mod_eq_of_lt hw
  have hplaced : (s.withFetchWord 32 w).events = .sequencer :: s.events := rfl
  rw [step_of_events_sequencer hplaced, State.withFetchWord, hmod]
  rfl

/-- Settles O5: each of the three ways gives the sequencer a turn, and that turn, with `BUSY = 1`, is `exec` of the decoded
command. -/
theorem stepRunsTheAcceptedCommand : Obligations.StepRunsTheAcceptedCommand := by
  intro s i
  refine ⟨fun hb hd => ⟨fun es he => ?scheduled, fun he => ?nothingScheduled⟩, fun w hw hd => ?placed⟩
  case scheduled =>
    rw [step_of_events_sequencer he]
    exact sequencerTurn_of_decode_ok hb hd
  case nothingScheduled =>
    rw [step_of_events_nil he]
    exact sequencerTurn_of_decode_ok hb hd
  case placed =>
    rw [step_withFetchWord s hw]
    exact sequencerTurn_of_decode_ok rfl hd

end Sys2Proof.Machine

namespace Sys2Proof.Machine

open Sys2Proof.Ref

/-! The bits that exist, in the ranges of the register map (rules R31, R32). -/

@[simp] theorem inRanges_nil (a : Nat) : inRanges [] a = false := rfl

@[simp] theorem inRanges_cons_iff (r : Nat × Nat) (rs : List (Nat × Nat)) (a : Nat) :
    inRanges (r :: rs) a = true ↔ (r.1 ≤ a ∧ a < r.2) ∨ inRanges rs a = true := by
  simp [inRanges]

theorem bufferByte_iff (a : Nat) : bufferByte a = true ↔
    (0x400 ≤ a ∧ a < 0x510) ∨ (0x600 ≤ a ∧ a < 0x712) ∨ (0x800 ≤ a ∧ a < 0x95A) ∨ (0xA00 ≤ a ∧ a < 0xB00) ∨
      (0xB00 ≤ a ∧ a < 0xB20) := by
  simp [bufferByte]

theorem planeByte_iff (a : Nat) : planeByte a = true ↔
    (0x1000 ≤ a ∧ a < 0x11C8) ∨ (0x1200 ≤ a ∧ a < 0x13C8) ∨ (0x1400 ≤ a ∧ a < 0x15C8) := by
  simp [planeByte]

theorem Buf.holds_iff (b : Buf) (a : Nat) : b.holds a = true ↔ b.base ≤ a ∧ a < b.base + b.size := by simp [Buf.holds]

theorem Plane.holds_iff (p : Plane) (a : Nat) : p.holds a = true ↔ p.base ≤ a ∧ a < p.base + planeBytes := by
  simp [Plane.holds]

theorem isSome_bufAt_iff (a : Nat) : (bufAt a).isSome = true ↔ bufferByte a = true := by
  rw [bufAt, List.find?_isSome, bufferByte_iff]
  simp [Buf.holds_iff, Buf.base, Buf.size]

theorem isSome_planeAt_iff (a : Nat) : (planeAt a).isSome = true ↔ planeByte a = true := by
  rw [planeAt, List.find?_isSome, planeByte_iff]
  simp [Plane.holds_iff, Plane.base, planeBytes]

theorem Plane.holds_of_planeAt {a : Nat} {p : Plane} (h : planeAt a = some p) : p.base ≤ a ∧ a < p.base + planeBytes := by
  rw [planeAt] at h
  have hp := List.find?_some h
  exact (p.holds_iff a).mp hp

/-- Each plane begins at a multiple of the row stride. -/
theorem Plane.base_mod_rowStride (p : Plane) : p.base % rowStride = 0 := by cases p <;> rfl

/-- The mask of the model is the one of the reference form. -/
theorem byteMask_eq_presentBits (a : Nat) : byteMask a = presentBits a := by
  unfold byteMask presentBits
  simp only [← isSome_bufAt_iff, ← isSome_planeAt_iff]
  cases bufAt a with
  | some b => rfl
  | none =>
    cases hp : planeAt a with
    | none => rfl
    | some p =>
      have hrow := p.base_mod_rowStride
      have hin := Plane.holds_of_planeAt hp
      have hcol : (a - p.base) % rowStride = 7 ↔ a % 8 = 7 := by simp only [rowStride] at *; omega
      simp [hcol]

theorem Buf.bufferByte_of_mem (b : Buf) {a : Nat} (h : b.base ≤ a ∧ a < b.base + b.size) : bufferByte a = true := by
  rw [bufferByte_iff]
  cases b <;> simp only [Buf.base, Buf.size] at h <;> omega

theorem presentBits_of_buffer {a : Nat} (h : bufferByte a = true) : presentBits a = 0xFF := if_pos h

theorem Plane.planeByte_of_mem (p : Plane) {a : Nat} (h : p.base ≤ a ∧ a < p.base + planeBytes) :
    planeByte a = true := by
  rw [planeByte_iff]
  simp only [planeBytes] at h
  cases p <;> simp only [Plane.base] at h <;> omega

theorem bufferByte_of_planeByte {a : Nat} (h : planeByte a = true) : bufferByte a = false := by
  rw [planeByte_iff] at h
  rw [Bool.eq_false_iff, ne_eq, bufferByte_iff]
  omega

theorem presentBits_of_plane {a : Nat} (h : planeByte a = true) :
    presentBits a = if a % 8 = 7 then 0x01 else 0xFF := by
  rw [presentBits, bufferByte_of_planeByte h, if_pos h]
  rfl

/-! What a command can write (rule R40), as a chain of single writes: later proofs go by cases on one write. -/

/-- The bytes of a plane set no bit past column 56. -/
def PlaneRowsOk (bytes : List Byte) : Prop := ∀ k, k % rowStride = 7 → bytes.getD k 0 &&& 0x01 = bytes.getD k 0

/-- One write of a command, with what it says of the value written. -/
inductive CommandWrite (s : State) : State → Prop
  | buffer (b : Buf) (bytes : List Byte) (h : b = .dataCw ∨ b = .cw ∨ b = .rsOut) : CommandWrite s (s.fillBuf b bytes)
  | plane (p : Plane) (bytes : List Byte) (h : PlaneRowsOk bytes) :
      CommandWrite s { s with mem := s.mem.fillPlane p bytes }
  | result (w : Word) : CommandWrite s { s with result := w }
  | version (v : BitVec 4) : CommandWrite s { s with version := v }
  | mask (m : BitVec 3) : CommandWrite s { s with mask := m }
  | bitlen (n : BitVec 12) (h : n.toNat ≤ 2192) : CommandWrite s { s with bitlen := n }
  | cellcnt (n : BitVec 12) (h : n.toNat ≤ 3249) : CommandWrite s { s with cellcnt := n }
  | verinfo (w : BitVec 18) (h : w = 0 ∨ w ∈ [7, 8, 9, 10].map versionWord) : CommandWrite s { s with verinfo := w }
  | fmt (w : BitVec 15) (h : w = 0 ∨ w ∈ (List.range 8).map formatWord) : CommandWrite s { s with fmt := w }
  | penalties (pen : Vector (Vector Word 4) 8) (penalty : Vector Word 8)
      (h : ∀ m : Fin 8, penalty[m] = pen[m][0] + pen[m][1] + pen[m][2] + pen[m][3]) :
      CommandWrite s { s with pen := pen, penalty := penalty }

/-- The writes of a command, one after the other. -/
abbrev CommandWrites : State → State → Prop := Relation.ReflTransGen CommandWrite

/-! The values written are in their ranges. -/

theorem PlaneRowsOk.nil : PlaneRowsOk [] := fun _ _ => by simp

/-- The last byte of a row of 57 cells holds column 56 and nothing else (rule R32). -/
theorem Matrix.Square.planeRowsOk {M : Matrix} (h : M.Square) (bit : Cell → Bool) : PlaneRowsOk (M.planeBytes bit) := by
  intro k hk
  have hsplit : k = rowStride * (k / rowStride) + 7 := by simp only [rowStride] at *; omega
  rw [hsplit, M.getD_planeBytes bit _ (by decide)]
  split
  · rename_i hr
    refine BitVec.eq_of_getLsbD_eq fun i hi => ?_
    rw [BitVec.getLsbD_and, getLsbD_rowBytes _ (by decide) hi]
    have hlen : ((M.getD (k / rowStride) []).map bit).length = 57 := by
      rw [List.length_map, h.length_getD (by rw [← h.1]; exact hr)]; rfl
    rcases Nat.eq_zero_or_pos i with rfl | hpos
    · simp
    · rw [List.getD_eq_default _ _ (by rw [hlen]; omega), Bool.false_and]
  · simp

theorem length_natBits (w n : Nat) : (natBits w n).length = w := by simp [natBits]

theorem length_bytesBits (bs : List Byte) : (bytesBits bs).length = 8 * bs.length := by
  induction bs with
  | nil => rfl
  | cons b bs ih =>
    have hcons : bytesBits (b :: bs) = byteBits b ++ bytesBits bs := rfl
    rw [hcons, List.length_append, ih, byteBits, length_natBits, List.length_cons]
    omega

theorem length_payloadBits (v : Nat) (input : List Byte) :
    (payloadBits v input).length = 4 + ccBits v + 8 * input.length := by
  simp [payloadBits, length_natBits, length_bytesBits, add_assoc]

@[simp] theorem length_inputBytes (s : State) : s.inputBytes.length = s.inputLength :=
  Memory.length_load _ _ _

/-- What `PAD` selects: a legal version that holds the input (rule R123). -/
theorem selectVersion_some {L v : Nat} (h : selectVersion L = some v) : (1 ≤ v ∧ v ≤ 10) ∧ L ≤ capOf v := by
  have hmem := List.mem_of_find?_eq_some h
  have hfits := List.find?_some (p := fun u => decide (L ≤ capOf u)) h
  rw [List.mem_range'_1] at hmem
  exact ⟨⟨hmem.1, by omega⟩, by simpa using hfits⟩

/-- A payload of at most the capacity fits the data bits of the version (rule R122), and those are at most 2192. -/
theorem payload_fits {v : Nat} (h : 1 ≤ v ∧ v ≤ 10) :
    4 + ccBits v + 8 * capOf v ≤ 8 * dataCwOf v ∧ 8 * dataCwOf v ≤ 2192 := by
  obtain ⟨hlo, hhi⟩ := h
  interval_cases v <;> decide

theorem length_terminatedBits_le {v : Nat} {input : List Byte} (hv : 1 ≤ v ∧ v ≤ 10) (h : input.length ≤ capOf v) :
    (terminatedBits v input).length ≤ 2192 := by
  have hfits := payload_fits hv
  simp only [terminatedBits, List.length_append, List.length_replicate, length_payloadBits]
  omega

theorem length_zigzag (size : Nat) : (zigzag size).length = (size - 1) / 2 * (size * 2) := by
  simp [zigzag, List.length_flatMap]

/-- No more cells are placed than the matrix has (rule R27). -/
theorem length_placementOrder_le (M : Matrix) {v : Nat} (hv : v ≤ 10) :
    (placementOrder M (symbolSize v)).length ≤ 3249 := by
  calc (placementOrder M (symbolSize v)).length ≤ (zigzag (symbolSize v)).length := List.length_filter_le _ _
    _ = (symbolSize v - 1) / 2 * (symbolSize v * 2) := length_zigzag _
    _ ≤ 28 * 114 := Nat.mul_le_mul (by simp only [symbolSize]; omega) (by simp only [symbolSize]; omega)
    _ ≤ 3249 := by decide

theorem versionWord_mem (v : Nat) : versionWord v = 0 ∨ versionWord v ∈ [7, 8, 9, 10].map versionWord := by
  unfold versionWord
  split <;> simp

theorem formatWord_mem {m : Nat} (h : m < 8) : formatWord m ∈ (List.range 8).map formatWord :=
  List.mem_map_of_mem (List.mem_range.mpr h)

theorem penaltyWord_eq_sum (M : Matrix) (size m : Nat) :
    penaltyWord M size m =
      (penWords M size m)[0] + (penWords M size m)[1] + (penWords M size m)[2] + (penWords M size m)[3] := by
  simp [penaltyWord, totalPenalty, penWords, penalties, BitVec.ofNat_add, ← add_assoc]

/-! Every command is a chain of such writes. -/

theorem CommandWrite.once {s t : State} (h : CommandWrite s t) : CommandWrites s t := Relation.ReflTransGen.single h

theorem ofNat12_le {n k : Nat} (h : n ≤ k) : (BitVec.ofNat 12 n).toNat ≤ k :=
  (Nat.mod_le n _).trans h

theorem padBody_writes (s : State) : CommandWrites s (padBody s).1 := by
  rcases padBody_cases s with ⟨-, e⟩ | ⟨v, hv, e⟩ <;> rw [e]
  obtain ⟨hlegal, hfits⟩ := selectVersion_some hv
  have hlen : (terminatedBits v s.inputBytes).length ≤ 2192 := length_terminatedBits_le hlegal (by simpa using hfits)
  exact ((CommandWrite.once (.buffer .dataCw (bitsBytes (dataCwOf v) (paddedBits v s.inputBytes)) (.inl rfl))).tail
    (.version (BitVec.ofNat 4 v))).tail (.bitlen _ (ofNat12_le hlen))

theorem eccBody_writes (s : State) : CommandWrites s (eccBody s).1 := by
  rcases s.withVersion_cases _ with ⟨-, e⟩ | ⟨-, e⟩ <;> rw [eccBody, e]
  exact .single (.buffer .cw _ (.inr (.inl rfl)))

theorem rsEncodeBody_writes (n : Nat) (s : State) : CommandWrites s (rsEncodeBody n s).1 := by
  rcases rsEncodeBody_cases n s with ⟨-, e⟩ | ⟨-, -, e⟩ | ⟨-, -, e⟩ <;> rw [e]
  exact .single (.buffer .rsOut _ (.inr (.inr rfl)))

theorem storeDark_write (s : State) {M : Matrix} (h : M.Square) : CommandWrite s (s.storeDark M) :=
  .plane .dark _ (h.planeRowsOk _)

theorem storeSet_write (s : State) {M : Matrix} (h : M.Square) : CommandWrite s (s.storeSet M) :=
  .plane .set _ (h.planeRowsOk _)

theorem storeRsv_write (s : State) {M : Matrix} (h : M.Square) : CommandWrite s (s.storeRsv M) :=
  .plane .rsv _ (h.planeRowsOk _)

theorem clearPlanes_writes (s : State) : CommandWrites s s.clearPlanes :=
  ((CommandWrite.once (.plane .dark _ .nil)).tail (.plane .set _ .nil)).tail (.plane .rsv _ .nil)

theorem buildSkeletonBody_writes (s : State) : CommandWrites s (buildSkeletonBody s).1 := by
  rcases s.withVersion_cases _ with ⟨-, e⟩ | ⟨-, e⟩ <;> rw [buildSkeletonBody, e]
  have hsq := Matrix.square_skeleton s.ver
  exact (((CommandWrite.once (storeDark_write _ hsq)).tail (storeSet_write _ hsq)).tail (storeRsv_write _ hsq)).tail
    (.verinfo _ (versionWord_mem _))

theorem placeBody_writes (s : State) : CommandWrites s (placeBody s).1 := by
  rcases placeBody_cases s with ⟨-, e⟩ | ⟨h, -, e⟩ | ⟨h, -, e⟩ <;> rw [e]
  · exact .single (.cellcnt _ (ofNat12_le (length_placementOrder_le _ h.2)))
  · have hsq := s.mem.square_matrix.writeBits (placementOrder s.mem.matrix s.side)
      (placedBits s.ver (s.bufTake .cw (totalCw s.ver)))
    exact ((CommandWrite.once (.cellcnt _ (ofNat12_le (length_placementOrder_le _ h.2)))).tail
      (storeDark_write _ hsq)).tail (storeSet_write _ hsq)

theorem maskSelectBody_writes (s : State) : CommandWrites s (maskSelectBody s).1 := by
  rcases s.withSetCells_cases _ with ⟨-, -, e⟩ | ⟨-, -, e⟩ | ⟨-, e⟩ <;> rw [maskSelectBody, e]
  refine (CommandWrite.once (.mask (BitVec.ofNat 3 (bestMask ((List.range 8).map
    (totalPenalty s.mem.matrix s.side)))))).tail (.penalties _ _ fun m => ?_)
  fin_cases m <;> exact penaltyWord_eq_sum _ _ _

theorem maskApplyBody_writes (mid : Nat) (s : State) : CommandWrites s (maskApplyBody mid s).1 := by
  rcases s.withSetCells_cases _ with ⟨-, -, e⟩ | ⟨-, -, e⟩ | ⟨-, e⟩ <;> rw [maskApplyBody, e]
  exact (CommandWrite.once (storeDark_write _ (s.mem.square_matrix.applyMask _ _))).tail (.mask _)

theorem formatWriteBody_writes (s : State) : CommandWrites s (formatWriteBody s).1 := by
  rcases s.withVersion_cases _ with ⟨-, e⟩ | ⟨-, e⟩ <;> rw [formatWriteBody, e]
  have hsq := s.mem.square_matrix.writeFormat s.side (formatWord s.maskId)
  exact (((CommandWrite.once (storeDark_write _ hsq)).tail (storeSet_write _ hsq)).tail (storeRsv_write _ hsq)).tail
    (.fmt _ (.inr (formatWord_mem s.mask.isLt)))

theorem gfLogBody_writes (s : State) : CommandWrites s (gfLogBody s).1 := by
  rcases gfLogBody_cases s with ⟨-, e⟩ | ⟨i, -, e⟩ <;> rw [e]
  exact .single (.result _)

theorem chooseMask_writes (fm : Bool) (mid : Nat) (s : State) : CommandWrites s (chooseMask fm mid s).1 := by
  cases fm with
  | true => exact .single (.mask _)
  | false => exact maskSelectBody_writes s

/-- A step of `ENCODE` adds its writes to those of the steps before it, or does not run (rule R107). -/
theorem CommandWrites.andThen {s : State} {r : Result} {f : State → Result} (hr : CommandWrites s r.1)
    (hf : ∀ t, CommandWrites t (f t).1) : CommandWrites s (r.andThen f).1 := by
  obtain ⟨t, e⟩ := r
  cases e with
  | none => exact hr.trans (hf t)
  | some e => exact hr

theorem encodeSteps_writes (fm : Bool) (mid : Nat) (s : State) : CommandWrites s (encodeSteps fm mid s).1 :=
  ((((((padBody_writes s).andThen eccBody_writes).andThen buildSkeletonBody_writes).andThen
    placeBody_writes).andThen (chooseMask_writes fm mid)).andThen fun t => maskApplyBody_writes t.maskId t).andThen
    formatWriteBody_writes

theorem CommandWrites.failClosed {s : State} {r : Result} (h : CommandWrites s r.1) :
    CommandWrites s (failClosed r).1 := by
  obtain ⟨t, e⟩ := r
  cases e with
  | none => exact h
  | some e => exact h.trans (clearPlanes_writes t)

/-- Every command but `SOFT_RESET` is a chain of command writes. -/
theorem bodyOf_writes {i : Instr} (hi : i ≠ .softReset) (s : State) : CommandWrites s (bodyOf i s).1 := by
  cases i with
  | softReset => exact absurd rfl hi
  | nop => exact .refl
  | encode fm mid => exact (encodeSteps_writes fm mid s).failClosed
  | gfMul => exact .single (.result _)
  | gfExp => exact .single (.result _)
  | gfLog => exact gfLogBody_writes s
  | pad => exact padBody_writes s
  | ecc => exact eccBody_writes s
  | rsEncode n => exact rsEncodeBody_writes n s
  | buildSkeleton => exact buildSkeletonBody_writes s
  | place => exact placeBody_writes s
  | maskSelect => exact maskSelectBody_writes s
  | maskApply mid => exact maskApplyBody_writes mid s
  | formatWrite => exact formatWriteBody_writes s

/-! The invariant. -/

/-- A write whose bytes set no bit that does not exist keeps memory in order. -/
theorem memoryOk_splice {m : Memory} {a : Nat} {vs : List Byte}
    (h : m.wf = true ∧ ∀ c ∈ m, c.2 &&& byteMask c.1 = c.2)
    (hvs : ∀ x, a ≤ x → x < a + vs.length → vs.getD (x - a) 0 &&& byteMask x = vs.getD (x - a) 0) :
    (m.splice a vs).wf = true ∧ ∀ c ∈ m.splice a vs, c.2 &&& byteMask c.1 = c.2 := by
  refine ⟨Memory.wf_splice a vs h.1, fun c hc => ?_⟩
  rcases Memory.mem_splice hc with hold | ⟨hlo, hhi, hval⟩
  · exact h.2 c hold
  · rw [← hval]; exact hvs c.1 hlo hhi

theorem State.MemoryOk.fillBuf {s : State} (h : s.MemoryOk) (b : Buf) (bytes : List Byte) :
    (s.fillBuf b bytes).MemoryOk := by
  refine memoryOk_splice h fun x hlo hhi => ?_
  rw [length_fitTo] at hhi
  rw [byteMask_eq_presentBits, presentBits_of_buffer (b.bufferByte_of_mem ⟨hlo, hhi⟩)]
  exact BitVec.and_allOnes

theorem State.MemoryOk.fillPlane {s : State} (h : s.MemoryOk) (p : Plane) {bytes : List Byte} (hb : PlaneRowsOk bytes) :
    ({ s with mem := s.mem.fillPlane p bytes } : State).MemoryOk := by
  refine memoryOk_splice h fun x hlo hhi => ?_
  rw [length_fitTo] at hhi
  have hbase := p.base_mod_rowStride
  rw [byteMask_eq_presentBits, presentBits_of_plane (p.planeByte_of_mem ⟨hlo, hhi⟩), getD_fitTo _ _ (by omega)]
  split
  · exact hb _ (by simp only [rowStride] at *; omega)
  · exact BitVec.and_allOnes

theorem CommandWrite.inv {s t : State} (h : CommandWrite s t) (hs : s.Inv) : t.Inv := by
  obtain ⟨hmem, hstatus, hpen, hbitlen, hcells, hver, hfmt⟩ := hs
  cases h with
  | buffer b bytes => exact ⟨hmem.fillBuf b bytes, hstatus, hpen, hbitlen, hcells, hver, hfmt⟩
  | plane p bytes hb => exact ⟨hmem.fillPlane p hb, hstatus, hpen, hbitlen, hcells, hver, hfmt⟩
  | result w => exact ⟨hmem, hstatus, hpen, hbitlen, hcells, hver, hfmt⟩
  | version v => exact ⟨hmem, hstatus, hpen, hbitlen, hcells, hver, hfmt⟩
  | mask m => exact ⟨hmem, hstatus, hpen, hbitlen, hcells, hver, hfmt⟩
  | bitlen n hn => exact ⟨hmem, hstatus, hpen, hn, hcells, hver, hfmt⟩
  | cellcnt n hn => exact ⟨hmem, hstatus, hpen, hbitlen, hn, hver, hfmt⟩
  | verinfo w hw => exact ⟨hmem, hstatus, hpen, hbitlen, hcells, hw, hfmt⟩
  | fmt w hw => exact ⟨hmem, hstatus, hpen, hbitlen, hcells, hver, hw⟩
  | penalties pen penalty hp => exact ⟨hmem, hstatus, hp, hbitlen, hcells, hver, hfmt⟩

theorem CommandWrites.inv {s t : State} (h : CommandWrites s t) (hs : s.Inv) : t.Inv := by
  induction h with
  | refl => exact hs
  | tail _ hw ih => exact hw.inv ih

/-- A change of `STATUS` alone keeps the invariant if the new one is in order. -/
theorem State.Inv.withStatus {s : State} (hs : s.Inv) {t : Status}
    (h : (t.err = false ↔ t.errCode = 0) ∧ t.errCode.toNat ≤ 7) :
    ({ s with status := t } : State).Inv := by
  obtain ⟨hmem, -, hpen, hres⟩ := hs
  exact ⟨hmem, h, hpen, hres⟩

theorem State.Inv.complete {s : State} (hs : s.Inv) (e : Option ErrCode) : (s.complete e).Inv := by
  obtain ⟨-, hstatus, -⟩ := id hs
  refine hs.withStatus ?_
  cases e with
  | none => exact hstatus
  | some e =>
    obtain ⟨hne, hle⟩ := e.bits_range
    exact ⟨iff_of_false nofun hne, hle⟩

/-- Settles O25, by evaluation: reset memory is empty, and every register is 0. -/
theorem resetMeetsTheInvariant : Obligations.ResetMeetsTheInvariant := by
  unfold Obligations.ResetMeetsTheInvariant
  decide

theorem State.inv_hardReset (s : State) : s.hardReset.Inv := resetMeetsTheInvariant

theorem State.Inv.dataPathReset {s : State} (hs : s.Inv) : s.dataPathReset.Inv :=
  (s.inv_hardReset.withStatus hs.2.1 :)

theorem exec_inv {i : Instr} {s t : State} (hs : s.Inv) (h : exec i s = .next t) : t.Inv := by
  rw [exec_eq_finish, finish_eq] at h
  cases h
  refine State.Inv.complete ?_ _
  by_cases hi : i = .softReset
  · subst hi; exact hs.dataPathReset
  · exact (bodyOf_writes hi s).inv hs

theorem sequencerTurn_inv {s t : State} (hs : s.Inv) (h : sequencerTurn s = .next t) : t.Inv := by
  rcases sequencerTurn_cases s with ⟨-, e⟩ | ⟨-, i, -, e⟩ | ⟨-, -, e⟩ <;> rw [e] at h
  · cases h; exact hs
  · exact exec_inv hs h
  · cases h; exact hs.complete _

theorem State.Inv.hostRead {s : State} (hs : s.Inv) (off : Nat) : (s.hostRead off).Inv := by
  rcases hostRead_cases s off with ⟨-, -, e⟩ | ⟨-, e⟩ <;> rw [e] <;> exact hs

/-- A word written to memory is masked, so it sets no bit that does not exist (log 8). -/
theorem State.MemoryOk.writeRam {s : State} (h : s.MemoryOk) (w : Nat) (v : Word) : (s.writeRam w v).MemoryOk := by
  refine memoryOk_splice h fun x hlo hhi => ?_
  simp only [wordBytes, List.zipIdx_cons, List.zipIdx_nil, List.map_cons, List.map_nil, List.length_cons,
    List.length_nil] at hhi ⊢
  obtain ⟨k, rfl⟩ := Nat.exists_eq_add_of_le hlo
  have hk : k < 4 := by omega
  rw [Nat.add_sub_cancel_left]
  interval_cases k <;> simp [BitVec.and_assoc]

theorem StatusOk_cleared {t : Status} (v : Word) (h : (t.err = false ↔ t.errCode = 0) ∧ t.errCode.toNat ≤ 7) :
    ((t.cleared v).err = false ↔ (t.cleared v).errCode = 0) ∧ (t.cleared v).errCode.toNat ≤ 7 := by
  unfold Status.cleared
  cases v.getLsbD 2 with
  | true => simp
  | false => simpa using h

theorem State.Inv.writeWord {s : State} (hs : s.Inv) (off : Nat) (v : Word) : (s.writeWord off v).Inv := by
  obtain ⟨hmem, hstatus, hrest⟩ := id hs
  rcases writeWord_cases s off v with
    ⟨-, e⟩ | ⟨-, e⟩ | ⟨-, e⟩ | ⟨-, e⟩ | ⟨-, e⟩ | ⟨-, e⟩ | ⟨-, e⟩ | ⟨-, e⟩ | ⟨-, e⟩ <;>
    rw [e]
  case inl => exact ⟨hmem, ⟨iff_of_true rfl rfl, Nat.zero_le 7⟩, hrest⟩
  case inr.inl => exact hs.withStatus (StatusOk_cleared v hstatus)
  case inr.inr.inr.inr.inr.inr.inr.inl => exact ⟨hmem.writeRam _ v, hstatus, hrest⟩
  all_goals exact hs

theorem State.Inv.hostWrite {s : State} (hs : s.Inv) (off : Nat) (v : Word) : (s.hostWrite off v).Inv := by
  obtain ⟨-, hstatus, -⟩ := id hs
  rcases hostWrite_cases s off v with ⟨-, -, e⟩ | ⟨-, e⟩ <;> rw [e]
  · exact hs.withStatus hstatus
  · exact hs.writeWord off v

/-- Settles O26, over the five kinds of event: a turn of the sequencer adds the writes of one command and its completion. -/
theorem everyStepKeepsTheInvariant : Obligations.EveryStepKeepsTheInvariant := by
  intro s t hs h
  rcases step_cases s with ⟨-, e⟩ | ⟨es, -, e⟩ | ⟨es, -, e⟩ | ⟨bytes, addr, es, -, e⟩ | ⟨bytes, addr, v, es, -, e⟩ <;>
    rw [e] at h
  · exact sequencerTurn_inv hs h
  · exact sequencerTurn_inv (s := { s with events := es }) hs h
  · cases h; exact State.inv_hardReset _
  · obtain ⟨-, -, rfl⟩ := busAccess_next h
    exact State.Inv.hostRead (s := { s with events := es }) hs addr
  · obtain ⟨-, -, rfl⟩ := busAccess_next h
    exact State.Inv.hostWrite (s := { s with events := es }) hs addr v

/-! What no command writes (rule R40). -/

/-- A byte that some command can write. -/
def commandByte : Nat → Bool :=
  inRanges [(0x600, 0x712), (0x800, 0x95A), (0xB00, 0xB20), (0x1000, 0x11C8), (0x1200, 0x13C8), (0x1400, 0x15C8)]

theorem commandByte_iff (a : Nat) : commandByte a = true ↔
    (0x600 ≤ a ∧ a < 0x712) ∨ (0x800 ≤ a ∧ a < 0x95A) ∨ (0xB00 ≤ a ∧ a < 0xB20) ∨ planeByte a = true := by
  simp [commandByte, planeByte]

/-- What `t` has in common with `s` when `s` is changed by command writes only. -/
structure HostStateKept (s t : State) : Prop where
  cmd : t.cmd = s.cmd
  irqen : t.irqen = s.irqen
  status : t.status = s.status
  events : t.events = s.events
  draws : t.draws = s.draws
  busRead : t.busRead = s.busRead
  arg : t.arg = s.arg
  len : t.len = s.len
  mem : ∀ a, commandByte a = false → t.mem.read a = s.mem.read a

theorem HostStateKept.refl (s : State) : HostStateKept s s := ⟨rfl, rfl, rfl, rfl, rfl, rfl, rfl, rfl, fun _ _ => rfl⟩

theorem HostStateKept.trans {s t u : State} (h : HostStateKept s t) (h' : HostStateKept t u) : HostStateKept s u where
  cmd := h'.cmd.trans h.cmd
  irqen := h'.irqen.trans h.irqen
  status := h'.status.trans h.status
  events := h'.events.trans h.events
  draws := h'.draws.trans h.draws
  busRead := h'.busRead.trans h.busRead
  arg := h'.arg.trans h.arg
  len := h'.len.trans h.len
  mem a ha := (h'.mem a ha).trans (h.mem a ha)

theorem read_fillBuf_of_not_commandByte (s : State) {b : Buf} (hb : b = .dataCw ∨ b = .cw ∨ b = .rsOut) (bytes : List Byte)
    {a : Nat} (ha : commandByte a = false) : (s.fillBuf b bytes).mem.read a = s.mem.read a := by
  rw [s.read_fillBuf, if_neg]
  rw [Bool.eq_false_iff, ne_eq, commandByte_iff] at ha
  rcases hb with rfl | rfl | rfl <;> simp only [Buf.base, Buf.size] <;> omega

theorem read_fillPlane_of_not_commandByte (m : Memory) (p : Plane) (bytes : List Byte) {a : Nat}
    (ha : commandByte a = false) : (m.fillPlane p bytes).read a = m.read a := by
  rw [m.read_fillPlane, if_neg fun h => ?_]
  rw [Bool.eq_false_iff, ne_eq, commandByte_iff] at ha
  exact ha (.inr (.inr (.inr (p.planeByte_of_mem h))))

theorem CommandWrite.hostStateKept {s t : State} (h : CommandWrite s t) : HostStateKept s t := by
  cases h with
  | buffer b bytes hb =>
    exact { HostStateKept.refl s with mem := fun a ha => read_fillBuf_of_not_commandByte s hb bytes ha }
  | plane p bytes hb =>
    exact { HostStateKept.refl s with mem := fun a ha => read_fillPlane_of_not_commandByte s.mem p bytes ha }
  | _ => exact { HostStateKept.refl s with }

theorem CommandWrites.hostStateKept {s t : State} (h : CommandWrites s t) : HostStateKept s t := by
  induction h with
  | refl => exact .refl s
  | tail _ hw ih => exact ih.trans hw.hostStateKept

/-- Settles O10: `SOFT_RESET` by its definition, any other command as a chain of command writes and its completion. -/
theorem commandsKeepTheHostsState : Obligations.CommandsKeepTheHostsState := by
  intro i s t h
  rw [exec_eq_finish, finish_eq] at h
  cases h
  by_cases hi : i = .softReset
  · subst hi
    exact ⟨rfl, rfl, Status.completed_overrun _ _, rfl, rfl, rfl, fun hne => absurd rfl hne⟩
  · have hk := (bodyOf_writes hi s).hostStateKept
    refine ⟨hk.cmd, hk.irqen, ?_, hk.events, hk.draws, hk.busRead, fun _ => ⟨hk.arg, hk.len, hk.mem⟩⟩
    rw [State.complete_status, Status.completed_overrun, hk.status]

/-! `BUSY`, and the steps of the hardware reset. -/

theorem step_of_events_hardReset {s : State} {es : List Event} (h : s.events = .hardReset :: es) :
    step s = .next (State.hardReset { s with events := es }) := by rw [step, h]

theorem step_of_events_read {s : State} {es : List Event} {off : Nat} (hoff : off < 0x4000)
    (h : s.events = .read 4 off :: es) : step s = .next (State.hostRead { s with events := es } off) := by
  rw [step, h]
  exact (if_neg (by decide)).trans (if_neg (by simp only [Config.windowBytes]; omega))

theorem step_of_events_write {s : State} {es : List Event} {off : Nat} {v : Word} (hoff : off < 0x4000)
    (h : s.events = .write 4 off v :: es) : step s = .next (State.hostWrite { s with events := es } off v) := by
  rw [step, h]
  exact (if_neg (by decide)).trans (if_neg (by simp only [Config.windowBytes]; omega))

/-- Settles O24: the step is `hardReset`, whose `STATUS` and `IRQEN` are 0. -/
theorem hardResetEndsEverything : Obligations.HardResetEndsEverything := by
  intro s es h
  rw [step_of_events_hardReset h]
  exact ⟨rfl, fun t ht => by cases ht; rfl⟩

/-- A turn of the sequencer never raises `BUSY`, and ends a running command with `DONE = 1` (rules R18, R102). -/
theorem sequencerTurn_busy {s t : State} (h : sequencerTurn s = .next t) :
    t.status.busy = false ∧ (s.status.busy = true → t.status.done = true) := by
  rcases sequencerTurn_cases s with ⟨hb, e⟩ | ⟨-, i, -, e⟩ | ⟨-, -, e⟩ <;> rw [e] at h
  · cases h; exact ⟨hb, fun hb' => by rw [hb] at hb'; cases hb'⟩
  · rw [exec_eq_finish, finish_eq] at h
    cases h; exact ⟨Status.completed_busy _ _, fun _ => Status.completed_done _ _⟩
  · cases h; exact ⟨Status.completed_busy _ _, fun _ => Status.completed_done _ _⟩

theorem hostRead_status (s : State) (off : Nat) : (s.hostRead off).status = s.status := by
  rcases hostRead_cases s off with ⟨-, -, e⟩ | ⟨-, e⟩ <;> rw [e]

/-- A host write leaves `BUSY` as it is, or is an accepted `CMD` write (rules R18, R37). -/
theorem hostWrite_busy (s : State) (off : Nat) (v : Word) :
    (s.hostWrite off v).status.busy = s.status.busy ∨ (locate off = .cmd ∧ s.hostWrite off v = s.accept v) := by
  rcases hostWrite_cases s off v with ⟨-, -, e⟩ | ⟨-, e⟩ <;> rw [e]
  · exact .inl rfl
  · rcases writeWord_cases s off v with
      ⟨hl, e⟩ | ⟨-, e⟩ | ⟨-, e⟩ | ⟨-, e⟩ | ⟨-, e⟩ | ⟨-, e⟩ | ⟨-, e⟩ | ⟨-, e⟩ | ⟨-, e⟩ <;>
      rw [e]
    case inl => exact .inr ⟨hl, rfl⟩
    all_goals exact .inl rfl

end Sys2Proof.Machine
namespace Sys2Proof.Machine

open Sys2Proof.Ref

/-! The register map, row by row (rule R15): the location at each aligned offset. -/

/-- The location of the word at an aligned offset. -/
inductive RegisterMap : Nat → Loc → Prop
  | id : RegisterMap 0x000 .id
  | cmd : RegisterMap 0x004 .cmd
  | status : RegisterMap 0x008 .status
  | irqen : RegisterMap 0x00C .irqen
  | arg : RegisterMap 0x010 .arg
  | result : RegisterMap 0x014 .result
  | len : RegisterMap 0x018 .len
  | version : RegisterMap 0x01C .version
  | mask : RegisterMap 0x020 .mask
  | fmt : RegisterMap 0x024 .fmt
  | verinfo : RegisterMap 0x028 .verinfo
  | cellcnt : RegisterMap 0x02C .cellcnt
  | bitlen : RegisterMap 0x030 .bitlen
  | penalty (m : Fin 8) : RegisterMap (0x040 + 4 * m) (.penalty m)
  | pen (m : Fin 8) (k : Fin 4) : RegisterMap (0x080 + 16 * m + 4 * k) (.pen m k)
  | ram {w : Nat} (h : writableWord w = true) : RegisterMap w .ram
  | rsOut {w : Nat} (h : 0xB00 ≤ w ∧ w < 0xB20) : RegisterMap w .rsOut
  | reserved {w : Nat} (h : reservedOffset w = true ∨ 0x4000 ≤ w) : RegisterMap w .reserved

theorem writableWord_iff (w : Nat) : writableWord w = true ↔
    (0x400 ≤ w ∧ w < 0x510) ∨ (0x600 ≤ w ∧ w < 0x714) ∨ (0x800 ≤ w ∧ w < 0x95C) ∨ (0xA00 ≤ w ∧ w < 0xB00) ∨
      (0x1000 ≤ w ∧ w < 0x11C8) ∨ (0x1200 ≤ w ∧ w < 0x13C8) ∨ (0x1400 ≤ w ∧ w < 0x15C8) := by
  simp [writableWord]

theorem reservedOffset_iff (w : Nat) : reservedOffset w = true ↔
    (0x034 ≤ w ∧ w < 0x040) ∨ (0x060 ≤ w ∧ w < 0x080) ∨ (0x100 ≤ w ∧ w < 0x400) ∨ (0x510 ≤ w ∧ w < 0x600) ∨
      (0x714 ≤ w ∧ w < 0x800) ∨ (0x95C ≤ w ∧ w < 0xA00) ∨ (0xB20 ≤ w ∧ w < 0x1000) ∨ (0x11C8 ≤ w ∧ w < 0x1200) ∨
      (0x13C8 ≤ w ∧ w < 0x1400) ∨ (0x15C8 ≤ w ∧ w < 0x4000) := by
  simp [reservedOffset]

theorem Buf.holds_of_bufAt {a : Nat} {b : Buf} (h : bufAt a = some b) : b.base ≤ a ∧ a < b.base + b.size := by
  rw [bufAt] at h
  have hb := List.find?_some h
  exact (b.holds_iff a).mp hb

/-- A word of a buffer: of `RS_OUT`, or of a writable one, whose last word may hold bytes past its end. -/
theorem registerMap_buffer {w : Nat} (hw : w % 4 = 0) {b : Buf} (h : bufAt w = some b) :
    (b = .rsOut ∧ 0xB00 ≤ w ∧ w < 0xB20) ∨ (b ≠ .rsOut ∧ writableWord w = true) := by
  have hb := Buf.holds_of_bufAt h
  rw [writableWord_iff]
  cases b <;> simp only [Buf.base, Buf.size] at hb
  case rsOut => exact .inl ⟨rfl, hb⟩
  all_goals exact .inr ⟨nofun, by omega⟩

theorem registerMap_plane {w : Nat} {p : Plane} (h : planeAt w = some p) : writableWord w = true := by
  have hp := p.planeByte_of_mem (Plane.holds_of_planeAt h)
  rw [planeByte_iff] at hp
  rw [writableWord_iff]
  omega

theorem not_bufferByte_of_bufAt {a : Nat} (h : bufAt a = none) : ¬bufferByte a = true := by
  rw [← isSome_bufAt_iff, h]; nofun

theorem not_planeByte_of_planeAt {a : Nat} (h : planeAt a = none) : ¬planeByte a = true := by
  rw [← isSome_planeAt_iff, h]; nofun

theorem registerMap_locOfWord {w : Nat} (hw : w % 4 = 0) : RegisterMap w (locOfWord w) := by
  unfold locOfWord
  split
  case h_14 =>
    simp only [imp_false] at *
    split_ifs with hpenalty hpen
    · have hm : w = 0x040 + 4 * (Fin.ofNat 8 ((w - 0x040) / 4)).val := by simp only [Fin.ofNat]; omega
      exact (congrArg (RegisterMap · _) hm).mpr (.penalty _)
    · have hmk : w = 0x080 + 16 * (Fin.ofNat 8 ((w - 0x080) / 16)).val + 4 * (Fin.ofNat 4 ((w - 0x080) / 4)).val := by
        simp only [Fin.ofNat]; omega
      exact (congrArg (RegisterMap · _) hmk).mpr (.pen _ _)
    · cases hb : bufAt w with
      | some b =>
        rcases registerMap_buffer hw hb with ⟨rfl, hrange⟩ | ⟨hne, hword⟩
        · exact .rsOut hrange
        · cases b
          case rsOut => exact absurd rfl hne
          all_goals exact .ram hword
      | none =>
        have hnb := not_bufferByte_of_bufAt hb
        cases hp : planeAt w with
        | some p => exact .ram (registerMap_plane hp)
        | none =>
          have hnp := not_planeByte_of_planeAt hp
          refine .reserved ?_
          rw [bufferByte_iff] at hnb
          rw [planeByte_iff] at hnp
          rw [reservedOffset_iff]
          omega
  all_goals constructor

theorem registerMap_locate (off : Nat) : RegisterMap (4 * (off / 4)) (locate off) :=
  registerMap_locOfWord (Nat.mul_mod_right 4 _)

theorem locate_of_div {off k : Nat} (h : off / 4 = k) : locate off = locOfWord (4 * k) := by
  rw [locate, wordOffset, h]

theorem statusClear_eq_cleared (v : Word) (t : Status) : statusClear v t = t.cleared v := by
  unfold statusClear Status.cleared
  cases v.getLsbD 1 <;> cases v.getLsbD 2 <;> cases v.getLsbD 3 <;> simp

section
variable {s : State} {off : Nat} {v : Word} {es : List Event}

theorem step_write_of_idle (hoff : off < 0x4000) (h : s.events = .write 4 off v :: es) (hb : s.status.busy = false) :
    step s = .next (State.writeWord { s with events := es } off v) := by
  rw [step_of_events_write hoff h, State.hostWrite, if_neg]
  rw [hb, Bool.false_and]; decide

theorem step_write_of_not_refused (hoff : off < 0x4000) (h : s.events = .write 4 off v :: es)
    (hl : (locate off).refusedBusy = false) : step s = .next (State.writeWord { s with events := es } off v) := by
  rw [step_of_events_write hoff h, State.hostWrite, if_neg]
  rw [hl, Bool.and_false]; decide

theorem step_write_of_refused (hoff : off < 0x4000) (h : s.events = .write 4 off v :: es) (hb : s.status.busy = true)
    (hl : (locate off).refusedBusy = true) : step s = .next (State.refuseWrite { s with events := es }) := by
  rw [step_of_events_write hoff h, State.hostWrite, if_pos]
  rw [hb, hl]; rfl

end

/-! Register writes. -/

/-- Settles O7: the location is `CMD`, which an idle block accepts and a busy one refuses. -/
theorem cmdWriteIssuesTheCommand : Obligations.CmdWriteIssuesTheCommand := by
  intro s off v es hoff h
  have hlt : off < 0x4000 := by omega
  have hl : locate off = .cmd := locate_of_div hoff
  refine ⟨fun hb => ?_, fun hb => ?_⟩
  · rw [step_write_of_idle hlt h hb, State.writeWord, hl]
    rfl
  · rw [step_write_of_refused hlt h hb (by rw [hl]; rfl)]
    rfl

/-- Settles O16: each register by its row of the register map; `STATUS` and `IRQEN` are refused to nobody. -/
theorem registerWritesStoreTheirFields : Obligations.RegisterWritesStoreTheirFields := by
  intro s off v es h
  have row {k : Nat} (hk : off / 4 = k) : locate off = locOfWord (4 * k) := locate_of_div hk
  refine ⟨fun hd => ?status, fun hd => ?irqen, fun hb =>
    ⟨fun hd => ?arg, fun hd => ?len, fun hd => ?version, fun hd => ?mask⟩⟩
  case status =>
    rw [step_write_of_not_refused (by omega) h (by rw [row hd]; rfl), State.writeWord, row hd, statusClear_eq_cleared]
    rfl
  case irqen =>
    rw [step_write_of_not_refused (by omega) h (by rw [row hd]; rfl), State.writeWord, row hd]
    rfl
  all_goals
    rw [step_write_of_idle (by omega) h hb, State.writeWord, row hd]
    rfl

theorem locate_cmd_iff (off : Nat) : locate off = .cmd ↔ off / 4 = 1 := by
  refine ⟨fun h => ?_, locate_of_div⟩
  have hrow := registerMap_locate off
  rw [h] at hrow
  generalize hw : 4 * (off / 4) = w at hrow
  cases hrow
  omega

theorem locate_status_iff (off : Nat) : locate off = .status ↔ 4 * (off / 4) = 0x008 := by
  refine ⟨fun h => ?_, fun h => locate_of_div (k := 2) (by omega)⟩
  have hrow := registerMap_locate off
  rw [h] at hrow
  generalize 4 * (off / 4) = w at hrow
  cases hrow
  rfl

theorem locate_irqen_iff (off : Nat) : locate off = .irqen ↔ 4 * (off / 4) = 0x00C := by
  refine ⟨fun h => ?_, fun h => locate_of_div (k := 3) (by omega)⟩
  have hrow := registerMap_locate off
  rw [h] at hrow
  generalize 4 * (off / 4) = w at hrow
  cases hrow
  rfl

/-- Settles O8, over the five kinds of event: only an accepted `CMD` write raises `BUSY`; only a turn of the sequencer and
the hardware reset drop it. -/
theorem busyFromAcceptanceToCompletion : Obligations.BusyFromAcceptanceToCompletion := by
  intro s t h
  rcases step_cases s with ⟨he, e⟩ | ⟨es, he, e⟩ | ⟨es, he, e⟩ | ⟨bytes, addr, es, he, e⟩ | ⟨bytes, addr, v, es, he, e⟩ <;>
    rw [e] at h
  case inl =>
    obtain ⟨hidle, hdone⟩ := sequencerTurn_busy h
    exact ⟨fun _ hb => absurd (hidle.symm.trans hb) nofun, fun hb _ => .inl ⟨hdone hb, .inl he⟩⟩
  case inr.inl =>
    obtain ⟨hidle, hdone⟩ := sequencerTurn_busy h
    exact ⟨fun _ hb => absurd (hidle.symm.trans hb) nofun, fun hb _ => .inl ⟨hdone hb, .inr ⟨es, he⟩⟩⟩
  case inr.inr.inl =>
    cases h
    exact ⟨fun _ hb => absurd hb nofun, fun _ _ => .inr ⟨es, he⟩⟩
  case inr.inr.inr.inl =>
    obtain ⟨-, -, rfl⟩ := busAccess_next h
    rw [hostRead_status]
    exact ⟨fun h0 h1 => absurd (h0.symm.trans h1) nofun, fun h1 h0 => absurd (h0.symm.trans h1) nofun⟩
  case inr.inr.inr.inr =>
    obtain ⟨rfl, -, rfl⟩ := busAccess_next h
    rcases hostWrite_busy { s with events := es } addr v with hsame | ⟨hl, hacc⟩
    · rw [hsame]
      exact ⟨fun h0 h1 => absurd (h0.symm.trans h1) nofun, fun h1 h0 => absurd (h0.symm.trans h1) nofun⟩
    · rw [hacc]
      exact ⟨fun _ _ => ⟨addr, v, es, he, (locate_cmd_iff addr).mp hl, rfl⟩, fun _ h0 => absurd h0 nofun⟩

/-- The rows that hold nothing a host write can change (rules R16, R39). -/
theorem writeWord_of_readOnly {off : Nat} (h : (locate off).refusedBusy = false) (hstatus : locate off ≠ .status)
    (hirqen : locate off ≠ .irqen) (s : State) (v : Word) : s.writeWord off v = s := by
  rcases writeWord_cases s off v with
    ⟨hl, -⟩ | ⟨hl, -⟩ | ⟨hl, -⟩ | ⟨hl, -⟩ | ⟨hl, -⟩ | ⟨hl, -⟩ | ⟨hl, -⟩ | ⟨hl, -⟩ | ⟨-, e⟩
  case inr.inl => exact absurd hl hstatus
  case inr.inr.inl => exact absurd hl hirqen
  case inr.inr.inr.inr.inr.inr.inr.inr => exact e
  all_goals
    rw [hl] at h
    exact absurd h nofun

/-- The locations whose write is refused while `BUSY = 1`, by offset (rule R70). -/
theorem RegisterMap.refusedBusy_iff {w : Nat} {l : Loc} (h : RegisterMap w l) : l.refusedBusy = true ↔
    w = 0x004 ∨ w = 0x010 ∨ w = 0x018 ∨ w = 0x01C ∨ w = 0x020 ∨ writableWord w = true := by
  cases h with
  | ram hw => exact iff_of_true rfl (.inr (.inr (.inr (.inr (.inr hw)))))
  | penalty | pen | rsOut => exact iff_of_false nofun (by rw [writableWord_iff]; omega)
  | reserved hw =>
    rw [reservedOffset_iff] at hw
    exact iff_of_false nofun (by rw [writableWord_iff]; omega)
  | _ => decide

/-- The locations whose read is defined while `BUSY = 1`, by offset (rule R70). -/
theorem RegisterMap.readableBusy_iff {w : Nat} {l : Loc} (h : RegisterMap w l) (hlt : w < 0x4000) : l.readableBusy = true ↔
    w = 0x000 ∨ w = 0x004 ∨ w = 0x008 ∨ w = 0x00C ∨ reservedOffset w = true := by
  cases h with
  | reserved hw => exact iff_of_true rfl (.inr (.inr (.inr (.inr (hw.resolve_right (by omega))))))
  | penalty | pen | rsOut => exact iff_of_false nofun (by rw [reservedOffset_iff]; omega)
  | ram hw =>
    rw [writableWord_iff] at hw
    exact iff_of_false nofun (by rw [reservedOffset_iff]; omega)
  | _ => decide

/-- Settles O18: each of these offsets is in a row that is refused to nobody and holds nothing to write. -/
theorem readOnlyAndReservedWritesAreIgnored : Obligations.ReadOnlyAndReservedWritesAreIgnored := by
  intro s off v es hoff h
  have hrow := registerMap_locate off
  have hranges : off / 4 = 0 ∨ off / 4 = 5 ∨
      ((0x024 ≤ off ∧ off < 0x034) ∨ (0x040 ≤ off ∧ off < 0x060) ∨ (0x080 ≤ off ∧ off < 0x100) ∨
        (0xB00 ≤ off ∧ off < 0xB20)) ∨ reservedOffset off = true := by
    simpa using hoff
  rw [reservedOffset_iff] at hranges
  have hrefused : (locate off).refusedBusy = false := by
    rw [Bool.eq_false_iff, ne_eq, hrow.refusedBusy_iff, writableWord_iff]
    omega
  have hstatus : locate off ≠ .status := by rw [ne_eq, locate_status_iff]; omega
  have hirqen : locate off ≠ .irqen := by rw [ne_eq, locate_irqen_iff]; omega
  rw [step_write_of_not_refused (by omega) h hrefused, writeWord_of_readOnly hrefused hstatus hirqen]

end Sys2Proof.Machine
namespace Sys2Proof.Machine

open Sys2Proof.Ref

/-! Words of the buffers and planes. -/

theorem getLsbD_wordOfBytes (b0 b1 b2 b3 : Byte) {k i : Nat} (hk : k < 4) (hi : i < 8) :
    (wordOfBytes b0 b1 b2 b3).getLsbD (8 * k + i) = ([b0, b1, b2, b3].getD k 0).getLsbD i := by
  change (b3 ++ b2 ++ b1 ++ b0 : BitVec (8 + 8 + 8 + 8)).getLsbD (8 * k + i) = _
  simp only [BitVec.getLsbD_append]
  interval_cases k
  · simp [hi]
  · rw [if_neg (by omega), if_pos (by omega), show 8 * 1 + i - 8 = i by omega]
    rfl
  · rw [if_neg (by omega), if_neg (by omega), if_pos (by omega), show 8 * 2 + i - 8 - 8 = i by omega]
    rfl
  · rw [if_neg (by omega), if_neg (by omega), if_neg (by omega), show 8 * 3 + i - 8 - 8 - 8 = i by omega]
    rfl

/-- Bit `b` of a bus word is bit `b mod 8` of byte `b div 8` (rule R60). -/
theorem getLsbD_ramWord (s : State) (w : Nat) {b : Nat} (hb : b < 32) :
    (s.ramWord w).getLsbD b = (s.ramByte (w + b / 8)).getLsbD (b % 8) := by
  obtain ⟨k, i, hk, hi, rfl⟩ : ∃ k i, k < 4 ∧ i < 8 ∧ b = 8 * k + i := ⟨b / 8, b % 8, by omega, by omega, by omega⟩
  rw [show (8 * k + i) / 8 = k by omega, show (8 * k + i) % 8 = i by omega, State.ramWord, getLsbD_wordOfBytes _ _ _ _ hk hi]
  interval_cases k <;> rfl

theorem ramByte_toNat (s : State) (a : Nat) : (s.ramByte a).toNat = byteAt s a := by
  rw [byteAt, State.ramByte, byteMask_eq_presentBits]

theorem toNat_wordOfBytes (b0 b1 b2 b3 : Byte) :
    (wordOfBytes b0 b1 b2 b3).toNat = b0.toNat + 256 * b1.toNat + 65536 * b2.toNat + 16777216 * b3.toNat := by
  simp only [wordOfBytes, BitVec.toNat_append]
  rw [← Nat.shiftLeft_add_eq_or_of_lt b0.isLt, ← Nat.shiftLeft_add_eq_or_of_lt b1.isLt,
    ← Nat.shiftLeft_add_eq_or_of_lt b2.isLt]
  simp only [Nat.shiftLeft_eq]
  omega

theorem ramWord_eq_wordAt (s : State) (w : Nat) : s.ramWord w = wordAt s w := by
  refine BitVec.eq_of_toNat_eq ?_
  have hlt := (s.ramWord w).isLt
  rw [State.ramWord, toNat_wordOfBytes] at *
  simp only [ramByte_toNat] at *
  rw [wordAt, BitVec.toNat_ofNat, Nat.mod_eq_of_lt hlt]

theorem status_word_eq (t : Status) : t.word = statusWord t := by
  obtain ⟨busy, done, err, overrun, code⟩ := t
  cases busy <;> cases done <;> cases err <;> cases overrun <;> revert code <;> decide

theorem wordBytes_getD (v : Word) {k : Nat} (hk : k < 4) :
    (wordBytes v).getD k 0 = (v >>> (8 * k)).setWidth 8 := by
  refine BitVec.eq_of_getLsbD_eq fun i hi => ?_
  interval_cases k <;> simp [wordBytes, hi]

/-- Rows of `n` registers, one after the other: register `k` of row `i`. -/
theorem getD_flatMap_toList {n : Nat} (l : List (Vector Word n)) {i k : Nat} (hi : i < l.length) (hk : k < n) :
    (l.flatMap Vector.toList).getD (n * i + k) 0 = l[i][k] := by
  induction l generalizing i with
  | nil => exact absurd hi (Nat.not_lt_zero i)
  | cons v l ih =>
    rw [List.flatMap_cons, List.getD_eq_getElem?_getD]
    cases i with
    | zero =>
      rw [List.getElem?_append_left (by simp; omega)]
      simp [hk]
    | succ i =>
      rw [List.getElem?_append_right (by simp only [Vector.length_toList, Nat.mul_succ]; omega), Vector.length_toList,
        show n * (i + 1) + k - n = n * i + k by rw [Nat.mul_succ]; omega, ← List.getD_eq_getElem?_getD]
      exact ih (by simpa using hi)

/-! What each row of the register map reads as. -/

/-- Past the single registers, a word is reserved, a penalty, or a word of memory. -/
theorem readDefined_of_ge (s : State) {w : Nat} (h : 0x034 ≤ w) : readDefined s w =
    if reservedOffset w then 0
    else if 0x040 ≤ w ∧ w < 0x060 then s.penalty.toList.getD ((w - 0x040) / 4) 0
    else if 0x080 ≤ w ∧ w < 0x100 then (s.pen.toList.flatMap Vector.toList).getD ((w - 0x080) / 4) 0
    else wordAt s w := by
  rw [readDefined]
  iterate 13 rw [if_neg (by omega)]

theorem readDefined_penalty (s : State) (m : Fin 8) : readDefined s (0x040 + 4 * m) = s.penalty[m] := by
  have hm := m.isLt
  rw [readDefined_of_ge s (by omega), if_neg (by rw [reservedOffset_iff]; omega), if_pos (by omega),
    show (0x040 + 4 * m.val - 0x040) / 4 = m by omega]
  simp

theorem readDefined_pen (s : State) (m : Fin 8) (k : Fin 4) :
    readDefined s (0x080 + 16 * m + 4 * k) = s.pen[m][k] := by
  have hm := m.isLt
  have hk := k.isLt
  rw [readDefined_of_ge s (by omega), if_neg (by rw [reservedOffset_iff]; omega), if_neg (by omega), if_pos (by omega),
    show (0x080 + 16 * m.val + 4 * k.val - 0x080) / 4 = 4 * m + k by omega,
    getD_flatMap_toList _ (by simp) hk]
  simp

theorem readDefined_memory (s : State) {w : Nat} (h : writableWord w = true ∨ (0xB00 ≤ w ∧ w < 0xB20)) :
    readDefined s w = s.ramWord w := by
  rw [writableWord_iff] at h
  rw [readDefined_of_ge s (by omega), if_neg (by rw [reservedOffset_iff]; omega), if_neg (by omega), if_neg (by omega),
    ramWord_eq_wordAt]

theorem readDefined_reserved (s : State) {w : Nat} (h : reservedOffset w = true) : readDefined s w = 0 := by
  have hw := (reservedOffset_iff w).mp h
  rw [readDefined_of_ge s (by omega), if_pos h]

/-- A read of the window gives what the register map gives. -/
theorem readWord_eq_readDefined (s : State) {off : Nat} (hoff : off < 0x4000) :
    s.readWord off = readDefined s (4 * (off / 4)) := by
  have hrow := registerMap_locate off
  have hlt : 4 * (off / 4) < 0x4000 := by omega
  unfold State.readWord wordOffset
  generalize 4 * (off / 4) = w at *
  generalize locate off = l at *
  cases hrow with
  | status => exact status_word_eq _
  | penalty m => exact (readDefined_penalty s m).symm
  | pen m k => exact (readDefined_pen s m k).symm
  | ram h => exact (readDefined_memory s (.inl h)).symm
  | rsOut h => exact (readDefined_memory s (.inr h)).symm
  | reserved h => exact (readDefined_reserved s (h.resolve_right (by omega))).symm
  | _ => rfl

theorem step_read_of_idle {s : State} {off : Nat} {es : List Event} (hoff : off < 0x4000)
    (h : s.events = .read 4 off :: es) (hb : s.status.busy = false) :
    step s = .next { s with events := es, busRead := s.readWord off } := by
  rw [step_of_events_read hoff h, State.hostRead, if_neg (by rw [hb, Bool.false_and]; decide)]
  rfl

/-- Settles O14: the word read is that of the row of the register map. -/
theorem idleReadsFollowTheRegisterMap : Obligations.IdleReadsFollowTheRegisterMap := by
  intro s off es hoff hb h
  rw [step_read_of_idle hoff h hb, readWord_eq_readDefined s hoff]

/-- A read while `BUSY = 1` is defined in the rows that the table of rule R70 names. -/
theorem hostRead_eq_readBusy {s : State} (hb : s.status.busy = true) {off : Nat} (hoff : off < 0x4000) :
    s.hostRead off = readBusy s (4 * (off / 4)) := by
  have hiff := (registerMap_locate off).readableBusy_iff (by omega)
  unfold readBusy
  rcases hostRead_cases s off with ⟨-, hl, e⟩ | ⟨hl, e⟩ <;> rw [e]
  · rw [if_neg (by rw [← hiff, hl]; decide)]
  · rw [if_pos (hiff.mp (hl.resolve_left (by rw [hb]; decide))), readWord_eq_readDefined s hoff]

/-- A write while `BUSY = 1` is taken by `STATUS` and `IRQEN`, refused by the inputs, and ignored elsewhere (rule R70). -/
theorem hostWrite_eq_writeBusy {s : State} (hb : s.status.busy = true) (off : Nat) (v : Word) :
    s.hostWrite off v = writeBusy s (4 * (off / 4)) v := by
  have hrow := registerMap_locate off
  unfold writeBusy
  rcases hostWrite_cases s off v with ⟨-, hl, e⟩ | ⟨hl, e⟩ <;> rw [e]
  · have hw := hrow.refusedBusy_iff.mp hl
    have hw' := hw
    rw [writableWord_iff] at hw'
    rw [if_neg (by omega), if_neg (by omega), if_pos hw]
    rfl
  · replace hl := hl.resolve_left (by rw [hb]; decide)
    by_cases hs : locate off = .status
    · rw [if_pos ((locate_status_iff off).mp hs), State.writeWord, hs, statusClear_eq_cleared]
    · by_cases hi : locate off = .irqen
      · rw [if_neg (mt (locate_status_iff off).mpr hs), if_pos ((locate_irqen_iff off).mp hi), State.writeWord, hi]
      · rw [if_neg (mt (locate_status_iff off).mpr hs), if_neg (mt (locate_irqen_iff off).mpr hi),
          if_neg (by rw [← hrow.refusedBusy_iff, hl]; decide), writeWord_of_readOnly hl hs hi]

/-- Settles O12: the table of rule R70 for reads, and for writes. -/
theorem busyAccessesFollowTheTable : Obligations.BusyAccessesFollowTheTable := by
  intro s off v es hoff hb
  refine ⟨fun h => ?_, fun h => ?_⟩
  · rw [step_of_events_read hoff h, hostRead_eq_readBusy (s := { s with events := es }) hb hoff]
  · rw [step_of_events_write hoff h, hostWrite_eq_writeBusy (s := { s with events := es }) hb]

theorem getLsbD_byte_one {i : Nat} (hi : i < 8) : (0x01 : Byte).getLsbD i = decide (i = 0) := by
  interval_cases i <;> rfl

theorem getLsbD_byte_allOnes {i : Nat} (hi : i < 8) : (0xFF : Byte).getLsbD i = true := by
  interval_cases i <;> rfl

/-- Settles O15: bit `b` of the word is bit `b mod 8` of its byte `b div 8`, which is where the plane holds column
`32*h + b`. -/
theorem planeWordsHoldTheCells : Obligations.PlaneWordsHoldTheCells := by
  intro s p r h es hr hh hb he
  have hbase : p.base % 8 = 0 := p.base_mod_rowStride
  have hlt : p.base ≤ 0x1400 := by cases p <;> decide
  have hstride : rowStride * r = 8 * r := rfl
  have hin (k : Nat) (hk : k < 4) : planeByte (p.base + 8 * r + 4 * h + k) = true :=
    p.planeByte_of_mem ⟨by omega, by simp only [planeBytes]; omega⟩
  have hword : writableWord (p.base + 8 * r + 4 * h) = true := by
    have := hin 0 (by omega)
    rw [planeByte_iff] at this
    rw [writableWord_iff]; omega
  refine ⟨_, step_read_of_idle (by omega) he hb, fun b hb32 => ?_⟩
  rw [readWord_eq_readDefined s (by omega), show 4 * ((p.base + 8 * r + 4 * h) / 4) = p.base + 8 * r + 4 * h by omega,
    readDefined_memory s (.inl hword), getLsbD_ramWord s _ hb32, State.ramByte, BitVec.getLsbD_and,
    byteMask_eq_presentBits, presentBits_of_plane (hin _ (by omega)), Memory.planeBit,
    show p.base + rowStride * r + (32 * h + b) / 8 = p.base + 8 * r + 4 * h + b / 8 by omega,
    show (32 * h + b) % 8 = b % 8 by omega, Bool.and_comm]
  congr 1
  split
  · rw [getLsbD_byte_one (by omega)]
    exact decide_eq_decide.mpr (by omega)
  · rw [getLsbD_byte_allOnes (by omega)]
    exact (decide_eq_true (by omega)).symm

theorem RegisterMap.eq_ram {w : Nat} {l : Loc} (h : RegisterMap w l) (hw : writableWord w = true) : l = .ram := by
  rw [writableWord_iff] at hw
  cases h with
  | ram h => rfl
  | reserved h => rw [reservedOffset_iff] at h; omega
  | _ => omega

theorem getD_maskedBytes (v : Word) (w : Nat) {k : Nat} (hk : k < 4) :
    ((wordBytes v).zipIdx.map fun b => b.1 &&& byteMask (w + b.2)).getD k 0 =
      (v >>> (8 * k)).setWidth 8 &&& presentBits (w + k) := by
  rw [← wordBytes_getD v hk, ← byteMask_eq_presentBits]
  interval_cases k <;> rfl

theorem read_writeRam (s : State) (w : Nat) (v : Word) (a : Nat) : (s.writeRam w v).mem.read a =
    if w ≤ a ∧ a < w + 4 then (v >>> (8 * (a - w))).setWidth 8 &&& presentBits a else s.mem.read a := by
  rw [State.writeRam_mem, Memory.read_splice]
  refine if_ctx_congr Iff.rfl (fun h => ?_) fun _ => rfl
  rw [getD_maskedBytes v w (by omega), Nat.add_sub_of_le h.1]

/-- Settles O17: the write is one `splice` of the word's bytes, masked by the bits that exist. -/
theorem memoryWritesStoreTheWord : Obligations.MemoryWritesStoreTheWord := by
  intro s off v es hword hb h
  have hlt := (writableWord_iff _).mp hword
  have hl : locate off = .ram := (registerMap_locate off).eq_ram hword
  refine ⟨(s.writeRam (4 * (off / 4)) v).mem, ?_, read_writeRam s _ v⟩
  rw [step_write_of_idle (by omega) h hb, State.writeWord, hl]
  rfl

end Sys2Proof.Machine
namespace Sys2Proof.Machine

open Sys2Proof.Ref

/-! The matrix: equality by cells, what the planes hold after a matrix is stored, and a run of cell changes. -/

/-- Square matrices with the same cells are equal. -/
theorem Matrix.Square.ext {M M' : Matrix} (h : M.Square) (h' : M'.Square)
    (hcell : ∀ r c, r < planeSide → c < planeSide → M.cell r c = M'.cell r c) : M = M' := by
  refine List.ext_getElem (h.1.trans h'.1.symm) fun r hr hr' => ?_
  have hrow : M[r].length = planeSide := h.2 _ (List.getElem_mem hr)
  have hrow' : M'[r].length = planeSide := h'.2 _ (List.getElem_mem hr')
  refine List.ext_getElem (hrow.trans hrow'.symm) fun c hc hc' => ?_
  have e := hcell r c (h.1 ▸ hr) (hrow ▸ hc)
  simpa [Matrix.cell, List.getD_eq_getElem?_getD, hr, hr', hc, hc'] using e

/-- A square matrix is what the planes hold when each plane holds its bits. -/
theorem Memory.matrix_eq {m : Memory} {M : Matrix} (h : M.Square)
    (hset : ∀ r c, r < planeSide → c < planeSide → m.planeBit .set r c = (M.cell r c).set)
    (hdark : ∀ r c, r < planeSide → c < planeSide → m.planeBit .dark r c = (M.cell r c).dark)
    (hrsv : ∀ r c, r < planeSide → c < planeSide → m.planeBit .rsv r c = (M.cell r c).rsv) : m.matrix = M :=
  m.square_matrix.ext h fun r c hr hc => by
    rw [m.cell_matrix hr hc, hset r c hr hc, hdark r c hr hc, hrsv r c hr hc]

theorem Memory.planeBit_set_eq (m : Memory) {r c : Nat} (hr : r < planeSide) (hc : c < planeSide) :
    m.planeBit .set r c = (m.matrix.cell r c).set := by rw [m.cell_matrix hr hc]

theorem Memory.planeBit_rsv_eq (m : Memory) {r c : Nat} (hr : r < planeSide) (hc : c < planeSide) :
    m.planeBit .rsv r c = (m.matrix.cell r c).rsv := by rw [m.cell_matrix hr hc]

/-- Write all three planes, as `BUILD_SKELETON` and `FORMAT_WRITE` do. -/
def State.storePlanes (M : Matrix) (s : State) : State := ((s.storeDark M).storeSet M).storeRsv M

theorem State.matrix_storePlanes (s : State) {M : Matrix} (h : M.Square) : (s.storePlanes M).mem.matrix = M := by
  refine Memory.matrix_eq h (fun r c hr hc => ?_) (fun r c hr hc => ?_) fun r c hr hc => ?_
  · rw [State.storePlanes, State.storeRsv_mem, Memory.planeBit_fillPlane_of_ne _ (by decide) _ hr hc, State.storeSet_mem,
      Memory.planeBit_fillPlane _ _ h _ hr hc]
  · rw [State.storePlanes, State.storeRsv_mem, Memory.planeBit_fillPlane_of_ne _ (by decide) _ hr hc, State.storeSet_mem,
      Memory.planeBit_fillPlane_of_ne _ (by decide) _ hr hc, State.storeDark_mem, Memory.planeBit_fillPlane _ _ h _ hr hc]
  · rw [State.storePlanes, State.storeRsv_mem, Memory.planeBit_fillPlane _ _ h _ hr hc]

/-- Storing the dark and the set plane of a matrix with the reserved cells of memory stores it (rule R211). -/
theorem State.matrix_storeDark_storeSet (s : State) {M : Matrix} (h : M.Square)
    (hrsv : ∀ r c, r < planeSide → c < planeSide → (M.cell r c).rsv = (s.mem.matrix.cell r c).rsv) :
    ((s.storeDark M).storeSet M).mem.matrix = M := by
  refine Memory.matrix_eq h (fun r c hr hc => ?_) (fun r c hr hc => ?_) fun r c hr hc => ?_
  · rw [State.storeSet_mem, Memory.planeBit_fillPlane _ _ h _ hr hc]
  · rw [State.storeSet_mem, Memory.planeBit_fillPlane_of_ne _ (by decide) _ hr hc, State.storeDark_mem,
      Memory.planeBit_fillPlane _ _ h _ hr hc]
  · rw [State.storeSet_mem, Memory.planeBit_fillPlane_of_ne _ (by decide) _ hr hc, State.storeDark_mem,
      Memory.planeBit_fillPlane_of_ne _ (by decide) _ hr hc, s.mem.planeBit_rsv_eq hr hc, hrsv r c hr hc]

/-- Storing the dark plane of a matrix that differs from memory in dark bits only stores it (rule R234). -/
theorem State.matrix_storeDark (s : State) {M : Matrix} (h : M.Square)
    (hrsv : ∀ r c, r < planeSide → c < planeSide → (M.cell r c).rsv = (s.mem.matrix.cell r c).rsv)
    (hset : ∀ r c, r < planeSide → c < planeSide → (M.cell r c).set = (s.mem.matrix.cell r c).set) :
    (s.storeDark M).mem.matrix = M := by
  refine Memory.matrix_eq h (fun r c hr hc => ?_) (fun r c hr hc => ?_) fun r c hr hc => ?_
  · rw [State.storeDark_mem, Memory.planeBit_fillPlane_of_ne _ (by decide) _ hr hc, s.mem.planeBit_set_eq hr hc,
      hset r c hr hc]
  · rw [State.storeDark_mem, Memory.planeBit_fillPlane _ _ h _ hr hc]
  · rw [State.storeDark_mem, Memory.planeBit_fillPlane_of_ne _ (by decide) _ hr hc, s.mem.planeBit_rsv_eq hr hc,
      hrsv r c hr hc]

theorem Memory.read_fillPlane_of_not_planeByte (m : Memory) (p : Plane) (bytes : List Byte) {a : Nat}
    (ha : planeByte a = false) : (m.fillPlane p bytes).read a = m.read a := by
  rw [m.read_fillPlane, if_neg fun h => ?_]
  rw [p.planeByte_of_mem h] at ha
  cases ha

theorem State.read_storePlanes_of_not_planeByte (s : State) (M : Matrix) {a : Nat} (ha : planeByte a = false) :
    (s.storePlanes M).mem.read a = s.mem.read a := by
  rw [State.storePlanes, State.storeRsv_mem, Memory.read_fillPlane_of_not_planeByte _ _ _ ha, State.storeSet_mem,
    Memory.read_fillPlane_of_not_planeByte _ _ _ ha, State.storeDark_mem,
    Memory.read_fillPlane_of_not_planeByte _ _ _ ha]

/-- The bytes of the planes after a matrix is stored are those of the matrix, whatever memory held. -/
theorem State.read_storePlanes_congr (s s' : State) (M : Matrix) {a : Nat} (ha : planeByte a = true) :
    (s.storePlanes M).mem.read a = (s'.storePlanes M).mem.read a := by
  rw [planeByte_iff] at ha
  simp only [State.storePlanes, State.storeRsv_mem, State.storeSet_mem, State.storeDark_mem, Memory.read_fillPlane]
  refine if_ctx_congr Iff.rfl (fun _ => rfl) fun hrsv => if_ctx_congr Iff.rfl (fun _ => rfl) fun hset => ?_
  have hdark : Plane.dark.base ≤ a ∧ a < Plane.dark.base + planeBytes := by
    simp only [Plane.base, planeBytes] at *
    omega
  rw [if_pos hdark, if_pos hdark]

/-! A cell after a run of changes holds what the changes at that cell make of it, in order. -/

/-- Change cells one after the other, each at a place and in a way of its own. -/
def Matrix.updateAll {α : Type} (at_ : α → Nat × Nat) (f : α → Cell → Cell) (M : Matrix) (ps : List α) : Matrix :=
  ps.foldl (fun M p => M.update (at_ p).1 (at_ p).2 (f p)) M

theorem Matrix.cell_updateAll {α : Type} {at_ : α → Nat × Nat} {f : α → Cell → Cell} {M : Matrix} (h : M.Square)
    {ps : List α} (hin : ∀ p ∈ ps, (at_ p).1 < planeSide ∧ (at_ p).2 < planeSide) (r c : Nat) :
    (M.updateAll at_ f ps).cell r c = (ps.filter fun p => at_ p = (r, c)).foldl (fun x p => f p x) (M.cell r c) := by
  induction ps generalizing M with
  | nil => rfl
  | cons p ps ih =>
    obtain ⟨hr, hc⟩ := hin p (List.mem_cons_self ..)
    have hstep := Matrix.cell_update h hr hc (f p) r c
    have htail := ih (h.update (at_ p).1 (at_ p).2 (f p)) fun q hq => hin q (List.mem_cons_of_mem p hq)
    rw [hstep] at htail
    refine htail.trans ?_
    by_cases he : at_ p = (r, c)
    · rw [List.filter_cons_of_pos (by simpa using he), if_pos (by rw [he]; exact ⟨rfl, rfl⟩)]
      rfl
    · rw [List.filter_cons_of_neg (by simpa using he), if_neg fun hh => he (Prod.ext hh.1.symm hh.2.symm)]

/-- A property that a change can only give, never take, holds after a run of changes iff it held or some change is made. -/
theorem foldl_eq_or {α : Type} {f : α → Cell → Cell} {get : Cell → Bool} (ps : List α)
    (hgive : ∀ p ∈ ps, ∀ x, get (f p x) = true) (x : Cell) :
    get (ps.foldl (fun x p => f p x) x) = (get x || !ps.isEmpty) := by
  induction ps generalizing x with
  | nil => simp
  | cons p ps ih =>
    rw [List.foldl_cons, ih fun q hq => hgive q (List.mem_cons_of_mem p hq), hgive p (List.mem_cons_self ..)]
    simp

/-- A property that no change touches. -/
theorem foldl_eq_self {α : Type} {f : α → Cell → Cell} {get : Cell → Bool} (ps : List α)
    (hkeep : ∀ p ∈ ps, ∀ x, get (f p x) = get x) (x : Cell) : get (ps.foldl (fun x p => f p x) x) = get x := by
  induction ps generalizing x with
  | nil => rfl
  | cons p ps ih =>
    rw [List.foldl_cons, ih fun q hq => hkeep q (List.mem_cons_of_mem p hq), hkeep p (List.mem_cons_self ..)]

theorem isEmpty_filter_at {α : Type} (at_ : α → Nat × Nat) (ps : List α) (q : Nat × Nat) :
    (!(ps.filter fun p => at_ p = q).isEmpty) = decide (q ∈ ps.map at_) := by
  rw [Bool.eq_iff_iff]
  simp

end Sys2Proof.Machine
namespace Sys2Proof.Machine

open Sys2Proof.Ref

/-! The cells that the skeleton reserves, and those it leaves unset (rules R180 to R193). -/

/-- The place of a placement. -/
def placeOf (p : Placement) : Nat × Nat := (p.1, p.2.1)

/-- What a placement makes of its cell. -/
def placeCell (p : Placement) (x : Cell) : Cell :=
  match p.2.2 with
  | some d => x.put d
  | none => x.reserve

theorem skeleton_eq_updateAll (v : Nat) : skeleton v = Matrix.blank.updateAll placeOf placeCell (placements v) := rfl

theorem placeCell_rsv (p : Placement) (x : Cell) : (placeCell p x).rsv = true := by
  unfold placeCell Cell.put Cell.reserve
  cases p.2.2 <;> cases hx : x.rsv <;> simp [hx]

theorem mem_finderPattern {r0 c0 r c : Nat} : (r, c) ∈ (finderPattern r0 c0).map placeOf ↔
    (r0 ≤ r ∧ r < r0 + 7) ∧ c0 ≤ c ∧ c < c0 + 7 := by
  simp only [finderPattern, placeOf, List.map_flatMap, List.map_map, List.mem_flatMap, List.mem_map, List.mem_range,
    Function.comp_apply, Prod.mk.injEq]
  constructor
  · rintro ⟨dr, hdr, dc, hdc, rfl, rfl⟩; omega
  · rintro ⟨hr, hc⟩; exact ⟨r - r0, by omega, c - c0, by omega, by omega, by omega⟩

/-- The border of the 9 by 9 square (rule R186). -/
theorem ringOf_four_iff : ∀ dr < 9, ∀ dc < 9, ringOf 4 dr dc = 4 ↔ dr = 0 ∨ dr = 8 ∨ dc = 0 ∨ dc = 8 := by decide

theorem mem_separatorBorder {size r0 c0 r c : Nat} : (r, c) ∈ (separatorBorder size r0 c0).map placeOf ↔
    (r < size ∧ c < size) ∧ (r0 ≤ r + 1 ∧ r ≤ r0 + 7) ∧ (c0 ≤ c + 1 ∧ c ≤ c0 + 7) ∧
      (r + 1 = r0 ∨ r = r0 + 7 ∨ c + 1 = c0 ∨ c = c0 + 7) := by
  simp only [separatorBorder, placeOf, List.map_flatMap, List.mem_flatMap, List.mem_map, List.mem_filterMap,
    List.mem_range, Option.ite_none_right_eq_some, Option.some.injEq]
  constructor
  · rintro ⟨dr, hdr, p, ⟨dc, hdc, hin, rfl⟩, hp⟩
    obtain ⟨rfl, rfl⟩ := Prod.mk.inj hp
    rw [ringOf_four_iff dr hdr dc hdc] at hin
    simp only
    omega
  · rintro ⟨hin, hr, hc, hborder⟩
    refine ⟨r + 1 - r0, by omega, _, ⟨c + 1 - c0, by omega, ?_, rfl⟩, Prod.ext (by simp only; omega) (by simp only; omega)⟩
    rw [ringOf_four_iff _ (by omega) _ (by omega)]
    omega

/-- A finder with its separator covers the 9 by 9 square around it, inside the symbol. -/
theorem mem_finder {size r0 c0 r c : Nat} (hr0 : r0 + 7 ≤ size) (hc0 : c0 + 7 ≤ size) :
    (r, c) ∈ (finderPattern r0 c0 ++ separatorBorder size r0 c0).map placeOf ↔
      (r < size ∧ c < size) ∧ (r0 ≤ r + 1 ∧ r ≤ r0 + 7) ∧ c0 ≤ c + 1 ∧ c ≤ c0 + 7 := by
  rw [List.map_append, List.mem_append, mem_finderPattern, mem_separatorBorder]
  omega

theorem mem_finders {size r c : Nat} (hsize : 7 ≤ size) : (r, c) ∈ (finders size).map placeOf ↔
    (r < size ∧ c < size) ∧ ((r ≤ 7 ∧ c ≤ 7) ∨ (r ≤ 7 ∧ size ≤ c + 8) ∨ (size ≤ r + 8 ∧ c ≤ 7)) := by
  have h0 : 0 + 7 ≤ size := by omega
  have hs : size - 7 + 7 ≤ size := by omega
  simp only [finders, List.flatMap_cons, List.flatMap_nil, List.append_nil, List.map_append (l₁ := _ ++ _), List.mem_append,
    mem_finder h0 h0, mem_finder h0 hs, mem_finder hs h0, and_or_left]
  exact or_congr (by omega) (or_congr (by omega) (by omega))

theorem mem_timing {size r c : Nat} : (r, c) ∈ (timing size).map placeOf ↔
    (r = 6 ∧ 8 ≤ c ∧ c + 8 < size) ∨ (c = 6 ∧ 8 ≤ r ∧ r + 8 < size) := by
  simp only [timing, placeOf, List.map_flatMap, List.mem_flatMap, List.mem_range'_1, List.map_cons, List.map_nil,
    List.mem_cons, List.not_mem_nil, or_false, Prod.mk.injEq]
  constructor
  · rintro ⟨j, hj, ⟨rfl, rfl⟩ | ⟨rfl, rfl⟩⟩ <;> omega
  · rintro (⟨rfl, hc⟩ | ⟨rfl, hr⟩)
    · exact ⟨c, by omega, .inl ⟨rfl, rfl⟩⟩
    · exact ⟨r, by omega, .inr ⟨rfl, rfl⟩⟩

theorem mem_alignPattern {ar ac r c : Nat} (har : 2 ≤ ar) (hac : 2 ≤ ac) : (r, c) ∈ (alignPattern ar ac).map placeOf ↔
    (ar ≤ r + 2 ∧ r ≤ ar + 2) ∧ ac ≤ c + 2 ∧ c ≤ ac + 2 := by
  simp only [alignPattern, placeOf, List.map_flatMap, List.map_map, List.mem_flatMap, List.mem_map, List.mem_range,
    Function.comp_apply, Prod.mk.injEq]
  constructor
  · rintro ⟨dr, hdr, dc, hdc, rfl, rfl⟩; omega
  · rintro ⟨hr, hc⟩; exact ⟨r + 2 - ar, by omega, c + 2 - ac, by omega, by omega, by omega⟩

/-- The cells of both format strips (rule R191). -/
def formatCells (size : Nat) : List (Nat × Nat) := (List.range 15).flatMap fun i => [fpos1 i, fpos2 size i]

theorem map_placeOf_formatAreas (size : Nat) : (formatAreas size).map placeOf = formatCells size := by
  simp [formatAreas, formatCells, placeOf, List.map_flatMap]

theorem formatStrip1_cells : (∀ p ∈ formatStrip1, (p.2 = 8 ∧ p.1 ≤ 8 ∧ p.1 ≠ 6) ∨ (p.1 = 8 ∧ p.2 ≤ 8 ∧ p.2 ≠ 6)) ∧
    (∀ r < 9, r ≠ 6 → (r, 8) ∈ formatStrip1) ∧ ∀ c < 9, c ≠ 6 → (8, c) ∈ formatStrip1 := by decide

theorem exists_fpos1_eq {r c : Nat} : (∃ i, i < 15 ∧ fpos1 i = (r, c)) ↔
    (c = 8 ∧ r ≤ 8 ∧ r ≠ 6) ∨ (r = 8 ∧ c ≤ 8 ∧ c ≠ 6) := by
  have hstrip : (List.range 15).map fpos1 = formatStrip1 := by decide
  have hmem : (∃ i, i < 15 ∧ fpos1 i = (r, c)) ↔ (r, c) ∈ formatStrip1 := by rw [← hstrip]; simp
  obtain ⟨hinto, hcol, hrow⟩ := formatStrip1_cells
  rw [hmem]
  constructor
  · exact hinto (r, c)
  · rintro (⟨rfl, hr, h6⟩ | ⟨rfl, hc, h6⟩)
    · exact hcol r (by omega) h6
    · exact hrow c (by omega) h6

theorem exists_fpos2_eq {size r c : Nat} (hsize : 15 ≤ size) : (∃ i, i < 15 ∧ fpos2 size i = (r, c)) ↔
    (r = 8 ∧ size ≤ c + 8 ∧ c < size) ∨ (c = 8 ∧ size ≤ r + 7 ∧ r < size) := by
  unfold fpos2
  constructor
  · rintro ⟨i, hi, h⟩
    split at h <;> obtain ⟨rfl, rfl⟩ := Prod.mk.inj h <;> omega
  · rintro (⟨rfl, hc⟩ | ⟨rfl, hr⟩)
    · exact ⟨size - 1 - c, by omega, by rw [if_pos (by omega)]; exact Prod.ext rfl (by simp only; omega)⟩
    · exact ⟨r + 15 - size, by omega, by rw [if_neg (by omega)]; exact Prod.ext (by simp only; omega) rfl⟩

theorem mem_formatCells {size r c : Nat} (hsize : 15 ≤ size) : (r, c) ∈ formatCells size ↔
    (c = 8 ∧ ((r ≤ 8 ∧ r ≠ 6) ∨ (size ≤ r + 7 ∧ r < size))) ∨ (r = 8 ∧ ((c ≤ 8 ∧ c ≠ 6) ∨ (size ≤ c + 8 ∧ c < size))) := by
  have hsplit : (r, c) ∈ formatCells size ↔
      (∃ i, i < 15 ∧ fpos1 i = (r, c)) ∨ ∃ i, i < 15 ∧ fpos2 size i = (r, c) := by
    simp only [formatCells, List.mem_flatMap, List.mem_range, List.mem_cons, List.not_mem_nil, or_false, and_or_left,
      exists_or, eq_comm (a := (r, c))]
  rw [hsplit, exists_fpos1_eq, exists_fpos2_eq hsize]
  omega

theorem mem_versionAreas {v size r c : Nat} (hsize : 11 ≤ size) : (r, c) ∈ (versionAreas v size).map placeOf ↔
    7 ≤ v ∧ ((r < 6 ∧ size ≤ c + 11 ∧ c + 9 ≤ size) ∨ (c < 6 ∧ size ≤ r + 11 ∧ r + 9 ≤ size)) := by
  unfold versionAreas
  split
  · simp only [placeOf, List.map_flatMap, List.mem_flatMap, List.mem_range, List.map_cons, List.map_nil,
      List.mem_cons, List.not_mem_nil, or_false, Prod.mk.injEq]
    constructor
    · rintro ⟨i, hi, ⟨rfl, rfl⟩ | ⟨rfl, rfl⟩⟩ <;> omega
    · rintro ⟨-, h | h⟩
      · exact ⟨3 * r + (c + 11 - size), by omega, .inl ⟨by omega, by omega⟩⟩
      · exact ⟨3 * c + (r + 11 - size), by omega, .inr ⟨by omega, by omega⟩⟩
  · simp only [List.map_nil, List.not_mem_nil, false_iff]
    omega

theorem alignCentres_eq_centres {v : Nat} (hv : 1 ≤ v ∧ v ≤ 10) : alignCentres v = centres v := by
  obtain ⟨hlo, hhi⟩ := hv
  interval_cases v <;> decide

/-- The alignment centres lie inside the symbol, with their patterns. -/
theorem centres_range {v : Nat} (hv : 1 ≤ v ∧ v ≤ 10) :
    ∀ p ∈ centres v, (2 ≤ p.1 ∧ p.1 + 2 < symbolSize v) ∧ 2 ≤ p.2 ∧ p.2 + 2 < symbolSize v := by
  obtain ⟨hlo, hhi⟩ := hv
  interval_cases v <;> decide

theorem inFormatArea_iff {size r c : Nat} : inFormatArea size r c = true ↔
    (r = 8 ∧ (c ≤ 8 ∨ size - 8 ≤ c)) ∨ (c = 8 ∧ (r ≤ 8 ∨ size - 7 ≤ r)) := by
  simp [inFormatArea]

/-- Chebyshev distance at most `k` (rules R184, R188). -/
theorem ring_le_iff {r c ar ac k : Nat} : max (gap r ar) (gap c ac) ≤ k ↔
    (ar ≤ r + k ∧ r ≤ ar + k) ∧ ac ≤ c + k ∧ c ≤ ac + k := by
  simp only [gap]
  omega

/-- A cell that the alignment patterns cover. -/
def nearCentre (v r c : Nat) : Prop := ∃ p ∈ centres v, (p.1 ≤ r + 2 ∧ r ≤ p.1 + 2) ∧ p.2 ≤ c + 2 ∧ c ≤ p.2 + 2

theorem nearCentre_iff_any (v r c : Nat) :
    ((centres v).any fun p => decide (max (gap r p.1) (gap c p.2) ≤ 2)) = true ↔ nearCentre v r c := by
  simp only [List.any_eq_true, decide_eq_true_eq, nearCentre, ring_le_iff]

/-- The cells that the patterns of rule R192 reserve: finders with separators, timing lines, alignment patterns, format
strips, the dark module, version areas. -/
def patternCell (v size r c : Nat) : Prop :=
  (r < size ∧ c < size) ∧
    ((r ≤ 7 ∧ c ≤ 7) ∨ (r ≤ 7 ∧ size ≤ c + 8) ∨ (size ≤ r + 8 ∧ c ≤ 7) ∨ r = 6 ∨ c = 6 ∨ nearCentre v r c ∨
      (r = 8 ∧ (c ≤ 8 ∨ size ≤ c + 8)) ∨ (c = 8 ∧ (r ≤ 8 ∨ size ≤ r + 7)) ∨ (r + 8 = size ∧ c = 8) ∨
      (7 ≤ v ∧ r < 6 ∧ size ≤ c + 11 ∧ c + 9 ≤ size) ∨ (7 ≤ v ∧ c < 6 ∧ size ≤ r + 11 ∧ r + 9 ≤ size))

theorem skeletonCell_rsv_iff (v r c : Nat) : (skeletonCell v r c).rsv = true ↔ patternCell v (symbolSize v) r c := by
  have hnear := nearCentre_iff_any v r c
  have harea := inFormatArea_iff (size := 17 + 4 * v) (r := r) (c := c)
  have hin : ¬(17 + 4 * v ≤ r ∨ 17 + 4 * v ≤ c) ↔ r < 17 + 4 * v ∧ c < 17 + 4 * v := by omega
  unfold skeletonCell patternCell
  simp only [fixed, apply_ite Cell.rsv, hnear, harea, Bool.if_true_left, Bool.if_false_left, Bool.or_eq_true,
    Bool.and_eq_true, decide_eq_true_eq, Bool.not_eq_true', decide_eq_false_iff_not, Bool.or_false]
  simp only [ring_le_iff, symbolSize, hin, or_assoc]
  refine and_congr_right fun hlt => or_congr (by omega) (or_congr (by omega) (or_congr (by omega) (or_congr Iff.rfl
    (or_congr Iff.rfl (or_congr Iff.rfl (or_congr (by omega) (or_congr (by omega) (or_congr (by omega)
    (or_congr (by omega) (by omega))))))))))

/-- The placements of the skeleton cover the cells of its patterns, and no other. -/
theorem mem_placements {v r c : Nat} (hv : 1 ≤ v ∧ v ≤ 10) :
    (r, c) ∈ (placements v).map placeOf ↔ patternCell v (symbolSize v) r c := by
  have hsize : 21 ≤ symbolSize v := by simp only [symbolSize]; omega
  have halign : (r, c) ∈ ((centres v).flatMap fun p => alignPattern p.1 p.2).map placeOf ↔ nearCentre v r c := by
    simp only [List.map_flatMap, List.mem_flatMap, nearCentre]
    refine exists_congr fun p => and_congr_right fun hp => ?_
    have := centres_range hv p hp
    exact mem_alignPattern this.1.1 this.2.1
  have hinside : nearCentre v r c → r < symbolSize v ∧ c < symbolSize v := fun ⟨p, hp, hnear⟩ => by
    have := centres_range hv p hp
    omega
  have hdark : (r, c) ∈ (darkModule (symbolSize v)).map placeOf ↔ r + 8 = symbolSize v ∧ c = 8 := by
    simp only [darkModule, placeOf, List.map_cons, List.map_nil, List.mem_singleton, Prod.mk.injEq]
    omega
  simp only [placements, List.map_append, List.mem_append, mem_finders (by omega : 7 ≤ symbolSize v), mem_timing,
    alignCentres_eq_centres hv, halign, map_placeOf_formatAreas, hdark, mem_versionAreas (by omega : 11 ≤ symbolSize v),
    patternCell, mem_formatCells (by omega : 15 ≤ symbolSize v), or_assoc]
  generalize symbolSize v = size at *
  constructor
  · rintro (⟨hlt, h | h | h⟩ | h | h | h | h | h | h | ⟨h7, h | h⟩)
    · exact ⟨hlt, .inl h⟩
    · exact ⟨hlt, .inr (.inl h)⟩
    · exact ⟨hlt, .inr (.inr (.inl h))⟩
    · exact ⟨by omega, .inr (.inr (.inr (.inl h.1)))⟩
    · exact ⟨by omega, .inr (.inr (.inr (.inr (.inl h.1))))⟩
    · exact ⟨hinside h, .inr (.inr (.inr (.inr (.inr (.inl h)))))⟩
    · exact ⟨by omega, .inr (.inr (.inr (.inr (.inr (.inr (.inr (.inl ⟨h.1, by omega⟩)))))))⟩
    · exact ⟨by omega, .inr (.inr (.inr (.inr (.inr (.inr (.inl ⟨h.1, by omega⟩))))))⟩
    · exact ⟨by omega, .inr (.inr (.inr (.inr (.inr (.inr (.inr (.inr (.inl h))))))))⟩
    · exact ⟨by omega, .inr (.inr (.inr (.inr (.inr (.inr (.inr (.inr (.inr (.inl ⟨h7, h⟩)))))))))⟩
    · exact ⟨by omega, .inr (.inr (.inr (.inr (.inr (.inr (.inr (.inr (.inr (.inr (⟨h7, h⟩))))))))))⟩
  · have hline (h6 : r = 6 ∨ c = 6) (hlt : r < size ∧ c < size) :
        ((r < size ∧ c < size) ∧ ((r ≤ 7 ∧ c ≤ 7) ∨ (r ≤ 7 ∧ size ≤ c + 8) ∨ (size ≤ r + 8 ∧ c ≤ 7))) ∨
          (r = 6 ∧ 8 ≤ c ∧ c + 8 < size) ∨ (c = 6 ∧ 8 ≤ r ∧ r + 8 < size) := by omega
    rintro ⟨hlt, h | h | h | h | h | h | h | h | h | h | h⟩
    · exact .inl ⟨hlt, .inl h⟩
    · exact .inl ⟨hlt, .inr (.inl h)⟩
    · exact .inl ⟨hlt, .inr (.inr h)⟩
    · exact (hline (.inl h) hlt).imp_right fun h => h.imp_right Or.inl
    · exact (hline (.inr h) hlt).imp_right fun h => h.imp_right Or.inl
    · exact .inr (.inr (.inr (.inl h)))
    · by_cases h6 : c = 6
      · exact (hline (.inr h6) hlt).imp_right fun h => h.imp_right Or.inl
      · exact .inr (.inr (.inr (.inr (.inr (.inl ⟨h.1, by omega⟩)))))
    · by_cases h6 : r = 6
      · exact (hline (.inl h6) hlt).imp_right fun h => h.imp_right Or.inl
      · exact .inr (.inr (.inr (.inr (.inl ⟨h.1, by omega⟩))))
    · exact .inr (.inr (.inr (.inr (.inr (.inr (.inl h))))))
    · exact .inr (.inr (.inr (.inr (.inr (.inr (.inr ⟨h.1, .inl h.2⟩))))))
    · exact .inr (.inr (.inr (.inr (.inr (.inr (.inr ⟨h.1, .inr h.2⟩))))))

/-! The cells of the skeleton, and the order over it (rules R181, R210). -/

theorem patternCell_lt {v size r c : Nat} (h : patternCell v size r c) : r < size ∧ c < size := h.1

theorem symbolSize_le {v : Nat} (hv : v ≤ 10) : symbolSize v ≤ planeSide := by simp only [symbolSize, planeSide]; omega

theorem placements_inside {v : Nat} (hv : 1 ≤ v ∧ v ≤ 10) :
    ∀ p ∈ placements v, (placeOf p).1 < planeSide ∧ (placeOf p).2 < planeSide := fun p hp => by
  have hpat := (mem_placements (r := (placeOf p).1) (c := (placeOf p).2) hv).mp (List.mem_map_of_mem hp)
  have hlt := patternCell_lt hpat
  have hsize := symbolSize_le hv.2
  omega

theorem cell_blank (r c : Nat) : Matrix.blank.cell r c = Cell.blank := by
  simp only [Matrix.cell, Matrix.blank, List.getD_eq_getElem?_getD, List.getElem?_replicate]
  split
  · simp only [Option.getD_some, List.getElem?_replicate]
    split <;> rfl
  · rfl

theorem cell_skeleton {v : Nat} (hv : 1 ≤ v ∧ v ≤ 10) (r c : Nat) : (skeleton v).cell r c =
    ((placements v).filter fun p => placeOf p = (r, c)).foldl (fun x p => placeCell p x) Cell.blank := by
  rw [skeleton_eq_updateAll, Matrix.cell_updateAll Matrix.square_blank (placements_inside hv), cell_blank]

/-- The reserved cells of the model's skeleton are those of the reference form. -/
theorem skeleton_rsv {v : Nat} (hv : 1 ≤ v ∧ v ≤ 10) (r c : Nat) :
    ((skeleton v).cell r c).rsv = (skeletonCell v r c).rsv := by
  rw [cell_skeleton hv, foldl_eq_or (get := Cell.rsv) _ fun p _ x => placeCell_rsv p x, isEmpty_filter_at,
    Bool.eq_iff_iff, skeletonCell_rsv_iff, ← mem_placements hv]
  simp [Cell.blank]

theorem skeleton_rsv_iff {v : Nat} (hv : 1 ≤ v ∧ v ≤ 10) (r c : Nat) :
    ((skeleton v).cell r c).rsv = true ↔ patternCell v (symbolSize v) r c := by
  rw [skeleton_rsv hv, skeletonCell_rsv_iff]

theorem placeCell_set {p : Placement} (hp : p.2.2 ≠ none) {x : Cell} (hx : x.rsv = true → x.set = true) :
    (placeCell p x).set = true := by
  obtain ⟨d, hd⟩ := Option.ne_none_iff_exists'.mp hp
  simp only [placeCell, hd, Cell.put]
  split
  · exact hx ‹_›
  · rfl

/-- Placements of modules leave no reserved cell without a value. -/
theorem foldl_placeCell_set (ps : List Placement) (hps : ∀ p ∈ ps, p.2.2 ≠ none) (x : Cell)
    (hx : x.rsv = true → x.set = true) :
    (ps.foldl (fun x p => placeCell p x) x).rsv = true → (ps.foldl (fun x p => placeCell p x) x).set = true := by
  induction ps generalizing x with
  | nil => exact hx
  | cons p ps ih =>
    exact ih (fun q hq => hps q (List.mem_cons_of_mem p hq)) (placeCell p x)
      fun _ => placeCell_set (hps p (List.mem_cons_self ..)) hx

theorem finderPattern_module {r0 c0 : Nat} : ∀ p ∈ finderPattern r0 c0, p.2.2 ≠ none := by
  intro p hp
  simp only [finderPattern, List.mem_flatMap, List.mem_map] at hp
  obtain ⟨dr, -, dc, -, rfl⟩ := hp
  nofun

theorem separatorBorder_module {size r0 c0 : Nat} : ∀ p ∈ separatorBorder size r0 c0, p.2.2 ≠ none := by
  intro p hp
  simp only [separatorBorder, List.mem_flatMap, List.mem_filterMap, Option.ite_none_right_eq_some, Option.some.injEq] at hp
  obtain ⟨dr, -, dc, -, -, rfl⟩ := hp
  nofun

theorem finders_module {size : Nat} : ∀ p ∈ finders size, p.2.2 ≠ none := by
  intro p hp
  obtain ⟨q, -, hq⟩ := List.mem_flatMap.mp hp
  exact (List.mem_append.mp hq).elim (finderPattern_module p) (separatorBorder_module p)

theorem timing_module {size : Nat} : ∀ p ∈ timing size, p.2.2 ≠ none := by
  intro p hp
  obtain ⟨j, -, hj⟩ := List.mem_flatMap.mp hp
  fin_cases hj <;> nofun

theorem alignPattern_module {ar ac : Nat} : ∀ p ∈ alignPattern ar ac, p.2.2 ≠ none := by
  intro p hp
  simp only [alignPattern, List.mem_flatMap, List.mem_map] at hp
  obtain ⟨dr, -, dc, -, rfl⟩ := hp
  nofun

theorem versionAreas_module {v size : Nat} : ∀ p ∈ versionAreas v size, p.2.2 ≠ none := by
  intro p hp
  unfold versionAreas at hp
  split at hp
  · obtain ⟨i, -, hi⟩ := List.mem_flatMap.mp hp
    fin_cases hi <;> nofun
  · cases hp

/-- Only the format areas are reserved without a module (rule R191). -/
theorem placements_module {v : Nat} {p : Placement} (hp : p ∈ placements v)
    (hformat : placeOf p ∉ formatCells (symbolSize v)) : p.2.2 ≠ none := by
  simp only [placements, List.mem_append, List.mem_flatMap] at hp
  rcases hp with ((((h | h) | ⟨q, -, h⟩) | h) | h) | h
  · exact finders_module p h
  · exact timing_module p h
  · exact alignPattern_module p h
  · exact absurd (map_placeOf_formatAreas _ ▸ List.mem_map_of_mem h) hformat
  · cases List.mem_singleton.mp h; nofun
  · exact versionAreas_module p h

/-- A reserved cell outside the format strips has its value (rule R181). -/
theorem skeleton_set_of_rsv {v : Nat} (hv : 1 ≤ v ∧ v ≤ 10) {r c : Nat} (hformat : (r, c) ∉ formatCells (symbolSize v))
    (hrsv : ((skeleton v).cell r c).rsv = true) : ((skeleton v).cell r c).set = true := by
  rw [cell_skeleton hv] at *
  refine foldl_placeCell_set _ (fun p hp => ?_) _ nofun hrsv
  obtain ⟨hmem, hat⟩ := List.mem_filter.mp hp
  exact placements_module hmem (by rw [of_decide_eq_true hat]; exact hformat)

/-- A cell outside the symbol is as the blank matrix has it. -/
theorem skeleton_outside {v : Nat} (hv : 1 ≤ v ∧ v ≤ 10) {r c : Nat} (hout : ¬(r < symbolSize v ∧ c < symbolSize v)) :
    (skeleton v).cell r c = Cell.blank := by
  rw [cell_skeleton hv, List.filter_eq_nil_iff.mpr fun p hp => ?_]
  · rfl
  · rw [decide_eq_true_eq]
    intro hat
    exact hout (patternCell_lt ((mem_placements hv).mp (hat ▸ List.mem_map_of_mem hp)))

/-- The strips of the format word lie in reserved cells. -/
theorem patternCell_of_formatCells {v r c : Nat} (hv : 1 ≤ v ∧ v ≤ 10) (h : (r, c) ∈ formatCells (symbolSize v)) :
    patternCell v (symbolSize v) r c := by
  rw [← mem_placements hv, placements]
  simp only [List.map_append, List.mem_append, map_placeOf_formatAreas, h, or_true, true_or]

theorem rightColumn_of_left {size p : Nat} (h : size - 1 - 2 * p ≤ 6) : rightColumn size p = size - 1 - 2 * p - 1 :=
  if_pos h

theorem rightColumn_of_right {size p : Nat} (h : ¬size - 1 - 2 * p ≤ 6) : rightColumn size p = size - 1 - 2 * p :=
  if_neg h

/-- The column pairs cover every column but the timing column 6 (rule R210). -/
theorem exists_rightColumn_iff {size c : Nat} (hodd : size % 2 = 1) (hsize : 9 ≤ size) :
    (∃ p, p < (size - 1) / 2 ∧ (c = rightColumn size p ∨ c = rightColumn size p - 1)) ↔ c < size ∧ c ≠ 6 := by
  constructor
  · rintro ⟨p, hp, h⟩
    by_cases hleft : size - 1 - 2 * p ≤ 6
    · rw [rightColumn_of_left hleft] at h; omega
    · rw [rightColumn_of_right hleft] at h; omega
  · rintro ⟨hc, h6⟩
    rcases Nat.lt_or_ge c 6 with hleft | hright
    · exact ⟨(size - 3 - 2 * (c / 2)) / 2, by omega, by rw [rightColumn_of_left (by omega)]; omega⟩
    · exact ⟨(size - 1 - 2 * ((c + 1) / 2)) / 2, by omega, by rw [rightColumn_of_right (by omega)]; omega⟩

/-- The rows of a column pair, upward or downward, are all the rows. -/
theorem exists_zigzagRow_iff {size p r : Nat} :
    (∃ k, k < size ∧ r = if p % 2 = 0 then size - 1 - k else k) ↔ r < size := by
  constructor
  · rintro ⟨k, hk, rfl⟩
    split <;> omega
  · intro hr
    by_cases hp : p % 2 = 0
    · exact ⟨size - 1 - r, by omega, by rw [if_pos hp]; omega⟩
    · exact ⟨r, hr, by rw [if_neg hp]⟩

/-- The walk visits every cell of the symbol but those of column 6 (rule R210). -/
theorem mem_zigzag {v r c : Nat} : (r, c) ∈ zigzag (symbolSize v) ↔
    (r < symbolSize v ∧ c < symbolSize v) ∧ c ≠ 6 := by
  rw [and_assoc, ← exists_rightColumn_iff (by simp only [symbolSize]; omega) (by simp only [symbolSize]; omega)]
  simp only [zigzag, List.mem_flatMap, List.mem_range, List.mem_cons, List.not_mem_nil, or_false, Prod.mk.injEq,
    ← and_or_left]
  constructor
  · rintro ⟨p, hp, k, hk, hr, hc⟩
    exact ⟨exists_zigzagRow_iff.mp ⟨k, hk, hr⟩, p, hp, hc⟩
  · rintro ⟨hr, p, hp, hc⟩
    obtain ⟨k, hk, hrow⟩ := (exists_zigzagRow_iff (p := p)).mpr hr
    exact ⟨p, hp, k, hk, hrow, hc⟩

/-- The order visits exactly the unreserved cells of the symbol, column 6 being reserved. -/
theorem mem_placementOrder_skeleton {v : Nat} (hv : 1 ≤ v ∧ v ≤ 10) {r c : Nat} :
    (r, c) ∈ placementOrder (skeleton v) (symbolSize v) ↔
      (r < symbolSize v ∧ c < symbolSize v) ∧ ((skeleton v).cell r c).rsv = false := by
  have hcol (hlt : r < symbolSize v ∧ c < symbolSize v) (hrsv : ((skeleton v).cell r c).rsv = false) : c ≠ 6 := fun h6 => by
    rw [Bool.eq_false_iff, ne_eq, skeleton_rsv_iff hv] at hrsv
    exact hrsv ⟨hlt, .inr (.inr (.inr (.inr (.inl h6))))⟩
  simp only [placementOrder, List.mem_filter, mem_zigzag, Bool.not_eq_true']
  exact ⟨fun ⟨⟨hlt, _⟩, hrsv⟩ => ⟨hlt, hrsv⟩, fun ⟨hlt, hrsv⟩ => ⟨⟨hlt, hcol hlt hrsv⟩, hrsv⟩⟩

/-! The placed bits, the mask and the format word, cell by cell (rules R211, R220, R238). -/

/-- Writing bits gives every cell of the order a value and reserves none. -/
theorem cell_writeBits {M : Matrix} (h : M.Square) {order : List (Nat × Nat)} {bits : List Bool}
    (hlen : order.length ≤ bits.length) (hin : ∀ p ∈ order, p.1 < planeSide ∧ p.2 < planeSide) (r c : Nat) :
    ((M.writeBits order bits).cell r c).rsv = (M.cell r c).rsv ∧
      ((M.writeBits order bits).cell r c).set = ((M.cell r c).set || decide ((r, c) ∈ order)) := by
  have hall : M.writeBits order bits = M.updateAll Prod.fst (fun p => Cell.write p.2) (order.zip bits) := rfl
  rw [hall, Matrix.cell_updateAll h fun p hp => hin p.1 (List.of_mem_zip hp).1]
  refine ⟨foldl_eq_self (f := fun p : (Nat × Nat) × Bool => Cell.write p.2) (get := Cell.rsv) _ (fun _ _ _ => rfl) _, ?_⟩
  rw [foldl_eq_or (get := Cell.set) _ fun p _ x => rfl, isEmpty_filter_at, List.map_fst_zip hlen]

/-- The format word gives both strips a value and reserves them. -/
theorem cell_writeFormat {M : Matrix} (h : M.Square) {v : Nat} (hv : 1 ≤ v ∧ v ≤ 10) (w : BitVec 15) (r c : Nat) :
    ((M.writeFormat (symbolSize v) w).cell r c).rsv = ((M.cell r c).rsv || decide ((r, c) ∈ formatCells (symbolSize v))) ∧
      ((M.writeFormat (symbolSize v) w).cell r c).set =
        ((M.cell r c).set || decide ((r, c) ∈ formatCells (symbolSize v))) := by
  have hall : M.writeFormat (symbolSize v) w = M.updateAll Prod.fst (fun p => Cell.force p.2)
      ((List.range 15).flatMap fun i => [(fpos1 i, w.getLsbD i), (fpos2 (symbolSize v) i, w.getLsbD i)]) := by
    simp [Matrix.writeFormat, Matrix.updateAll, List.foldl_flatMap]
  have hpos : ((List.range 15).flatMap fun i => [(fpos1 i, w.getLsbD i), (fpos2 (symbolSize v) i, w.getLsbD i)]).map
      Prod.fst = formatCells (symbolSize v) := by
    simp [formatCells, List.map_flatMap]
  have hin : ∀ p ∈ (List.range 15).flatMap fun i => [(fpos1 i, w.getLsbD i), (fpos2 (symbolSize v) i, w.getLsbD i)],
      p.1.1 < planeSide ∧ p.1.2 < planeSide := fun p hp => by
    have hmem : p.1 ∈ formatCells (symbolSize v) := hpos ▸ List.mem_map_of_mem hp
    have hlt := patternCell_lt (patternCell_of_formatCells (r := p.1.1) (c := p.1.2) hv hmem)
    have hsize := symbolSize_le hv.2
    omega
  rw [hall, Matrix.cell_updateAll h hin]
  constructor
  · rw [foldl_eq_or (get := Cell.rsv) _ fun p _ x => rfl, isEmpty_filter_at, hpos]
  · rw [foldl_eq_or (get := Cell.set) _ fun p _ x => rfl, isEmpty_filter_at, hpos]

theorem Cell.masked_rsv (sel : Bool) (x : Cell) : (x.masked sel).rsv = x.rsv := by
  unfold Cell.masked
  split <;> rfl

theorem Cell.masked_set {x : Cell} (h : x.rsv = true ∨ x.set = true) (sel : Bool) : (x.masked sel).set = x.set := by
  unfold Cell.masked
  split
  · rename_i hsel
    rw [Bool.and_eq_true, Bool.not_eq_true'] at hsel
    exact (h.resolve_left (by rw [hsel.1]; nofun)).symm
  · rfl

/-- A mask reserves no cell, and gives no cell a value when every unreserved one of the symbol has one. -/
theorem cell_applyMask {M : Matrix} (h : M.Square) {size : Nat} (m : Nat)
    (hset : ∀ r c, r < size → c < size → (M.cell r c).rsv = true ∨ (M.cell r c).set = true) {r c : Nat}
    (hr : r < planeSide) (hc : c < planeSide) :
    ((M.applyMask size m).cell r c).rsv = (M.cell r c).rsv ∧ ((M.applyMask size m).cell r c).set = (M.cell r c).set := by
  rw [Matrix.applyMask, Matrix.cell_mapInside h _ _ hr hc]
  split
  · rename_i hlt
    exact ⟨Cell.masked_rsv _ _, Cell.masked_set (hset r c hlt.1 hlt.2) _⟩
  · exact ⟨rfl, rfl⟩

/-- What `inside` lists of a matrix: its cells in the symbol, with their places. -/
theorem Matrix.mem_inside {M : Matrix} {size : Nat} {row : List (Nat × Nat × Cell)} (hrow : row ∈ M.inside size)
    {x : Nat × Nat × Cell} (hx : x ∈ row) : (x.1 < size ∧ x.2.1 < size) ∧ x.2.2 = M.cell x.1 x.2.1 := by
  obtain ⟨⟨l, r⟩, hl, rfl⟩ := List.mem_map.mp hrow
  obtain ⟨⟨y, c⟩, hy, rfl⟩ := List.mem_map.mp hx
  rw [List.mem_zipIdx_iff_getElem?, List.getElem?_take] at hl hy
  obtain ⟨hr, hl⟩ := Option.ite_none_right_eq_some.mp hl
  obtain ⟨hc, hy⟩ := Option.ite_none_right_eq_some.mp hy
  refine ⟨⟨hr, hc⟩, ?_⟩
  simp only [Matrix.cell, List.getD_eq_getElem?_getD, hl, hy, Option.getD_some]

/-- `UNSET_READ` is not raised when every unreserved cell of the symbol has a value (rule R230). -/
theorem unsetInside_eq_false {M : Matrix} {size : Nat}
    (hset : ∀ r c, r < size → c < size → (M.cell r c).rsv = true ∨ (M.cell r c).set = true) :
    unsetInside M size = false := by
  refine List.any_eq_false.mpr fun row hrow => ?_
  rw [Bool.not_eq_true]
  refine List.any_eq_false.mpr fun x hx => ?_
  obtain ⟨⟨hr, hc⟩, hcell⟩ := Matrix.mem_inside hrow hx
  rw [hcell]
  rcases hset _ _ hr hc with h | h <;> simp [h]

end Sys2Proof.Machine
namespace Sys2Proof.Machine

open Sys2Proof.Ref

/-! `ENCODE` of an input that fits: what each step reads and writes (rules R107, R110). -/

/-- The count of rule R183, which `PLACE` checks: the tables against the skeleton of each version. -/
theorem length_placementOrder_skeleton {v : Nat} (hv : 1 ≤ v ∧ v ≤ 10) :
    (placementOrder (skeleton v) (symbolSize v)).length = 8 * totalCw v + remCells v := by
  obtain ⟨hlo, hhi⟩ := hv
  interval_cases v <;> decide +kernel

/-- The data codewords of an input (rule R124). -/
def dataBytes (v : Nat) (input : List Byte) : List Byte := bitsBytes (dataCwOf v) (paddedBits v input)

/-- Its final codewords (rule R167). -/
def codewordBytes (v : Nat) (input : List Byte) : List Byte :=
  finalCodewords v (fitTo (dataCwOf v) 0 (dataBytes v input))

/-- The skeleton with the codeword bits in it (rule R211). -/
def placedMatrix (v : Nat) (input : List Byte) : Matrix :=
  (skeleton v).writeBits (placementOrder (skeleton v) (symbolSize v))
    (placedBits v (fitTo (totalCw v) 0 (codewordBytes v input)))

/-- The mask asked for, or the one of the least penalty (rule R107). -/
def symbolMask (fm : Bool) (mid v : Nat) (input : List Byte) : BitVec 3 :=
  if fm then BitVec.ofNat 3 mid
  else BitVec.ofNat 3 (bestMask ((List.range 8).map (totalPenalty (placedMatrix v input) (symbolSize v))))

/-- The masked matrix. -/
def maskedMatrix (fm : Bool) (mid v : Nat) (input : List Byte) : Matrix :=
  (placedMatrix v input).applyMask (symbolSize v) (symbolMask fm mid v input).toNat

/-- The finished symbol. -/
def symbolMatrix (fm : Bool) (mid v : Nat) (input : List Byte) : Matrix :=
  (maskedMatrix fm mid v input).writeFormat (symbolSize v) (formatWord (symbolMask fm mid v input).toNat)

/-- `PEN` after `MASK_SELECT` (rule R231). -/
def penTable (M : Matrix) (size : Nat) : Vector (Vector Word 4) 8 :=
  #v[penWords M size 0, penWords M size 1, penWords M size 2, penWords M size 3,
    penWords M size 4, penWords M size 5, penWords M size 6, penWords M size 7]

/-- `PENALTY0` to `PENALTY7` after `MASK_SELECT` (rule R231). -/
def penaltyTable (M : Matrix) (size : Nat) : Vector Word 8 :=
  #v[penaltyWord M size 0, penaltyWord M size 1, penaltyWord M size 2, penaltyWord M size 3,
    penaltyWord M size 4, penaltyWord M size 5, penaltyWord M size 6, penaltyWord M size 7]

theorem square_placedMatrix (v : Nat) (input : List Byte) : (placedMatrix v input).Square :=
  (Matrix.square_skeleton v).writeBits _ _

theorem square_maskedMatrix (fm : Bool) (mid v : Nat) (input : List Byte) : (maskedMatrix fm mid v input).Square :=
  (square_placedMatrix v input).applyMask _ _

theorem square_symbolMatrix (fm : Bool) (mid v : Nat) (input : List Byte) : (symbolMatrix fm mid v input).Square :=
  (square_maskedMatrix fm mid v input).writeFormat _ _

theorem length_placedBits (v : Nat) (codewords : List Byte) :
    (placedBits v codewords).length = 8 * codewords.length + remCells v := by
  simp [placedBits, length_bytesBits]

section
variable {v : Nat} (hv : 1 ≤ v ∧ v ≤ 10) (input : List Byte)
include hv

theorem placementOrder_inside : ∀ p ∈ placementOrder (skeleton v) (symbolSize v), p.1 < planeSide ∧ p.2 < planeSide :=
  fun p hp => by
    have hlt := ((mem_placementOrder_skeleton hv).mp hp).1
    have hsize := symbolSize_le hv.2
    omega

theorem cell_placedMatrix (r c : Nat) :
    ((placedMatrix v input).cell r c).rsv = ((skeleton v).cell r c).rsv ∧
      ((placedMatrix v input).cell r c).set = (((skeleton v).cell r c).set ||
        decide ((r, c) ∈ placementOrder (skeleton v) (symbolSize v))) := by
  refine cell_writeBits (Matrix.square_skeleton v) ?_ (placementOrder_inside hv) r c
  rw [length_placementOrder_skeleton hv, length_placedBits, length_fitTo]

/-- Every unreserved cell of the symbol is in the order, so `PLACE` gives it a value. -/
theorem placedMatrix_set (r c : Nat) (hr : r < symbolSize v) (hc : c < symbolSize v) :
    ((placedMatrix v input).cell r c).rsv = true ∨ ((placedMatrix v input).cell r c).set = true := by
  obtain ⟨hrsv, hset⟩ := cell_placedMatrix hv input r c
  rw [hrsv, hset]
  cases hres : ((skeleton v).cell r c).rsv with
  | true => exact .inl rfl
  | false =>
    rw [decide_eq_true ((mem_placementOrder_skeleton hv).mpr ⟨⟨hr, hc⟩, hres⟩), Bool.or_true]
    exact .inr rfl

theorem cell_maskedMatrix (fm : Bool) (mid : Nat) {r c : Nat} (hr : r < planeSide) (hc : c < planeSide) :
    ((maskedMatrix fm mid v input).cell r c).rsv = ((placedMatrix v input).cell r c).rsv ∧
      ((maskedMatrix fm mid v input).cell r c).set = ((placedMatrix v input).cell r c).set :=
  cell_applyMask (square_placedMatrix v input) _ (placedMatrix_set hv input) hr hc

/-- The reserved cells of the symbol are those of the skeleton, the format strips among them. -/
theorem symbolMatrix_rsv (fm : Bool) (mid : Nat) {r c : Nat} (hr : r < planeSide) (hc : c < planeSide) :
    ((symbolMatrix fm mid v input).cell r c).rsv = (skeletonCell v r c).rsv := by
  rw [symbolMatrix, (cell_writeFormat (square_maskedMatrix fm mid v input) hv _ r c).1,
    (cell_maskedMatrix hv input fm mid hr hc).1, (cell_placedMatrix hv input r c).1, ← skeleton_rsv hv]
  by_cases hf : (r, c) ∈ formatCells (symbolSize v)
  · rw [(skeleton_rsv_iff hv r c).mpr (patternCell_of_formatCells hv hf), Bool.true_or]
  · rw [decide_eq_false hf, Bool.or_false]

/-- Every cell of the symbol has a value, and no other cell: reserved cells from the skeleton or the format word,
unreserved ones from the codewords. -/
theorem symbolMatrix_set (fm : Bool) (mid : Nat) {r c : Nat} (hr : r < planeSide) (hc : c < planeSide) :
    ((symbolMatrix fm mid v input).cell r c).set = (decide (r < symbolSize v) && decide (c < symbolSize v)) := by
  rw [symbolMatrix, (cell_writeFormat (square_maskedMatrix fm mid v input) hv _ r c).2,
    (cell_maskedMatrix hv input fm mid hr hc).2, (cell_placedMatrix hv input r c).2, ← Bool.decide_and]
  by_cases hlt : r < symbolSize v ∧ c < symbolSize v
  · rw [decide_eq_true hlt]
    by_cases hf : (r, c) ∈ formatCells (symbolSize v)
    · rw [decide_eq_true hf, Bool.or_true]
    · cases hres : ((skeleton v).cell r c).rsv with
      | true => rw [skeleton_set_of_rsv hv hf hres, Bool.true_or, Bool.true_or]
      | false => rw [decide_eq_true ((mem_placementOrder_skeleton hv).mpr ⟨hlt, hres⟩), Bool.or_true, Bool.true_or]
  · have hf : (r, c) ∉ formatCells (symbolSize v) := fun h => hlt (patternCell_lt (patternCell_of_formatCells hv h))
    have ho : (r, c) ∉ placementOrder (skeleton v) (symbolSize v) := fun h => hlt ((mem_placementOrder_skeleton hv).mp h).1
    rw [skeleton_outside hv hlt, decide_eq_false hf, decide_eq_false ho, decide_eq_false hlt]
    rfl

end

/-! The steps, one after the other. -/

/-- The bytes outside the planes when the codewords of an input have been written over memory `m`. -/
def codewordRead (v : Nat) (input : List Byte) (m : Memory) (a : Nat) : Byte :=
  if 0x800 ≤ a ∧ a < 0x95A then (codewordBytes v input).getD (a - 0x800) 0
  else if 0x600 ≤ a ∧ a < 0x712 then (dataBytes v input).getD (a - 0x600) 0
  else m.read a

/-- The bytes of a run, from what each of them reads. -/
theorem Memory.load_eq_fitTo {m : Memory} {a n : Nat} {bytes : List Byte}
    (h : ∀ i, i < n → m.read (a + i) = bytes.getD i 0) :
    m.load a n = fitTo n 0 bytes := by
  refine List.ext_getElem (by simp) fun i h1 h2 => ?_
  have hi : i < n := by simpa using h1
  rw [← List.getD_eq_getElem _ 0 h1, ← List.getD_eq_getElem _ 0 h2, m.getD_load hi, getD_fitTo _ _ hi, h i hi]

theorem codeword_counts {v : Nat} (hv : 1 ≤ v ∧ v ≤ 10) : dataCwOf v ≤ 274 ∧ totalCw v ≤ 346 := by
  obtain ⟨hlo, hhi⟩ := hv
  interval_cases v <;> decide

theorem ver_ofNat {v : Nat} (hv : v ≤ 10) : (BitVec.ofNat 4 v).toNat = v := Nat.mod_eq_of_lt (by omega)

section
variable {s : State} {v : Nat} (hv : 1 ≤ v ∧ v ≤ 10) (hver : s.ver = v)
include hv hver

theorem withVersion_ok {body : State → Result} : s.withVersion body = body s := by
  subst hver; exact s.withVersion_legal hv

theorem withSetCells_ok {body : State → Matrix → Result} {M : Matrix} (hM : s.mem.matrix = M)
    (hset : ∀ r c, r < symbolSize v → c < symbolSize v → (M.cell r c).rsv = true ∨ (M.cell r c).set = true) :
    s.withSetCells body = body s M := by
  subst hver hM
  rcases s.withSetCells_cases body with ⟨-, -, e⟩ | ⟨-, hu, -⟩ | ⟨hill, -⟩
  · exact e
  · rw [State.side, unsetInside_eq_false hset] at hu; cases hu
  · exact absurd hv hill

theorem eccBody_ok {data : List Byte} (hdata : ∀ i, i < 274 → s.mem.read (0x600 + i) = data.getD i 0) :
    eccBody s = (s.fillBuf .cw (finalCodewords v (fitTo (dataCwOf v) 0 data)), none) := by
  have hload : s.bufTake .dataCw (dataCwOf v) = fitTo (dataCwOf v) 0 data :=
    Memory.load_eq_fitTo fun i hi => hdata i (hi.trans_le (codeword_counts hv).1)
  rw [eccBody, withVersion_ok hv hver, hver, hload]

theorem buildSkeletonBody_ok :
    buildSkeletonBody s = ({ s.storePlanes (skeleton v) with verinfo := versionWord v }, none) := by
  rw [buildSkeletonBody, withVersion_ok hv hver, hver]
  rfl

theorem placeBody_ok (hM : s.mem.matrix = skeleton v) {input : List Byte}
    (hcw : ∀ i, i < 346 → s.mem.read (0x800 + i) = (codewordBytes v input).getD i 0) :
    placeBody s = ((({ s with
      cellcnt := BitVec.ofNat 12 (placementOrder (skeleton v) (symbolSize v)).length } : State).storeDark
        (placedMatrix v input)).storeSet (placedMatrix v input), none) := by
  have hcount := length_placementOrder_skeleton hv
  have hload : s.bufTake .cw (totalCw v) = fitTo (totalCw v) 0 (codewordBytes v input) :=
    Memory.load_eq_fitTo fun i hi => hcw i (hi.trans_le (codeword_counts hv).2)
  subst hver
  rcases placeBody_cases s with ⟨hill, -⟩ | ⟨-, hne, -⟩ | ⟨-, -, e⟩
  · exact absurd hv hill
  · rw [hM] at hne; exact absurd hcount hne
  · rw [e, hM, hload]; rfl

theorem chooseMask_ok (fm : Bool) (mid : Nat) {input : List Byte} (hM : s.mem.matrix = placedMatrix v input) :
    chooseMask fm mid s = ({ s with
      mask := symbolMask fm mid v input
      pen := if fm then s.pen else penTable (placedMatrix v input) (symbolSize v)
      penalty := if fm then s.penalty else penaltyTable (placedMatrix v input) (symbolSize v) }, none) := by
  cases fm with
  | true => simp only [chooseMask, symbolMask, if_true]
  | false =>
    have hselect : chooseMask false mid s = maskSelectBody s := rfl
    rw [hselect, maskSelectBody, withSetCells_ok hv hver hM (placedMatrix_set hv input)]
    simp only [State.side, hver, symbolMask, penTable, penaltyTable, Bool.false_eq_true, if_false]

theorem maskApplyBody_ok (fm : Bool) (mid : Nat) {input : List Byte} (hM : s.mem.matrix = placedMatrix v input)
    (hmask : s.mask = symbolMask fm mid v input) :
    maskApplyBody s.maskId s = (s.storeDark (maskedMatrix fm mid v input), none) := by
  have hkeep : BitVec.ofNat 3 s.maskId = s.mask := by rw [State.maskId, BitVec.ofNat_toNat, BitVec.setWidth_eq]
  rw [maskApplyBody, withSetCells_ok hv hver hM (placedMatrix_set hv input), hkeep, State.side, hver, State.maskId, hmask,
    maskedMatrix]
  exact Prod.ext (congrArg (fun m => ({ s.storeDark _ with mask := m } : State)) hmask.symm) rfl

theorem formatWriteBody_ok (fm : Bool) (mid : Nat) {input : List Byte} (hM : s.mem.matrix = maskedMatrix fm mid v input)
    (hmask : s.mask = symbolMask fm mid v input) :
    formatWriteBody s = ({ s.storePlanes (symbolMatrix fm mid v input) with
      fmt := formatWord (symbolMask fm mid v input).toNat }, none) := by
  rw [formatWriteBody, withVersion_ok hv hver, State.side, State.maskId, hver, hmask, hM]
  rfl

end

/-! The states that the steps leave. -/

section
variable (fm : Bool) (mid v : Nat) (s : State)

/-- After step 1, `PAD`. -/
def afterPad : State :=
  { s.fillBuf .dataCw (dataBytes v s.inputBytes) with
    version := BitVec.ofNat 4 v
    bitlen := BitVec.ofNat 12 (terminatedBits v s.inputBytes).length }

/-- After step 2, `ECC`. -/
def afterEcc : State := (afterPad v s).fillBuf .cw (codewordBytes v s.inputBytes)

/-- After step 3, `BUILD_SKELETON`. -/
def afterSkeleton : State := { (afterEcc v s).storePlanes (skeleton v) with verinfo := versionWord v }

/-- After step 4, `PLACE`. -/
def afterPlace : State :=
  (({ afterSkeleton v s with
      cellcnt := BitVec.ofNat 12 (placementOrder (skeleton v) (symbolSize v)).length } : State).storeDark
    (placedMatrix v s.inputBytes)).storeSet (placedMatrix v s.inputBytes)

/-- After step 5, the choice of the mask. -/
def afterChoice : State :=
  { afterPlace v s with
    mask := symbolMask fm mid v s.inputBytes
    pen := if fm then s.pen else penTable (placedMatrix v s.inputBytes) (symbolSize v)
    penalty := if fm then s.penalty else penaltyTable (placedMatrix v s.inputBytes) (symbolSize v) }

/-- After step 6, `MASK_APPLY`. -/
def afterMask : State := (afterChoice fm mid v s).storeDark (maskedMatrix fm mid v s.inputBytes)

/-- After step 7, `FORMAT_WRITE`. -/
def afterFormat : State :=
  { (afterMask fm mid v s).storePlanes (symbolMatrix fm mid v s.inputBytes) with
    fmt := formatWord (symbolMask fm mid v s.inputBytes).toNat }

@[simp] theorem afterPad_mem : (afterPad v s).mem = (s.fillBuf .dataCw (dataBytes v s.inputBytes)).mem := rfl
@[simp] theorem afterSkeleton_mem : (afterSkeleton v s).mem = ((afterEcc v s).storePlanes (skeleton v)).mem := rfl
@[simp] theorem afterPlace_mem : (afterPlace v s).mem =
    (((afterSkeleton v s).storeDark (placedMatrix v s.inputBytes)).storeSet (placedMatrix v s.inputBytes)).mem := rfl
@[simp] theorem afterChoice_mem : (afterChoice fm mid v s).mem = (afterPlace v s).mem := rfl
@[simp] theorem afterFormat_mem : (afterFormat fm mid v s).mem =
    ((afterMask fm mid v s).storePlanes (symbolMatrix fm mid v s.inputBytes)).mem := rfl

theorem afterPad_version : (afterPad v s).version = BitVec.ofNat 4 v := rfl
theorem afterEcc_version : (afterEcc v s).version = BitVec.ofNat 4 v := rfl
theorem afterSkeleton_version : (afterSkeleton v s).version = BitVec.ofNat 4 v := rfl
theorem afterPlace_version : (afterPlace v s).version = BitVec.ofNat 4 v := rfl
theorem afterChoice_version : (afterChoice fm mid v s).version = BitVec.ofNat 4 v := rfl
theorem afterMask_version : (afterMask fm mid v s).version = BitVec.ofNat 4 v := rfl
theorem afterPlace_pen : (afterPlace v s).pen = s.pen := by
  simp only [afterPlace, State.storeSet_pen, State.storeDark_pen, afterSkeleton, State.storePlanes, State.storeRsv_pen,
    afterEcc, State.fillBuf_pen, afterPad]
theorem afterPlace_penalty : (afterPlace v s).penalty = s.penalty := by
  simp only [afterPlace, State.storeSet_penalty, State.storeDark_penalty, afterSkeleton, State.storePlanes,
    State.storeRsv_penalty, afterEcc, State.fillBuf_penalty, afterPad]

theorem afterChoice_mask : (afterChoice fm mid v s).mask = symbolMask fm mid v s.inputBytes := rfl
theorem afterMask_mask : (afterMask fm mid v s).mask = symbolMask fm mid v s.inputBytes := rfl

/-- The codeword buffers hold the codewords, and no other byte has changed. -/
theorem afterEcc_read (a : Nat) : (afterEcc v s).mem.read a = codewordRead v s.inputBytes s.mem a := by
  rw [afterEcc, State.read_fillBuf, afterPad_mem, State.read_fillBuf]
  rfl

theorem afterSkeleton_read {a : Nat} (ha : planeByte a = false) :
    (afterSkeleton v s).mem.read a = codewordRead v s.inputBytes s.mem a := by
  rw [afterSkeleton_mem, State.read_storePlanes_of_not_planeByte _ _ ha, afterEcc_read]

theorem afterFormat_read {a : Nat} (ha : planeByte a = false) :
    (afterFormat fm mid v s).mem.read a = codewordRead v s.inputBytes s.mem a := by
  rw [afterFormat_mem, State.read_storePlanes_of_not_planeByte _ _ ha, afterMask, State.storeDark_mem,
    Memory.read_fillPlane_of_not_planeByte _ _ _ ha, afterChoice_mem, afterPlace_mem, State.storeSet_mem,
    Memory.read_fillPlane_of_not_planeByte _ _ _ ha, State.storeDark_mem,
    Memory.read_fillPlane_of_not_planeByte _ _ _ ha, afterSkeleton_read v s ha]

theorem afterSkeleton_matrix : (afterSkeleton v s).mem.matrix = skeleton v := by
  rw [afterSkeleton_mem, State.matrix_storePlanes _ (Matrix.square_skeleton v)]

theorem afterFormat_matrix : (afterFormat fm mid v s).mem.matrix = symbolMatrix fm mid v s.inputBytes := by
  rw [afterFormat_mem, State.matrix_storePlanes _ (square_symbolMatrix fm mid v s.inputBytes)]

end

section
variable {fm : Bool} {mid v : Nat} {s : State} (hv : 1 ≤ v ∧ v ≤ 10)

theorem padBody_ok (h : selectVersion s.inputLength = some v) : padBody s = (afterPad v s, none) := by
  rcases padBody_cases s with ⟨hnone, -⟩ | ⟨u, hu, e⟩
  · rw [h] at hnone; cases hnone
  · rw [h] at hu; cases hu; exact e

include hv

theorem afterPlace_matrix : (afterPlace v s).mem.matrix = placedMatrix v s.inputBytes := by
  rw [afterPlace_mem]
  refine State.matrix_storeDark_storeSet _ (square_placedMatrix v s.inputBytes) fun r c _ _ => ?_
  rw [(cell_placedMatrix hv s.inputBytes r c).1, afterSkeleton_matrix]

theorem afterMask_matrix : (afterMask fm mid v s).mem.matrix = maskedMatrix fm mid v s.inputBytes := by
  rw [afterMask]
  refine State.matrix_storeDark _ (square_maskedMatrix fm mid v s.inputBytes) (fun r c hr hc => ?_) fun r c hr hc => ?_
  · rw [afterChoice_mem, afterPlace_matrix hv, (cell_maskedMatrix hv s.inputBytes fm mid hr hc).1]
  · rw [afterChoice_mem, afterPlace_matrix hv, (cell_maskedMatrix hv s.inputBytes fm mid hr hc).2]

theorem ver_eq_of_version {t : State} (h : t.version = BitVec.ofNat 4 v) : t.ver = v := by
  rw [State.ver, h, ver_ofNat hv.2]

theorem eccBody_afterPad : eccBody (afterPad v s) = (afterEcc v s, none) := by
  refine eccBody_ok hv (ver_eq_of_version hv (afterPad_version v s)) fun i hi => ?_
  rw [afterPad_mem, State.read_fillBuf, if_pos (by simp only [Buf.base, Buf.size]; omega), Buf.base, Nat.add_sub_cancel_left]

theorem buildSkeletonBody_afterEcc : buildSkeletonBody (afterEcc v s) = (afterSkeleton v s, none) :=
  buildSkeletonBody_ok hv (ver_eq_of_version hv (afterEcc_version v s))

theorem placeBody_afterSkeleton : placeBody (afterSkeleton v s) = (afterPlace v s, none) := by
  refine placeBody_ok hv (ver_eq_of_version hv (afterSkeleton_version v s)) (afterSkeleton_matrix v s) fun i hi => ?_
  rw [afterSkeleton_read v s, codewordRead, if_pos (by omega), Nat.add_sub_cancel_left]
  rw [Bool.eq_false_iff, ne_eq, planeByte_iff]
  omega

theorem chooseMask_afterPlace : chooseMask fm mid (afterPlace v s) = (afterChoice fm mid v s, none) := by
  rw [chooseMask_ok hv (ver_eq_of_version hv (afterPlace_version v s)) fm mid (afterPlace_matrix hv), afterPlace_pen,
    afterPlace_penalty, afterChoice]

theorem maskApplyBody_afterChoice :
    maskApplyBody (afterChoice fm mid v s).maskId (afterChoice fm mid v s) = (afterMask fm mid v s, none) := by
  refine maskApplyBody_ok hv (ver_eq_of_version hv (afterChoice_version fm mid v s)) fm mid ?_
    (afterChoice_mask fm mid v s)
  rw [afterChoice_mem, afterPlace_matrix hv]

theorem formatWriteBody_afterMask : formatWriteBody (afterMask fm mid v s) = (afterFormat fm mid v s, none) :=
  formatWriteBody_ok hv (ver_eq_of_version hv (afterMask_version fm mid v s)) fm mid (afterMask_matrix hv)
    (afterMask_mask fm mid v s)

end

/-- The seven steps of an `ENCODE` whose input fits all succeed (rules R107, R110). -/
theorem encodeSteps_ok {s : State} {v : Nat} (fm : Bool) (mid : Nat) (hsel : selectVersion s.inputLength = some v) :
    encodeSteps fm mid s = (afterFormat fm mid v s, none) := by
  have hv := (selectVersion_some hsel).1
  simp only [encodeSteps, padBody_ok hsel, eccBody_afterPad hv, buildSkeletonBody_afterEcc hv, placeBody_afterSkeleton hv,
    chooseMask_afterPlace hv, maskApplyBody_afterChoice hv, formatWriteBody_afterMask hv, Result.andThen_ok]

theorem exec_encode_ok {s : State} {v : Nat} (fm : Bool) (mid : Nat) (hsel : selectVersion s.inputLength = some v) :
    exec (.encode fm mid) s = .next ((afterFormat fm mid v s).complete none) := by
  have hbody : bodyOf (.encode fm mid) s = failClosed (encodeSteps fm mid s) := rfl
  rw [exec_eq_finish, hbody, encodeSteps_ok fm mid hsel, finish_eq, failClosed]

section
variable (fm : Bool) (mid v : Nat) (s : State)

theorem afterFormat_version : (afterFormat fm mid v s).version = BitVec.ofNat 4 v := rfl
theorem afterFormat_bitlen : (afterFormat fm mid v s).bitlen =
    BitVec.ofNat 12 (terminatedBits v s.inputBytes).length := rfl
theorem afterFormat_verinfo : (afterFormat fm mid v s).verinfo = versionWord v := rfl
theorem afterFormat_cellcnt : (afterFormat fm mid v s).cellcnt =
    BitVec.ofNat 12 (placementOrder (skeleton v) (symbolSize v)).length := rfl
theorem afterFormat_mask : (afterFormat fm mid v s).mask = symbolMask fm mid v s.inputBytes := rfl
theorem afterFormat_fmt : (afterFormat fm mid v s).fmt = formatWord (symbolMask fm mid v s.inputBytes).toNat := rfl
theorem afterFormat_result : (afterFormat fm mid v s).result = s.result := by
  simp only [afterFormat, State.storePlanes, State.storeRsv_result, State.storeSet_result, State.storeDark_result, afterMask,
    afterChoice, afterPlace, afterSkeleton, afterEcc, State.fillBuf_result, afterPad]

theorem afterFormat_pen : (afterFormat fm mid v s).pen =
    if fm then s.pen else penTable (placedMatrix v s.inputBytes) (symbolSize v) := by
  simp only [afterFormat, State.storePlanes, State.storeRsv_pen, State.storeSet_pen, State.storeDark_pen, afterMask,
    afterChoice]

theorem afterFormat_penalty : (afterFormat fm mid v s).penalty =
    if fm then s.penalty else penaltyTable (placedMatrix v s.inputBytes) (symbolSize v) := by
  simp only [afterFormat, State.storePlanes, State.storeRsv_penalty, State.storeSet_penalty, State.storeDark_penalty,
    afterMask, afterChoice]

end

/-- `ENCODE` is a chain of command writes, so it keeps what no command writes. -/
theorem afterFormat_hostStateKept {s : State} {v : Nat} (fm : Bool) (mid : Nat)
    (hsel : selectVersion s.inputLength = some v) : HostStateKept s (afterFormat fm mid v s) := by
  have hwrites := encodeSteps_writes fm mid s
  rw [encodeSteps_ok fm mid hsel] at hwrites
  exact hwrites.hostStateKept

theorem capacity_eq_capOf {v : Nat} (hv : 1 ≤ v ∧ v ≤ 10) : capacity v = capOf v := by
  obtain ⟨hlo, hhi⟩ := hv
  interval_cases v <;> decide

/-- An input of at most 271 bytes has a version, the smallest that holds it (rule R123). -/
theorem exists_selectVersion {L : Nat} (hL : L ≤ 271) : ∃ v, selectVersion L = some v ∧ (1 ≤ v ∧ v ≤ 10) ∧ L ≤ capacity v ∧
    ∀ u, 1 ≤ u → u < v → capacity u < L := by
  have hsome : (selectVersion L).isSome = true := by
    rw [selectVersion, List.find?_isSome]
    exact ⟨10, by decide, decide_eq_true hL⟩
  obtain ⟨v, hv⟩ := Option.isSome_iff_exists.mp hsome
  obtain ⟨hlegal, hfits⟩ := selectVersion_some hv
  refine ⟨v, hv, hlegal, by rwa [capacity_eq_capOf hlegal], fun u hu huv => ?_⟩
  have hsmaller := (List.find?_range'_eq_some.mp hv).2.2 u hu huv
  rw [capacity_eq_capOf ⟨hu, by omega⟩]
  simpa using hsmaller

theorem formatWord_eq_formatBits {m : Nat} (hm : m < 8) : formatWord m = BitVec.ofNat 15 (formatBits m) := by
  interval_cases m <;> decide

/-- Outside the codeword buffers memory is as it was. -/
theorem codewordRead_of_outside {v : Nat} {input : List Byte} {m : Memory} {a : Nat}
    (h : inRanges [(0x600, 0x712), (0x800, 0x95A)] a = false) : codewordRead v input m a = m.read a := by
  rw [Bool.eq_false_iff, ne_eq, inRanges_cons_iff, inRanges_cons_iff, inRanges_nil] at h
  rw [codewordRead, if_neg (by omega), if_neg (by omega)]

/-- Inside them memory does not matter. -/
theorem codewordRead_of_inside {v : Nat} {input : List Byte} (m m' : Memory) {a : Nat}
    (h : inRanges [(0x600, 0x712), (0x800, 0x95A)] a = true) : codewordRead v input m a = codewordRead v input m' a := by
  replace h : (0x600 ≤ a ∧ a < 0x712) ∨ (0x800 ≤ a ∧ a < 0x95A) := by simpa using h
  unfold codewordRead
  refine if_ctx_congr Iff.rfl (fun _ => rfl) fun hcw => ?_
  rw [if_pos (by omega), if_pos (by omega)]

/-- Settles O53: the seven steps succeed for the version that `PAD` selects, and leave `afterFormat`. -/
theorem encodeSucceeds : Obligations.EncodeSucceeds := by
  intro s fm mid _ hlen
  obtain ⟨v, hsel, hv, hfits, hleast⟩ := exists_selectVersion hlen
  have hkept := afterFormat_hostStateKept fm mid hsel
  refine ⟨_, v, exec_encode_ok fm mid hsel, ?status, ?version, hv.1, hv.2, hfits, hleast, fun r c hr hc => ⟨?rsv, ?set⟩,
    fun hfm => ⟨?mask, ?pen, ?penalty⟩, ?fmt, ?cmd, ?irqen, ?arg, ?result, ?len, fun a ha hplane => ?mem⟩
  case status => rw [State.complete_status, hkept.status]; rfl
  case version => rw [State.complete_version, afterFormat_version]
  case cmd => rw [State.complete_cmd, hkept.cmd]
  case irqen => rw [State.complete_irqen, hkept.irqen]
  case arg => rw [State.complete_arg, hkept.arg]
  case result => rw [State.complete_result, afterFormat_result]
  case len => rw [State.complete_len, hkept.len]
  case rsv =>
    rw [State.complete_mem, Memory.planeBit_rsv_eq _ hr hc, afterFormat_matrix, symbolMatrix_rsv hv _ fm mid hr hc]
  case set =>
    rw [State.complete_mem, Memory.planeBit_set_eq _ hr hc, afterFormat_matrix, symbolMatrix_set hv _ fm mid hr hc]
    rfl
  case mask => rw [State.complete_mask, afterFormat_mask, symbolMask, if_pos hfm]
  case pen => rw [State.complete_pen, afterFormat_pen, if_pos hfm]
  case penalty => rw [State.complete_penalty, afterFormat_penalty, if_pos hfm]
  case fmt =>
    rw [State.complete_fmt, State.complete_mask, afterFormat_fmt, afterFormat_mask]
    exact formatWord_eq_formatBits (BitVec.isLt _)
  case mem => rw [State.complete_mem, afterFormat_read fm mid v s hplane, codewordRead_of_outside ha]

/-- Two states with the same length and the same bytes of that length have the same input. -/
theorem inputBytes_congr {s s' : State} (hlen : s'.len = s.len)
    (hread : ∀ k, k < s.len.toNat → s'.mem.read (0x400 + k) = s.mem.read (0x400 + k)) : s'.inputBytes = s.inputBytes := by
  have hL : s'.inputLength = s.inputLength := congrArg BitVec.toNat hlen
  rw [State.inputBytes, hL]
  refine Memory.load_congr fun x hlo hhi => ?_
  obtain ⟨k, rfl⟩ := Nat.exists_eq_add_of_le hlo
  exact hread k (Nat.lt_of_add_lt_add_left hhi)

/-- Settles O56: every register that `ENCODE` writes, every codeword and every plane byte of `afterFormat` is a function
of the input bytes. -/
theorem encodeReadsOnlyItsInput : Obligations.EncodeReadsOnlyItsInput := by
  intro s s' fm mid _ hlen hlen' hread
  obtain ⟨v, hsel, -⟩ := exists_selectVersion hlen
  have hL : s'.inputLength = s.inputLength := congrArg BitVec.toNat hlen'
  have hinput := inputBytes_congr hlen' hread
  have hsel' : selectVersion s'.inputLength = some v := by rw [hL]; exact hsel
  refine ⟨_, _, exec_encode_ok fm mid hsel, exec_encode_ok fm mid hsel', ?version, ?bitlen, ?verinfo, ?cellcnt, ?mask,
    ?fmt, fun hfm => ⟨?pen, ?penalty⟩, fun a ha => ?mem⟩
  case version => rw [State.complete_version, State.complete_version, afterFormat_version, afterFormat_version]
  case verinfo => rw [State.complete_verinfo, State.complete_verinfo, afterFormat_verinfo, afterFormat_verinfo]
  case cellcnt => rw [State.complete_cellcnt, State.complete_cellcnt, afterFormat_cellcnt, afterFormat_cellcnt]
  case bitlen => rw [State.complete_bitlen, State.complete_bitlen, afterFormat_bitlen, afterFormat_bitlen, hinput]
  case mask => rw [State.complete_mask, State.complete_mask, afterFormat_mask, afterFormat_mask, hinput]
  case fmt => rw [State.complete_fmt, State.complete_fmt, afterFormat_fmt, afterFormat_fmt, hinput]
  case pen =>
    subst hfm
    rw [State.complete_pen, State.complete_pen, afterFormat_pen, afterFormat_pen, hinput]
    rfl
  case penalty =>
    subst hfm
    rw [State.complete_penalty, State.complete_penalty, afterFormat_penalty, afterFormat_penalty, hinput]
    rfl
  case mem =>
    rw [State.complete_mem, State.complete_mem]
    cases hplane : planeByte a with
    | true =>
      rw [afterFormat_mem, afterFormat_mem, hinput]
      exact State.read_storePlanes_congr _ _ _ hplane
    | false =>
      have hin := ha.resolve_right (by rw [hplane]; nofun)
      rw [afterFormat_read fm mid v s' hplane, afterFormat_read fm mid v s hplane, hinput]
      exact codewordRead_of_inside s'.mem s.mem hin

end Sys2Proof.Machine
namespace Sys2Proof.Machine

open Sys2Proof.Ref

/-! What the host does next and what it last read (log 1, 4), set apart from the block. -/

/-- `s` with other events to come and another word on the bus. -/
def State.onBus (es : List Event) (x : Word) (s : State) : State := { s with events := es, busRead := x }

section
variable (es : List Event) (x : Word) (s : State)

@[simp] theorem State.onBus_inputLength : (s.onBus es x).inputLength = s.inputLength := rfl
@[simp] theorem State.onBus_argA : (s.onBus es x).argA = s.argA := rfl

@[simp] theorem readWord_onBus (off : Nat) : (s.onBus es x).readWord off = s.readWord off := by
  unfold State.readWord
  cases locate off <;> rfl

end

/-- Every command completes (rules R12, R102). -/
theorem exec_eq_complete (i : Instr) (s : State) : exec i s = .next ((bodyOf i s).1.complete (bodyOf i s).2) :=
  (exec_eq_finish i s).trans (finish_eq _)

theorem exec_events {i : Instr} {s t : State} (h : exec i s = .next t) : t.events = s.events := by
  obtain ⟨-, -, -, hev, -⟩ := commandsKeepTheHostsState i s t h
  exact hev

/-! Accesses out of scope (rules R62, R63). -/

/-- Settles O20: the width is looked at first, then the offset. -/
theorem outOfScopeAccessesStop : Obligations.OutOfScopeAccessesStop := by
  intro s bytes off v es h
  obtain ⟨t, ht⟩ : ∃ t, step s = busAccess bytes off t := by
    rcases h with h | h <;> exact ⟨_, by rw [step, h]⟩
  rw [ht]
  rcases busAccess_cases bytes off t with ⟨hw, hoff, -⟩ | ⟨hw, -, e⟩ | ⟨hw, e⟩
  · exact ⟨fun hne => absurd hw hne, fun _ hge => absurd hge (Nat.not_le_of_lt hoff)⟩
  · exact ⟨fun hne => absurd hw hne, fun _ _ => e⟩
  · exact ⟨fun _ => e, fun heq => absurd heq hw⟩

/-! What an access to a running block can change (rule R70). -/

theorem eq_hostRead_of_step {s t : State} {bytes off : Nat} {es : List Event} (h : step s = .next t)
    (he : s.events = .read bytes off :: es) : t = State.hostRead { s with events := es } off := by
  rw [step, he] at h
  exact (busAccess_next h).2.2

theorem eq_hostWrite_of_step {s t : State} {bytes off : Nat} {v : Word} {es : List Event} (h : step s = .next t)
    (he : s.events = .write bytes off v :: es) : t = State.hostWrite { s with events := es } off v := by
  rw [step, he] at h
  exact (busAccess_next h).2.2

theorem hostRead_eq_withBusRead (s : State) (off : Nat) :
    ∃ x n, s.hostRead off = { s with busRead := x, draws := n } := by
  rcases hostRead_cases s off with ⟨-, -, e⟩ | ⟨-, e⟩ <;> exact ⟨_, _, e⟩

theorem hostWrite_eq_withStatus {s : State} (hb : s.status.busy = true) (off : Nat) (v : Word) :
    ∃ st ie, st.busy = true ∧ s.hostWrite off v = { s with status := st, irqen := ie } := by
  rw [hostWrite_eq_writeBusy hb, writeBusy]
  split_ifs
  · exact ⟨statusClear v s.status, s.irqen, hb, rfl⟩
  · exact ⟨s.status, v.setWidth 3, hb, rfl⟩
  · exact ⟨s.status.refused, s.irqen, hb, rfl⟩
  · exact ⟨s.status, s.irqen, hb, rfl⟩

/-- Settles O13: a read changes only the bus and the count of draws, a write only `STATUS` and `IRQEN`. -/
theorem runningCommandIsUndisturbed : Obligations.RunningCommandIsUndisturbed := by
  rintro s t hb h ⟨es, ⟨off, he⟩ | ⟨off, v, he⟩⟩
  · obtain ⟨x, n, e⟩ := hostRead_eq_withBusRead { s with events := es } off
    rw [eq_hostRead_of_step h he, e]
    exact ⟨hb, rfl, rfl, rfl, rfl, rfl, rfl, rfl, rfl, rfl, rfl, rfl, rfl, rfl⟩
  · obtain ⟨st, ie, hst, e⟩ := hostWrite_eq_withStatus (s := { s with events := es }) hb off v
    rw [eq_hostWrite_of_step h he, e]
    exact ⟨hst, rfl, rfl, rfl, rfl, rfl, rfl, rfl, rfl, rfl, rfl, rfl, rfl, rfl⟩

/-! Accesses do not depend on the events still to come, and repeat (rule R66). -/

theorem hostWrite_withEvents (s : State) (es : List Event) (off : Nat) (v : Word) :
    State.hostWrite { s with events := es } off v = { s.hostWrite off v with events := es } := by
  unfold State.hostWrite State.writeWord
  split
  · rfl
  · cases locate off <;> rfl

/-- No entry is both below `lo` and from `hi` on. -/
theorem Memory.filter_ge_filter_lt (m : Memory) {lo hi : Nat} (h : lo ≤ hi) :
    (m.filter fun c => decide (c.1 < lo)).filter (fun c => decide (hi ≤ c.1)) = [] :=
  List.filter_eq_nil_iff.mpr fun c hc => by
    have hlt := List.of_mem_filter hc
    simp only [decide_eq_true_eq] at hlt ⊢
    omega

theorem Memory.filter_lt_filter_ge (m : Memory) {lo hi : Nat} (h : lo ≤ hi) :
    (m.filter fun c => decide (hi ≤ c.1)).filter (fun c => decide (c.1 < lo)) = [] := by
  rw [List.filter_comm]
  exact m.filter_ge_filter_lt h

/-- Of two runs of one length written at one offset the second alone is seen, whatever the memory. -/
theorem Memory.splice_splice (m : Memory) (a : Nat) {vs vs' : List Byte} (h : vs.length = vs'.length) :
    (m.splice a vs).splice a vs' = m.splice a vs' := by
  have hlow : (listed a vs).filter (fun c => decide (c.1 < a)) = [] :=
    List.filter_eq_nil_iff.mpr fun c hc => by
      obtain ⟨hlo, -⟩ := listed_range hc
      simpa using hlo
  have hhigh : (listed a vs).filter (fun c => decide (a + vs.length ≤ c.1)) = [] :=
    List.filter_eq_nil_iff.mpr fun c hc => by
      obtain ⟨-, hhi, -⟩ := listed_range hc
      simpa using hhi
  have hle : a ≤ a + vs.length := Nat.le_add_right a _
  unfold splice
  rw [← h]
  simp only [List.filter_append, hlow, hhigh, m.filter_ge_filter_lt hle, m.filter_lt_filter_ge hle, List.filter_filter,
    Bool.and_self, List.append_nil, List.nil_append]

theorem State.writeRam_writeRam (s : State) (w : Nat) (v : Word) : (s.writeRam w v).writeRam w v = s.writeRam w v := by
  have hmem := s.mem.splice_splice w (vs := (wordBytes v).zipIdx.map fun b => b.1 &&& byteMask (w + b.2)) rfl
  rw [State.writeRam, State.writeRam_mem, hmem]
  rfl

/-- A write whose effect does not depend on what was written before: of every location but `CMD` and `STATUS`. -/
theorem writeWord_writeWord {off : Nat} (hcmd : locate off ≠ .cmd) (hstatus : locate off ≠ .status) (s : State)
    (v : Word) : (s.writeWord off v).writeWord off v = s.writeWord off v := by
  unfold State.writeWord
  cases hl : locate off with
  | cmd => exact absurd hl hcmd
  | status => exact absurd hl hstatus
  | ram => exact s.writeRam_writeRam _ v
  | _ => rfl

theorem hostWrite_hostWrite {off : Nat} (hcmd : locate off ≠ .cmd) (hstatus : locate off ≠ .status) (s : State)
    (v : Word) : (s.hostWrite off v).hostWrite off v = s.hostWrite off v := by
  have hbusy : (s.hostWrite off v).status.busy = s.status.busy :=
    (hostWrite_busy s off v).resolve_right fun h => hcmd h.1
  rw [State.hostWrite, hbusy]
  unfold State.hostWrite
  split_ifs
  · rfl
  · exact writeWord_writeWord hcmd hstatus s v

/-- Settles O19: a read finds what the read before it found; a write writes what the one before it wrote. -/
theorem accessesRepeatWithoutSideEffects : Obligations.AccessesRepeatWithoutSideEffects := by
  refine ⟨fun s off es hoff hb he => ⟨s.readWord off, step_read_of_idle hoff he hb, ?read⟩,
    fun s off v es hoff hcmd hstatus he => ⟨s.hostWrite off v, ?first, ?second⟩⟩
  case read =>
    exact (step_read_of_idle (s := s.onBus (.read 4 off :: es) (s.readWord off)) hoff rfl hb).trans
      (by rw [readWord_onBus]; rfl)
  case first =>
    rw [step_of_events_write hoff he, hostWrite_withEvents]
  case second =>
    have hc : locate off ≠ .cmd := mt (locate_cmd_iff off).mp hcmd
    have hs : locate off ≠ .status := by rw [ne_eq, locate_status_iff]; omega
    rw [step_of_events_write hoff rfl, hostWrite_withEvents, hostWrite_withEvents, hostWrite_hostWrite hc hs]

/-! No step stops (rules R62, R63, R250). -/

theorem sequencerTurn_next (s : State) : ∃ t, sequencerTurn s = .next t ∧ t.events = s.events := by
  rcases sequencerTurn_cases s with ⟨-, e⟩ | ⟨-, i, -, e⟩ | ⟨-, -, e⟩
  · exact ⟨s, e, rfl⟩
  · have ht := exec_eq_complete i s
    exact ⟨_, e.trans ht, exec_events ht⟩
  · exact ⟨_, e, rfl⟩

theorem hostRead_events (s : State) (off : Nat) : (s.hostRead off).events = s.events := by
  obtain ⟨x, n, e⟩ := hostRead_eq_withBusRead s off
  rw [e]

theorem hostWrite_events (s : State) (off : Nat) (v : Word) : (s.hostWrite off v).events = s.events :=
  (congrArg State.events (hostWrite_withEvents s s.events off v) :)

/-- A host write raises no error (rule R250). -/
theorem err_of_hostWrite_err {s : State} {off : Nat} {v : Word} (h : (s.hostWrite off v).status.err = true) :
    s.status.err = true := by
  rcases hostWrite_cases s off v with ⟨-, -, e⟩ | ⟨-, e⟩ <;> rw [e] at h
  · exact h
  · rcases writeWord_cases s off v with
      ⟨-, e⟩ | ⟨-, e⟩ | ⟨-, e⟩ | ⟨-, e⟩ | ⟨-, e⟩ | ⟨-, e⟩ | ⟨-, e⟩ | ⟨-, e⟩ | ⟨-, e⟩ <;>
      rw [e] at h
    case inl => exact absurd h nofun
    case inr.inl => exact (Bool.and_eq_true_iff.mp h).1
    all_goals exact h

theorem inScope_read_iff (bytes off : Nat) : (Event.read bytes off).inScope = true ↔ bytes = 4 ∧ off < 0x4000 := by
  rw [Event.inScope, Bool.and_eq_true, beq_iff_eq, decide_eq_true_eq, Config.busBytes, Config.windowBytes]

theorem inScope_write_iff (bytes off : Nat) (v : Word) :
    (Event.write bytes off v).inScope = true ↔ bytes = 4 ∧ off < 0x4000 := by
  rw [Event.inScope, Bool.and_eq_true, beq_iff_eq, decide_eq_true_eq, Config.busBytes, Config.windowBytes]

theorem step_of_inScope {s : State} (h : ∀ e ∈ s.events, e.inScope = true) :
    ∃ t, step s = .next t ∧ t.events = s.events.tail := by
  rcases step_cases s with
    ⟨he, e⟩ | ⟨es, he, e⟩ | ⟨es, he, e⟩ | ⟨bytes, off, es, he, -⟩ | ⟨bytes, off, v, es, he, -⟩ <;>
    rw [he] at h ⊢
  case inl =>
    obtain ⟨t, ht, hev⟩ := sequencerTurn_next s
    exact ⟨t, e.trans ht, hev.trans he⟩
  case inr.inl =>
    obtain ⟨t, ht, hev⟩ := sequencerTurn_next { s with events := es }
    exact ⟨t, e.trans ht, hev⟩
  case inr.inr.inl => exact ⟨_, e, rfl⟩
  case inr.inr.inr.inl =>
    obtain ⟨rfl, hoff⟩ := (inScope_read_iff bytes off).mp (h _ List.mem_cons_self)
    exact ⟨_, step_of_events_read hoff he, hostRead_events _ off⟩
  case inr.inr.inr.inr =>
    obtain ⟨rfl, hoff⟩ := (inScope_write_iff bytes off v).mp (h _ List.mem_cons_self)
    exact ⟨_, step_of_events_write hoff he, hostWrite_events _ off v⟩

theorem err_of_access_err {s t : State} (h : step s = .next t)
    (hacc : ∃ bytes off es, s.events = .read bytes off :: es ∨ ∃ v, s.events = .write bytes off v :: es)
    (herr : t.status.err = true) : s.status.err = true := by
  obtain ⟨bytes, off, es, he | ⟨v, he⟩⟩ := hacc
  · rwa [eq_hostRead_of_step h he, hostRead_status] at herr
  · rw [eq_hostWrite_of_step h he] at herr
    exact (err_of_hostWrite_err herr :)

/-- Settles O21: the step takes one event, and what is left is in scope with the rest. -/
theorem inScopeEventsNeverStopTheMachine : Obligations.InScopeEventsNeverStopTheMachine := by
  intro s h
  have hall := List.all_eq_true.mp h
  obtain ⟨t, ht, hev⟩ := step_of_inScope hall
  have htail : t.events.all Event.inScope = true := by
    rw [hev]
    exact List.all_eq_true.mpr fun e he => hall e (List.mem_of_mem_tail he)
  exact ⟨t, ht, hev, htail, err_of_access_err ht⟩

end Sys2Proof.Machine
namespace Sys2Proof.Machine

open Sys2Proof.Ref

/-! The decoder gives back a well-formed command from its word: the fields of a word are digits of its value (rules R81,
R82, R85). -/

section
variable (op : BitVec 8) (fm : Bool) {mid n : Nat} (hmid : mid < 8) (hn : n < 256)
include hmid hn

theorem toNat_assemble :
    (assemble op fm mid n).toNat = op.toNat + 256 * fm.toNat + 512 * mid + 65536 * n := by
  have hmid' : (BitVec.ofNat 3 mid).toNat = mid := Nat.mod_eq_of_lt hmid
  have hn' : (BitVec.ofNat 8 n).toNat = n := Nat.mod_eq_of_lt hn
  simp only [assemble, BitVec.toNat_append]
  rw [← Nat.shiftLeft_add_eq_or_of_lt op.isLt, ← Nat.shiftLeft_add_eq_or_of_lt (BitVec.ofBool fm).isLt,
    ← Nat.shiftLeft_add_eq_or_of_lt (BitVec.ofNat 3 mid).isLt, ← Nat.shiftLeft_add_eq_or_of_lt (0#4).isLt,
    ← Nat.shiftLeft_add_eq_or_of_lt (BitVec.ofNat 8 n).isLt, hmid', hn', BitVec.toNat_ofBool]
  simp only [Nat.shiftLeft_eq, BitVec.toNat_ofNat]
  omega

theorem fields_assemble : fieldOP (assemble op fm mid n) = op.toNat ∧ fieldFM (assemble op fm mid n) = fm ∧
    fieldMID (assemble op fm mid n) = mid ∧ fieldR1 (assemble op fm mid n) = 0 ∧ fieldN (assemble op fm mid n) = n ∧
    fieldR2 (assemble op fm mid n) = 0 := by
  have hop := op.isLt
  have hfm := fm.toNat_lt
  have hflag : (op.toNat + 256 * fm.toNat + 512 * mid + 65536 * n).testBit 8 = fm := by
    rw [Nat.testBit_eq_decide_div_mod_eq,
      show (op.toNat + 256 * fm.toNat + 512 * mid + 65536 * n) / 2 ^ 8 % 2 = fm.toNat by omega]
    cases fm <;> rfl
  simp only [fieldOP, fieldFM, fieldMID, fieldR1, fieldN, fieldR2, BitVec.getLsbD, BitVec.extractLsb'_toNat,
    toNat_assemble op fm hmid hn, Nat.shiftRight_eq_div_pow]
  refine ⟨?_, hflag, ?_⟩ <;> omega

end

theorem decode_encode {i : Instr} (h : i.wellFormed = true) : decode (encode i) = .ok i := by
  cases i with
  | encode fm mid =>
    have hmid : mid < 8 := of_decide_eq_true h
    obtain ⟨hop, hfm, hm, hr1, hn, hr2⟩ := fields_assemble 0x10#8 fm hmid (n := 0) (by decide)
    simp [encode, opcodeOf, decode, hop, hfm, hm, hr1, hn, hr2]
  | rsEncode n =>
    have hcount : n < 256 := of_decide_eq_true h
    obtain ⟨hop, hfm, hm, hr1, hn, hr2⟩ := fields_assemble 0x32#8 false (mid := 0) (by decide) hcount
    simp [encode, opcodeOf, decode, hop, hfm, hm, hr1, hn, hr2]
  | maskApply mid =>
    have hmid : mid < 8 := of_decide_eq_true h
    obtain ⟨hop, hfm, hm, hr1, hn, hr2⟩ := fields_assemble 0x51#8 false hmid (n := 0) (by decide)
    simp [encode, opcodeOf, decode, hop, hfm, hm, hr1, hn, hr2]
  | _ => decide

/-! A command neither reads nor writes what the host does next and what the host last read. -/

/-- What a body gives, with other events to come and another word on the bus. -/
def Result.onBus (es : List Event) (x : Word) (r : Result) : Result := (r.1.onBus es x, r.2)

/-- A body whose result is the same whatever the events and the bus word, and which passes them on. -/
def IgnoresBus (body : State → Result) : Prop :=
  ∀ (es : List Event) (x : Word) (s : State), body (s.onBus es x) = (body s).onBus es x

theorem IgnoresBus.ite {p : State → Prop} [DecidablePred p] {f g : State → Result}
    (hp : ∀ es x s, p (s.onBus es x) ↔ p s) (hf : IgnoresBus f) (hg : IgnoresBus g) :
    IgnoresBus fun s => if p s then f s else g s := by
  intro es x s
  by_cases hs : p s
  · simp only [if_pos hs, if_pos ((hp es x s).mpr hs)]
    exact hf es x s
  · simp only [if_neg hs, if_neg (mt (hp es x s).mp hs)]
    exact hg es x s

theorem IgnoresBus.error (e : ErrCode) : IgnoresBus fun s => (s, some e) := fun _ _ _ => rfl

theorem IgnoresBus.withVersion {body : State → Result} (h : IgnoresBus body) :
    IgnoresBus fun s => s.withVersion body :=
  .ite (p := fun s => legalVersion s.ver = true) (fun _ _ _ => Iff.rfl) h (.error .badVersion)

theorem IgnoresBus.withSetCells {body : State → Matrix → Result} (h : IgnoresBus fun s => body s s.mem.matrix) :
    IgnoresBus fun s => s.withSetCells body :=
  .withVersion
    (.ite (p := fun s => unsetInside s.mem.matrix s.side = true) (fun _ _ _ => Iff.rfl) (.error .unsetRead) h)

theorem IgnoresBus.andThen {body f : State → Result} (h : IgnoresBus body) (hf : IgnoresBus f) :
    IgnoresBus fun s => (body s).andThen f := by
  intro es x s
  simp only [h es x s]
  rcases body s with ⟨t, _ | e⟩
  · exact hf es x t
  · rfl

theorem IgnoresBus.failClosed {body : State → Result} (h : IgnoresBus body) :
    IgnoresBus fun s => failClosed (body s) := by
  intro es x s
  simp only [h es x s]
  rcases body s with ⟨t, _ | e⟩ <;> rfl

theorem padBody_ignoresBus : IgnoresBus padBody := by
  intro es x s
  unfold padBody
  rw [State.onBus_inputLength]
  cases selectVersion s.inputLength <;> rfl

theorem gfLogBody_ignoresBus : IgnoresBus gfLogBody := by
  intro es x s
  unfold gfLogBody
  rw [State.onBus_argA]
  cases gfLog s.argA <;> rfl

theorem rsEncodeBody_ignoresBus (n : Nat) : IgnoresBus (rsEncodeBody n) := by
  unfold rsEncodeBody
  cases genPoly n with
  | none => exact .error .unsupportedConfig
  | some g =>
    refine .ite (p := fun s => s.argIndex > Buf.rsIn.size) (fun _ _ _ => Iff.rfl) (.error .badArgument) ?_
    exact fun _ _ _ => rfl

theorem eccBody_ignoresBus : IgnoresBus eccBody := .withVersion fun _ _ _ => rfl

theorem buildSkeletonBody_ignoresBus : IgnoresBus buildSkeletonBody := .withVersion fun _ _ _ => rfl

theorem placeBody_ignoresBus : IgnoresBus placeBody := by
  apply IgnoresBus.withVersion
  refine .ite (p := fun s => (placementOrder s.mem.matrix s.side).length ≠ 8 * totalCw s.ver + remCells s.ver)
    (fun _ _ _ => Iff.rfl) ?_ ?_
  · exact fun _ _ _ => rfl
  · exact fun _ _ _ => rfl

theorem maskSelectBody_ignoresBus : IgnoresBus maskSelectBody := .withSetCells fun _ _ _ => rfl

theorem maskApplyBody_ignoresBus (mid : Nat) : IgnoresBus (maskApplyBody mid) :=
  .withSetCells fun _ _ _ => rfl

theorem formatWriteBody_ignoresBus : IgnoresBus formatWriteBody := .withVersion fun _ _ _ => rfl

theorem chooseMask_ignoresBus (fm : Bool) (mid : Nat) : IgnoresBus (chooseMask fm mid) := by
  cases fm with
  | true => exact fun _ _ _ => rfl
  | false => exact maskSelectBody_ignoresBus

theorem encodeSteps_ignoresBus (fm : Bool) (mid : Nat) : IgnoresBus (encodeSteps fm mid) :=
  (((((padBody_ignoresBus.andThen eccBody_ignoresBus).andThen buildSkeletonBody_ignoresBus).andThen
    placeBody_ignoresBus).andThen (chooseMask_ignoresBus fm mid)).andThen
    fun es x s => maskApplyBody_ignoresBus s.maskId es x s).andThen formatWriteBody_ignoresBus

theorem bodyOf_ignoresBus (i : Instr) : IgnoresBus (bodyOf i) := by
  cases i with
  | nop | softReset | gfMul | gfExp => exact fun _ _ _ => rfl
  | encode fm mid => exact (encodeSteps_ignoresBus fm mid).failClosed
  | gfLog => exact gfLogBody_ignoresBus
  | pad => exact padBody_ignoresBus
  | ecc => exact eccBody_ignoresBus
  | rsEncode n => exact rsEncodeBody_ignoresBus n
  | buildSkeleton => exact buildSkeletonBody_ignoresBus
  | place => exact placeBody_ignoresBus
  | maskSelect => exact maskSelectBody_ignoresBus
  | maskApply mid => exact maskApplyBody_ignoresBus mid
  | formatWrite => exact formatWriteBody_ignoresBus

theorem exec_onBus {i : Instr} {s t : State} (h : exec i s = .next t) (es : List Event) (x : Word) :
    exec i (s.onBus es x) = .next (t.onBus es x) := by
  rw [exec_eq_complete] at h ⊢
  cases h
  rw [bodyOf_ignoresBus i es x s]
  rfl

/-! Runs of the host's polling (rules R88, R89). -/

theorem run_succ {M : Host.Core} {s t : M.State} (k : Nat) (h : M.step s = .next t) : M.run (k + 1) s = M.run k t := by
  rw [Host.Core.run, h]

theorem run_succ_of_step {s t : State} (k : Nat) (h : step s = .next t) :
    Host.Core.run Sys2Proof.core (k + 1) s = Host.Core.run Sys2Proof.core k t :=
  run_succ (M := Sys2Proof.core) k h

theorem step_cmdWrite {s : State} {w : Word} {es : List Event} (hb : s.status.busy = false)
    (h : s.events = .write 4 HostLoc.cmd.addr w :: es) : step s = .next ((s.accept w).onBus es s.busRead) :=
  (cmdWriteIssuesTheCommand s HostLoc.cmd.addr w es (by decide) h).1 hb

/-- A read of `STATUS` is defined at any time (rule R70). -/
theorem step_pollStatus {s : State} {es : List Event} (h : s.events = .read 4 HostLoc.status.addr :: es) :
    step s = .next (s.onBus es (statusWord s.status)) := by
  rw [step_of_events_read (by decide) h]
  rcases hostRead_cases { s with events := es } HostLoc.status.addr with ⟨-, hl, -⟩ | ⟨-, e⟩
  · exact absurd hl (by decide)
  · rw [e, readWord_eq_readDefined _ (by decide)]
    rfl

/-- Polling only moves the host on: each read leaves another word on the bus. -/
theorem run_polls (k polls : Nat) {es : List Event} (s : State)
    (h : s.events = List.replicate polls (.read 4 HostLoc.status.addr) ++ es) :
    ∃ x, Host.Core.run Sys2Proof.core (k + polls) s = Host.Core.run Sys2Proof.core k (s.onBus es x) := by
  induction polls generalizing s with
  | zero =>
    subst h
    exact ⟨s.busRead, rfl⟩
  | succ n ih =>
    obtain ⟨x, e⟩ := ih (s.onBus (List.replicate n (.read 4 HostLoc.status.addr) ++ es) (statusWord s.status)) rfl
    exact ⟨x, (run_succ_of_step (k + n) (step_pollStatus h)).trans e⟩

/-- A `WAIT` while a command runs: the polls that find it running, its completion, and the poll that finds it done. -/
theorem run_waitEvents {s t : State} {i : Instr} (hb : s.status.busy = true) (hd : decode s.cmd = .ok i)
    (ht : exec i s = .next t) (polls : Nat) (he : s.events = waitEvents polls) :
    Host.Core.run Sys2Proof.core (2 + polls) s = .next (t.onBus [] (statusWord t.status)) := by
  obtain ⟨x, hpolls⟩ := run_polls 2 polls s he
  have hcompletes : step (s.onBus [.sequencer, .read 4 HostLoc.status.addr] x) =
      .next (t.onBus [.read 4 HostLoc.status.addr] x) := by
    rw [step_of_events_sequencer rfl]
    exact (sequencerTurn_of_decode_ok (s := s.onBus [.read 4 HostLoc.status.addr] x) hb hd).trans (exec_onBus ht _ x)
  have hdone : step (t.onBus [.read 4 HostLoc.status.addr] x) = .next (t.onBus [] (statusWord t.status)) :=
    step_pollStatus rfl
  rw [hpolls, run_succ_of_step 1 hcompletes, run_succ_of_step 0 hdone]
  rfl

/-- Settles O11: the accepted command runs the same whatever `WAIT` has still to read and has read. -/
theorem latencyDoesNotMatter : Obligations.LatencyDoesNotMatter := by
  intro s i polls hi hb he
  obtain ⟨t, ht⟩ : ∃ t, exec i (s.accept (encode i)) = .next t := ⟨_, exec_eq_complete i _⟩
  have hnil : t.events = [] := (exec_events ht).trans he
  have hissued : step (s.withProgram [.run (.instr i) polls]) =
      .next ((s.accept (encode i)).onBus (waitEvents polls) s.busRead) :=
    step_cmdWrite (s := s.withProgram [.run (.instr i) polls]) hb
      (by rw [State.withProgram, he]; exact List.append_nil _)
  have hwait := run_waitEvents (s := (s.accept (encode i)).onBus (waitEvents polls) s.busRead) rfl (decode_encode hi)
    (exec_onBus ht _ _) polls rfl
  have hfinal : t.onBus [] (statusWord t.status) = { t with busRead := statusWord t.status } := by
    rw [State.onBus, ← hnil]
  refine ⟨t, ht, ?_⟩
  rw [run_succ_of_step (polls + 2) hissued, Nat.add_comm, hwait, ← hfinal]
  rfl

end Sys2Proof.Machine
namespace Sys2Proof.Machine

open Sys2Proof.Ref

/-! The encoding read from the word: a word is fixed by its fields, and what decodes is the word of a well-formed command
(rules R80 to R85). -/

/-- The six fields of rule R81 make up the word. -/
theorem toNat_eq_fields (w : Word) : w.toNat = fieldOP w + 256 * (fieldFM w).toNat + 512 * fieldMID w +
    4096 * fieldR1 w + 65536 * fieldN w + 16777216 * fieldR2 w := by
  have hflag : (fieldFM w).toNat = w.toNat / 256 % 2 := by
    rw [fieldFM, BitVec.getLsbD, Nat.toNat_testBit]
  have hw := w.isLt
  simp only [hflag, fieldOP, fieldMID, fieldR1, fieldN, fieldR2, BitVec.extractLsb'_toNat, Nat.shiftRight_eq_div_pow]
  omega

theorem fieldMID_lt (w : Word) : fieldMID w < 8 := BitVec.isLt _

theorem fieldN_lt (w : Word) : fieldN w < 256 := BitVec.isLt _

/-- With `R1 = R2 = 0`, a word is the one that its other fields assemble (rule R81). -/
theorem assemble_of_fields {w : Word} {op : BitVec 8} (hop : fieldOP w = op.toNat) (hr1 : fieldR1 w = 0)
    (hr2 : fieldR2 w = 0) : assemble op (fieldFM w) (fieldMID w) (fieldN w) = w := by
  apply BitVec.eq_of_toNat_eq
  rw [toNat_assemble op _ (fieldMID_lt w) (fieldN_lt w), toNat_eq_fields w, hop, hr1, hr2]
  omega

/-- When bits 31:8 are 0, so is each field above `OP` (rule R81). -/
theorem fields_of_upperBits_zero {w : Word} (h : (w.extractLsb' 8 24).toNat = 0) :
    fieldFM w = false ∧ fieldMID w = 0 ∧ fieldR1 w = 0 ∧ fieldN w = 0 ∧ fieldR2 w = 0 := by
  have hw := toNat_eq_fields w
  have hop : fieldOP w < 256 := BitVec.isLt _
  rw [BitVec.extractLsb'_toNat, Nat.shiftRight_eq_div_pow] at h
  have hfm : (fieldFM w).toNat = 0 := by omega
  exact ⟨Bool.toNat_eq_zero.mp hfm, by omega⟩

theorem eq_of_ite_error_eq_ok {p : Prop} [Decidable p] {r : Reject} {i j : Instr}
    (h : (if p then .error r else .ok j : Except Reject Instr) = .ok i) : ¬p ∧ j = i := by
  by_cases hp : p
  · rw [if_pos hp] at h; cases h
  · rw [if_neg hp] at h; cases h; exact ⟨hp, rfl⟩

/-- An opcode that uses no field has the one word with zeros above the opcode (rules R82, R85). -/
theorem encode_of_decodePlain {w : Word} {i j : Instr} (hop : fieldOP w = (opcodeOf j).toNat)
    (hj : j.wellFormed = true ∧ encode j = assemble (opcodeOf j) false 0 0) (h : decodePlain w j = .ok i) :
    i.wellFormed = true ∧ encode i = w := by
  by_cases hz : (w.extractLsb' 8 24).toNat = 0
  · obtain ⟨hfm, hmid, hr1, hn, hr2⟩ := fields_of_upperBits_zero hz
    rw [decodePlain, if_pos hz] at h
    cases h
    exact ⟨hj.1, by rw [hj.2, ← assemble_of_fields hop hr1 hr2, hfm, hmid, hn]⟩
  · rw [decodePlain, if_neg hz] at h
    cases h

/-- The first three arms of the decoder keep a field and check the others; the last rejects; the arms between them use no
field (rule R85). -/
theorem encode_of_decode {w : Word} {i : Instr} (h : decode w = .ok i) : i.wellFormed = true ∧ encode i = w := by
  unfold decode at h
  split at h
  · cases h
  next hr =>
  obtain ⟨hr1, hr2⟩ : fieldR1 w = 0 ∧ fieldR2 w = 0 := by simpa using hr
  split at h
  case h_1 hop =>
    obtain ⟨hn, rfl⟩ := eq_of_ite_error_eq_ok h
    have hw := assemble_of_fields (op := 0x10) hop hr1 hr2
    rw [not_not.mp hn] at hw
    exact ⟨decide_eq_true (fieldMID_lt w), hw⟩
  case h_2 hop =>
    obtain ⟨hu, rfl⟩ := eq_of_ite_error_eq_ok h
    obtain ⟨hfm, hmid⟩ : fieldFM w = false ∧ fieldMID w = 0 := by simpa using hu
    have hw := assemble_of_fields (op := 0x32) hop hr1 hr2
    rw [hfm, hmid] at hw
    exact ⟨decide_eq_true (fieldN_lt w), hw⟩
  case h_3 hop =>
    obtain ⟨hu, rfl⟩ := eq_of_ite_error_eq_ok h
    obtain ⟨hfm, hn⟩ : fieldFM w = false ∧ fieldN w = 0 := by simpa using hu
    have hw := assemble_of_fields (op := 0x51) hop hr1 hr2
    rw [hfm, hn] at hw
    exact ⟨decide_eq_true (fieldMID_lt w), hw⟩
  case h_15 => cases h
  all_goals exact encode_of_decodePlain ‹_› ⟨rfl, rfl⟩ h

/-- Settles O2: the decoder reads back the fields that `encode` lays side by side. -/
theorem decodeOfEncodeIsTheCommand : Obligations.DecodeOfEncodeIsTheCommand :=
  fun _ h => decode_encode h

/-- Settles O3: each arm of the decoder checks every field its command does not use, so the word is its command's. -/
theorem encodeOfDecodeIsTheWord : Obligations.EncodeOfDecodeIsTheWord :=
  fun _ _ h => encode_of_decode h

/-! The rows of the opcode table as bit masks (rules R82, R84). -/

/-- The commands that use no field, in the order of the opcode table. -/
def plainCommands : List Instr :=
  [.nop, .softReset, .gfMul, .gfExp, .gfLog, .pad, .ecc, .buildSkeleton, .place, .maskSelect, .formatWrite]

theorem plainCommands_wellFormed : ∀ i ∈ plainCommands, i.wellFormed = true := by decide

theorem map_encode_plainCommands : plainCommands.map encode = [0x00000000, 0x00000001, 0x00000020, 0x00000021,
    0x00000022, 0x00000030, 0x00000031, 0x00000040, 0x00000041, 0x00000050, 0x00000052] := by decide

/-- Where a mask keeps a whole field, the masked word gives that field of the word. -/
theorem toNat_extractLsb'_of_and_eq {w m c : Word} (h : w &&& m = c) {k n : Nat}
    (hm : m.extractLsb' k n = BitVec.allOnes n) : (w.extractLsb' k n).toNat = (c.extractLsb' k n).toNat := by
  rw [← h, BitVec.extractLsb'_and, hm, BitVec.and_allOnes]

theorem fieldFM_of_and_eq {w m c : Word} (h : w &&& m = c) (hm : fieldFM m = true) : fieldFM w = fieldFM c := by
  rw [fieldFM] at hm
  rw [← h, fieldFM, fieldFM, BitVec.getLsbD_and, hm, Bool.and_true]

/-- A word of a row that fixes `OP`, and `R1` and `R2` at 0, is its opcode and its other fields. -/
theorem assemble_of_and_eq {w m : Word} {op : BitVec 8} (h : w &&& m = assemble op false 0 0)
    (hm : m.extractLsb' 0 8 = .allOnes 8 ∧ m.extractLsb' 12 4 = .allOnes 4 ∧ m.extractLsb' 24 8 = .allOnes 8) :
    assemble op (fieldFM w) (fieldMID w) (fieldN w) = w := by
  obtain ⟨hkeepOP, hkeepR1, hkeepR2⟩ := hm
  obtain ⟨hop, -, -, hr1, -, hr2⟩ := fields_assemble op false (mid := 0) (n := 0) (by decide) (by decide)
  exact assemble_of_fields ((toNat_extractLsb'_of_and_eq h hkeepOP).trans hop)
    ((toNat_extractLsb'_of_and_eq h hkeepR1).trans hr1) ((toNat_extractLsb'_of_and_eq h hkeepR2).trans hr2)

/-- Masking an assembled word with `OP`, `R1` and `R2` kept masks each of the other fields. -/
theorem assemble_and (op : BitVec 8) (fm : Bool) (mid n : Nat) (keepN : BitVec 8) (keepMID : BitVec 3)
    (keepFM : BitVec 1) :
    assemble op fm mid n &&& (0xFF#8 ++ keepN ++ 0xF#4 ++ keepMID ++ keepFM ++ 0xFF#8) =
      0#8 ++ (BitVec.ofNat 8 n &&& keepN) ++ 0#4 ++ (BitVec.ofNat 3 mid &&& keepMID) ++ (BitVec.ofBool fm &&& keepFM) ++
        op := by
  have hop : op &&& 0xFF#8 = op := BitVec.and_allOnes
  rw [assemble, BitVec.and_append, BitVec.and_append, BitVec.and_append, BitVec.and_append, BitVec.and_append,
    BitVec.zero_and, BitVec.zero_and, hop]

/-- The `ENCODE` row leaves `FM` and `MID` free. -/
theorem encodeRow_iff (w : Word) : w &&& 0xFFFFF0FF = 0x00000010 ↔ ∃ fm, ∃ mid < 8, encode (.encode fm mid) = w := by
  constructor
  · intro h
    have hn : fieldN w = 0 := toNat_extractLsb'_of_and_eq h (by decide)
    have hw := assemble_of_and_eq (op := 0x10) h (by decide)
    rw [hn] at hw
    exact ⟨fieldFM w, fieldMID w, fieldMID_lt w, hw⟩
  · rintro ⟨fm, mid, -, rfl⟩
    refine (assemble_and 0x10 fm mid 0 0xFF 0#3 0#1).trans ?_
    rw [BitVec.and_zero, BitVec.and_zero]
    rfl

/-- The `RS_ENCODE` row leaves `N` free. -/
theorem rsEncodeRow_iff (w : Word) : w &&& 0xFF00FFFF = 0x00000032 ↔ ∃ n < 256, encode (.rsEncode n) = w := by
  constructor
  · intro h
    have hfm : fieldFM w = false := fieldFM_of_and_eq h (by decide)
    have hmid : fieldMID w = 0 := toNat_extractLsb'_of_and_eq h (by decide)
    have hw := assemble_of_and_eq (op := 0x32) h (by decide)
    rw [hfm, hmid] at hw
    exact ⟨fieldN w, fieldN_lt w, hw⟩
  · rintro ⟨n, -, rfl⟩
    refine (assemble_and 0x32 false 0 n 0#8 7 1).trans ?_
    rw [BitVec.and_zero]
    rfl

/-- The `MASK_APPLY` row leaves `MID` free. -/
theorem maskApplyRow_iff (w : Word) : w &&& 0xFFFFF1FF = 0x00000051 ↔ ∃ mid < 8, encode (.maskApply mid) = w := by
  constructor
  · intro h
    have hfm : fieldFM w = false := fieldFM_of_and_eq h (by decide)
    have hn : fieldN w = 0 := toNat_extractLsb'_of_and_eq h (by decide)
    have hw := assemble_of_and_eq (op := 0x51) h (by decide)
    rw [hfm, hn] at hw
    exact ⟨fieldMID w, fieldMID_lt w, hw⟩
  · rintro ⟨mid, -, rfl⟩
    refine (assemble_and 0x51 false mid 0 0xFF 0#3 1).trans ?_
    rw [BitVec.and_zero]
    rfl

theorem decode_plainCommand {w : Word} (h : w ∈ plainCommands.map encode) : ∃ i, decode w = .ok i := by
  obtain ⟨i, hi, rfl⟩ := List.mem_map.mp h
  exact ⟨i, decode_encode (plainCommands_wellFormed i hi)⟩

/-- Settles O4: the words that decode are the words of the well-formed commands, and each row's pattern is the set of its
command's words. -/
theorem decodesExactlyTheTableWords : Obligations.DecodesExactlyTheTableWords := by
  intro w
  rw [← map_encode_plainCommands, encodeRow_iff, rsEncodeRow_iff, maskApplyRow_iff]
  constructor
  · rintro ⟨i, hi⟩
    obtain ⟨hwf, rfl⟩ := encode_of_decode hi
    cases i with
    | encode fm mid => exact .inr (.inl ⟨fm, mid, of_decide_eq_true hwf, rfl⟩)
    | rsEncode n => exact .inr (.inr (.inl ⟨n, of_decide_eq_true hwf, rfl⟩))
    | maskApply mid => exact .inr (.inr (.inr ⟨mid, of_decide_eq_true hwf, rfl⟩))
    | _ => exact .inl (List.mem_map_of_mem (by decide))
  · rintro (hplain | ⟨fm, mid, hmid, rfl⟩ | ⟨n, hn, rfl⟩ | ⟨mid, hmid, rfl⟩)
    · exact decode_plainCommand hplain
    · exact ⟨_, decode_encode (decide_eq_true hmid)⟩
    · exact ⟨_, decode_encode (decide_eq_true hn)⟩
    · exact ⟨_, decode_encode (decide_eq_true hmid)⟩

/-! The examples of the spec, and `BAD` words when they run (rules R86, R90, R106). -/

/-- A count with no generator polynomial is well formed and fails when it runs (rules R83, R162). -/
theorem exec_rsEncode_of_genPoly_none {n : Nat} (h : genPoly n = none) (s : State) :
    exec (.rsEncode n) s = .next (failed 2 s) := by
  rcases rsEncodeBody_cases n s with ⟨-, e⟩ | ⟨hg, -⟩ | ⟨hg, -⟩
  · rw [exec_eq_complete, bodyOf, e]
    rfl
  · rw [h] at hg; cases hg
  · rw [h] at hg; cases hg

/-- With `FM = 0` the mask evaluator chooses, so `MID` is not read (rules R82, R107; log 12). -/
theorem exec_encode_ignores_mid (mid mid' : Nat) (s : State) :
    exec (.encode false mid) s = exec (.encode false mid') s := rfl

/-- Settles O1: the words by evaluation; the two behaviours by the failing count and the ignored `MID`. -/
theorem specWordsDecode : Obligations.SpecWordsDecode := by
  refine ⟨by decide, by decide, by decide, by decide, ⟨by decide, by decide, ?rsEncode8⟩, by decide, by decide, by decide,
    by decide, by decide, ⟨by decide, ?midIgnored⟩⟩
  case rsEncode8 => exact exec_rsEncode_of_genPoly_none rfl
  case midIgnored => exact fun mid s => exec_encode_ignores_mid mid 0 s

theorem sequencerTurn_of_decode_error {s : State} {r : Reject} (hb : s.status.busy = true)
    (hd : decode s.cmd = .error r) : sequencerTurn s = .next (failed 6 s) := by
  rcases sequencerTurn_cases s with ⟨hidle, -⟩ | ⟨-, j, hj, -⟩ | ⟨-, -, e⟩
  · rw [hb] at hidle; cases hidle
  · rw [hd] at hj; cases hj
  · exact e

/-- Settles O6: both schedules give the sequencer a turn, and its turn on a `BAD` word is the completion with error 6. -/
theorem badWordCompletesWithBadCommand : Obligations.BadWordCompletesWithBadCommand := by
  intro s r hb hd
  constructor
  · intro es he
    rw [step_of_events_sequencer he]
    exact sequencerTurn_of_decode_error hb hd
  · intro he
    rw [step_of_events_nil he]
    exact sequencerTurn_of_decode_error hb hd

end Sys2Proof.Machine
namespace Sys2Proof.Machine

open Sys2Proof.Ref

/-! The control commands `NOP` and `SOFT_RESET` (rules R104, R105). -/

/-- The opcode of a command's word is in bits 7:0 (rules R81, R84). -/
theorem setWidth_encode (i : Instr) : (encode i).setWidth 8 = opcodeOf i := by
  have assembled (op : BitVec 8) (fm : Bool) (mid n : Nat) : (assemble op fm mid n).setWidth 8 = op :=
    BitVec.setWidth_append_eq_right
  cases i <;> exact assembled _ _ _ _

theorem eq_nop_of_opcodeOf_eq_zero {i : Instr} (h : opcodeOf i = 0x00#8) : i = .nop := by
  cases i with
  | nop => rfl
  | _ => cases h

/-- `NOP` has one word, 0, so any other word with its opcode is `BAD` (rules R82, R104). -/
theorem decode_of_nopOpcode {w : Word} (hop : w.setWidth 8 = 0x00#8) (hw : w ≠ 0) : (decode w).toOption = none := by
  cases hd : decode w with
  | error r => rfl
  | ok i =>
    obtain ⟨-, rfl⟩ := encode_of_decode hd
    rw [setWidth_encode] at hop
    rw [eq_nop_of_opcodeOf_eq_zero hop] at hw
    exact absurd rfl hw

theorem exec_nop (s : State) : exec .nop s = .next (done s) := rfl

/-- Settles O27: `NOP` is its completion, which keeps the `ERR = 0` of acceptance; its one word is 0. -/
theorem nopOnlyCompletes : Obligations.NopOnlyCompletes :=
  ⟨exec_nop, rfl, fun _ => decode_of_nopOpcode, fun _ => ⟨_, exec_nop _, rfl, rfl, rfl⟩, _, exec_nop _, rfl⟩

/-- Settles O28: `SOFT_RESET` is `dataPathReset` and its completion, each by its definition. -/
theorem softResetResetsTheDataPath : Obligations.SoftResetResetsTheDataPath := fun _ => rfl

/-! What the completion of a command can say (rules R102, R252). -/

/-- A body that never raises `BAD_COMMAND`: that code is for a word that is no command (rules R86, R106). -/
def NeverBadCommand (body : State → Result) : Prop := ∀ s, (body s).2 ≠ some .badCommand

theorem NeverBadCommand.withVersion {body : State → Result} (h : NeverBadCommand body) :
    NeverBadCommand fun s => s.withVersion body := by
  intro s
  rcases s.withVersion_cases body with ⟨-, e⟩ | ⟨-, e⟩ <;> simp only [e]
  · exact h s
  · nofun

theorem NeverBadCommand.withSetCells {body : State → Matrix → Result} (h : ∀ M, NeverBadCommand fun s => body s M) :
    NeverBadCommand fun s => s.withSetCells body := by
  intro s
  rcases s.withSetCells_cases body with ⟨-, -, e⟩ | ⟨-, -, e⟩ | ⟨-, e⟩ <;> simp only [e]
  · exact h _ s
  · nofun
  · nofun

/-- A step of `ENCODE` raises its own error, or passes on the one raised before it (rule R107). -/
theorem NeverBadCommand.andThen {body f : State → Result} (h : NeverBadCommand body) (hf : NeverBadCommand f) :
    NeverBadCommand fun s => (body s).andThen f := by
  intro s
  have hs := h s
  beta_reduce
  generalize body s = r at hs ⊢
  obtain ⟨t, _ | e⟩ := r
  · exact hf t
  · exact hs

@[simp] theorem failClosed_snd (r : Result) : (failClosed r).2 = r.2 := by
  obtain ⟨s, _ | e⟩ := r <;> rfl

theorem padBody_neverBadCommand : NeverBadCommand padBody := by
  intro s
  rcases padBody_cases s with ⟨-, e⟩ | ⟨v, -, e⟩ <;> rw [e] <;> nofun

theorem gfLogBody_neverBadCommand : NeverBadCommand gfLogBody := by
  intro s
  rcases gfLogBody_cases s with ⟨-, e⟩ | ⟨i, -, e⟩ <;> rw [e] <;> nofun

theorem rsEncodeBody_neverBadCommand (n : Nat) : NeverBadCommand (rsEncodeBody n) := by
  intro s
  rcases rsEncodeBody_cases n s with ⟨-, e⟩ | ⟨-, -, e⟩ | ⟨-, -, e⟩ <;> rw [e] <;> nofun

theorem placeBody_neverBadCommand : NeverBadCommand placeBody := by
  intro s
  rcases placeBody_cases s with ⟨-, e⟩ | ⟨-, -, e⟩ | ⟨-, -, e⟩ <;> rw [e] <;> nofun

theorem eccBody_neverBadCommand : NeverBadCommand eccBody := .withVersion fun _ => nofun

theorem buildSkeletonBody_neverBadCommand : NeverBadCommand buildSkeletonBody := .withVersion fun _ => nofun

theorem maskSelectBody_neverBadCommand : NeverBadCommand maskSelectBody := .withSetCells fun _ _ => nofun

theorem maskApplyBody_neverBadCommand (mid : Nat) : NeverBadCommand (maskApplyBody mid) := .withSetCells fun _ _ => nofun

theorem formatWriteBody_neverBadCommand : NeverBadCommand formatWriteBody := .withVersion fun _ => nofun

theorem chooseMask_neverBadCommand (fm : Bool) (mid : Nat) : NeverBadCommand (chooseMask fm mid) := by
  cases fm with
  | true => exact fun _ => nofun
  | false => exact maskSelectBody_neverBadCommand

theorem encodeSteps_neverBadCommand (fm : Bool) (mid : Nat) : NeverBadCommand (encodeSteps fm mid) :=
  (((((padBody_neverBadCommand.andThen eccBody_neverBadCommand).andThen buildSkeletonBody_neverBadCommand).andThen
    placeBody_neverBadCommand).andThen (chooseMask_neverBadCommand fm mid)).andThen
    fun s => maskApplyBody_neverBadCommand s.maskId s).andThen formatWriteBody_neverBadCommand

theorem bodyOf_neverBadCommand (i : Instr) : NeverBadCommand (bodyOf i) := by
  cases i with
  | nop | softReset | gfMul | gfExp => exact fun _ => nofun
  | encode fm mid =>
    intro s
    rw [bodyOf, failClosed_snd]
    exact encodeSteps_neverBadCommand fm mid s
  | gfLog => exact gfLogBody_neverBadCommand
  | pad => exact padBody_neverBadCommand
  | ecc => exact eccBody_neverBadCommand
  | rsEncode n => exact rsEncodeBody_neverBadCommand n
  | buildSkeleton => exact buildSkeletonBody_neverBadCommand
  | place => exact placeBody_neverBadCommand
  | maskSelect => exact maskSelectBody_neverBadCommand
  | maskApply mid => exact maskApplyBody_neverBadCommand mid
  | formatWrite => exact formatWriteBody_neverBadCommand

/-- No command writes `STATUS` before its completion (rules R40, R102). -/
theorem bodyOf_status (i : Instr) (s : State) : (bodyOf i s).1.status = s.status := by
  by_cases hi : i = .softReset
  · subst hi
    rfl
  · exact (bodyOf_writes hi s).hostStateKept.status

theorem ErrCode.bits_mem_of_ne_badCommand {e : ErrCode} (h : e ≠ .badCommand) :
    e.bits ∈ [1#4, 2#4, 3#4, 4#4, 5#4, 7#4] := by
  cases e with
  | badCommand => exact absurd rfl h
  | _ => decide

/-- Settles O9: the command is its body, which keeps `STATUS`, and its completion with the body's error, if any. -/
theorem everyCommandCompletes : Obligations.EveryCommandCompletes := by
  intro i s
  have hstatus := bodyOf_status i s
  refine ⟨_, exec_eq_complete i s, ?busy, ?done, ?overrun, ?error⟩
  case busy => rw [State.complete_status, Status.completed_busy]
  case done => rw [State.complete_status, Status.completed_done]
  case overrun => rw [State.complete_status, Status.completed_overrun, hstatus]
  case error =>
    rw [State.complete_status, hstatus]
    cases he : (bodyOf i s).2 with
    | none => exact .inl ⟨Status.completed_none_err _, Status.completed_none_errCode _⟩
    | some e =>
      have hne : e ≠ .badCommand := fun h => bodyOf_neverBadCommand i s (by rw [he, h])
      exact .inr ⟨Status.completed_some_err e _, ErrCode.bits_mem_of_ne_badCommand hne⟩

/-! `ENCODE` of an input that is too long (rules R109, R256). -/

theorem capOf_le {v : Nat} (hv : 1 ≤ v ∧ v ≤ 10) : capOf v ≤ 271 := by
  obtain ⟨hlo, hhi⟩ := hv
  interval_cases v <;> decide

/-- No version holds more than the 271 bytes of version 10 (rule R130). -/
theorem selectVersion_eq_none {L : Nat} (hL : 271 < L) : selectVersion L = none := by
  cases hsel : selectVersion L with
  | none => rfl
  | some v =>
    obtain ⟨hv, hfits⟩ := selectVersion_some hsel
    have := capOf_le hv
    omega

theorem padBody_tooLong {s : State} (hL : 271 < s.inputLength) : padBody s = (s, some .tooLong) := by
  rcases padBody_cases s with ⟨-, e⟩ | ⟨v, hsel, -⟩
  · exact e
  · rw [selectVersion_eq_none hL] at hsel
    cases hsel

/-- The first step fails and no other runs. -/
theorem encodeSteps_tooLong {s : State} (fm : Bool) (mid : Nat) (hL : 271 < s.inputLength) :
    encodeSteps fm mid s = (s, some .tooLong) := by
  simp only [encodeSteps, padBody_tooLong hL, Result.andThen_error]

theorem exec_encode_tooLong {s : State} (fm : Bool) (mid : Nat) (hL : 271 < s.inputLength) :
    exec (.encode fm mid) s = .next (failed 1 s.clearPlanes) := by
  have hbody : bodyOf (.encode fm mid) s = (s.clearPlanes, some .tooLong) :=
    congrArg failClosed (encodeSteps_tooLong fm mid hL)
  rw [exec_eq_complete, hbody]
  rfl

theorem Memory.read_fillPlane_nil (m : Memory) (p : Plane) (a : Nat) :
    (m.fillPlane p []).read a = if p.base ≤ a ∧ a < p.base + planeBytes then 0 else m.read a :=
  m.read_fillPlane p [] a

/-- The bytes of the three planes read 0, and no other byte changes. -/
theorem State.read_clearPlanes (s : State) (a : Nat) :
    s.clearPlanes.mem.read a = if planeByte a then 0 else s.mem.read a := by
  rw [State.clearPlanes_mem]
  cases ha : planeByte a with
  | false => simp only [Memory.read_fillPlane_of_not_planeByte _ _ _ ha, Bool.false_eq_true, if_false]
  | true =>
    simp only [Memory.read_fillPlane_nil, Plane.base, planeBytes, if_true]
    rcases (planeByte_iff a).mp ha with hdark | hset | hrsv
    · rw [if_neg (by omega), if_neg (by omega)]
      exact if_pos hdark
    · rw [if_neg (by omega)]
      exact if_pos hset
    · exact if_pos hrsv

/-- Settles O54: the failed completion of a state whose planes are cleared. -/
theorem encodeFailsClosed : Obligations.EncodeFailsClosed :=
  fun s fm mid hlen => ⟨s.clearPlanes.mem, exec_encode_tooLong fm mid hlen, s.read_clearPlanes⟩

/-! The steps of `ENCODE`, issued one by one (rules R107, R287). -/

theorem runAll_cons {i : Instr} {s t : State} (is : List Instr) (h : exec i s = .next t) :
    runAll (i :: is) s = runAll is t := by
  rw [runAll, h]

/-- A completion without an error, after another one, changes nothing. -/
theorem State.complete_none_eq_self {s t : State} (h : t.status = (s.complete none).status) : t.complete none = t := by
  have hstatus : t.status.completed none = t.status := by rw [h]; rfl
  exact congrArg (fun x => ({ t with status := x } : State)) hstatus

/-- A command that succeeds in a block whose last command has completed leaves what its body gives. -/
theorem exec_of_bodyOf_ok {i : Instr} {s t u : State} (h : bodyOf i t = (u, none))
    (ht : t.status = (s.complete none).status) : exec i t = .next u := by
  have hu : u.status = t.status := by rw [← bodyOf_status i t, h]
  rw [exec_eq_complete, h, State.complete_none_eq_self (hu.trans ht)]

section
variable {fm : Bool} {mid v : Nat} {s : State} (hv : 1 ≤ v ∧ v ≤ 10)

theorem exec_pad_ok (hsel : selectVersion s.inputLength = some v) :
    exec .pad s = .next (afterPad v (s.complete none)) := by
  have hbody : bodyOf .pad s = (afterPad v s, none) := padBody_ok hsel
  rw [exec_eq_complete, hbody]
  rfl

include hv

theorem exec_ecc_afterPad : exec .ecc (afterPad v (s.complete none)) = .next (afterEcc v (s.complete none)) :=
  exec_of_bodyOf_ok (s := s) (eccBody_afterPad hv) rfl

theorem exec_buildSkeleton_afterEcc :
    exec .buildSkeleton (afterEcc v (s.complete none)) = .next (afterSkeleton v (s.complete none)) :=
  exec_of_bodyOf_ok (s := s) (buildSkeletonBody_afterEcc hv) rfl

theorem exec_place_afterSkeleton :
    exec .place (afterSkeleton v (s.complete none)) = .next (afterPlace v (s.complete none)) :=
  exec_of_bodyOf_ok (s := s) (placeBody_afterSkeleton hv) rfl

theorem exec_maskSelect_afterPlace :
    exec .maskSelect (afterPlace v (s.complete none)) = .next (afterChoice false mid v (s.complete none)) :=
  exec_of_bodyOf_ok (s := s) (chooseMask_afterPlace (fm := false) hv) rfl

/-- `MASK_APPLY` sets `MASK` itself, so a forced mask needs no choice before it (rule R234). -/
theorem maskApplyBody_afterPlace (hmid : mid < 8) :
    maskApplyBody mid (afterPlace v s) = (afterMask true mid v s, none) := by
  have hmask : (symbolMask true mid v s.inputBytes).toNat = mid := Nat.mod_eq_of_lt hmid
  have hchoice : afterChoice true mid v s = { afterPlace v s with mask := BitVec.ofNat 3 mid } :=
    (congrArg Prod.fst (chooseMask_afterPlace hv)).symm
  rw [maskApplyBody, withSetCells_ok hv (ver_eq_of_version hv (afterPlace_version v s)) (afterPlace_matrix hv)
    (placedMatrix_set hv s.inputBytes), State.side, ver_eq_of_version hv (afterPlace_version v s), afterMask,
    hchoice, maskedMatrix, hmask]
  rfl

theorem exec_maskApply_afterPlace (hmid : mid < 8) :
    exec (.maskApply mid) (afterPlace v (s.complete none)) = .next (afterMask true mid v (s.complete none)) :=
  exec_of_bodyOf_ok (s := s) (maskApplyBody_afterPlace hv hmid) rfl

theorem exec_maskApply_afterChoice :
    exec (.maskApply (afterChoice fm mid v (s.complete none)).maskId) (afterChoice fm mid v (s.complete none)) =
      .next (afterMask fm mid v (s.complete none)) :=
  exec_of_bodyOf_ok (s := s) (maskApplyBody_afterChoice hv) rfl

theorem exec_formatWrite_afterMask :
    exec .formatWrite (afterMask fm mid v (s.complete none)) = .next (afterFormat fm mid v (s.complete none)) :=
  exec_of_bodyOf_ok (s := s) (formatWriteBody_afterMask hv) rfl

/-- The steps that both forms of `ENCODE` share. -/
theorem runAll_untilPlace (hsel : selectVersion s.inputLength = some v) (is : List Instr) :
    runAll (.pad :: .ecc :: .buildSkeleton :: .place :: is) s = runAll is (afterPlace v (s.complete none)) := by
  rw [runAll_cons _ (exec_pad_ok hsel), runAll_cons _ (exec_ecc_afterPad hv),
    runAll_cons _ (exec_buildSkeleton_afterEcc hv), runAll_cons _ (exec_place_afterSkeleton hv)]

end

/-- The completion of `ENCODE` is the one that its first step adds when it is issued alone. -/
theorem complete_afterFormat (fm : Bool) (mid v : Nat) (s : State) :
    (afterFormat fm mid v s).complete none = afterFormat fm mid v (s.complete none) := rfl

theorem exec_encode_eq_afterFormat {s : State} {v : Nat} (fm : Bool) (mid : Nat)
    (hsel : selectVersion s.inputLength = some v) :
    exec (.encode fm mid) s = .next (afterFormat fm mid v (s.complete none)) := by
  rw [exec_encode_ok fm mid hsel, complete_afterFormat]

/-- Settles O55: every step, issued alone, leaves the state that it leaves within `ENCODE`, but for the completion, which
changes nothing when it is repeated. -/
theorem encodeIsTheStepwisePipeline : Obligations.EncodeIsTheStepwisePipeline := by
  intro s mid hmid hlen
  obtain ⟨v, hsel, hv, -⟩ := exists_selectVersion hlen
  refine ⟨⟨_, ?forced, exec_encode_eq_afterFormat true mid hsel⟩,
    afterChoice false mid v (s.complete none), _, ?select, ?apply, exec_encode_eq_afterFormat false mid hsel⟩
  case forced =>
    rw [runAll_untilPlace hv hsel, runAll_cons _ (exec_maskApply_afterPlace hv hmid),
      runAll_cons _ (exec_formatWrite_afterMask hv), runAll]
  case select =>
    rw [runAll_untilPlace hv hsel, runAll_cons _ (exec_maskSelect_afterPlace hv), runAll]
  case apply =>
    exact (runAll_cons _ (exec_maskApply_afterChoice hv)).trans (runAll_cons _ (exec_formatWrite_afterMask hv))

end Sys2Proof.Machine
namespace Sys2Proof.Machine

open Sys2Proof.Ref

/-! The capacity table (rules R121, R122). -/

theorem dataCodewords_eq_dataCwOf {v : Nat} (hv : 1 ≤ v ∧ v ≤ 10) : dataCodewords v = dataCwOf v := by
  obtain ⟨hlo, hhi⟩ := hv
  interval_cases v <;> rfl

theorem ccBits_eq (v : Nat) : ccBits v = if v = 10 then 16 else 8 := by
  split
  case isTrue hv => rw [hv]; rfl
  case isFalse hv => exact ccBits.eq_2 v hv

theorem ccBits_mod_eight (v : Nat) : ccBits v % 8 = 0 := by
  rw [ccBits_eq]
  split <;> rfl

theorem capOf_eq {v : Nat} (hv : 1 ≤ v ∧ v ≤ 10) : capOf v = (8 * dataCwOf v - 4 - ccBits v) / 8 := by
  rw [← capacity_eq_capOf hv, capacity, dataCodewords_eq_dataCwOf hv, countBits, ← ccBits_eq]

theorem capOf_lt_capOf_succ {v : Nat} (hlo : 1 ≤ v) (hhi : v < 10) : capOf v < capOf (v + 1) := by
  interval_cases v <;> decide

/-- Settles O33: the formula is the table's, entry by entry, and its quotient by 8 is the greatest count that fits. -/
theorem capacityIsWhatFits : Obligations.CapacityIsWhatFits := by
  intro v hlo hhi
  have hformula := capOf_eq ⟨hlo, hhi⟩
  have hfits := (payload_fits ⟨hlo, hhi⟩).1
  exact ⟨hformula, capOf_lt_capOf_succ hlo, fun n => by omega⟩

/-! A number as bits, cut into groups (rule R9). -/

theorem natBits_add (w k n : Nat) : natBits (w + k) n = natBits w (n / 2 ^ k) ++ natBits k n := by
  refine List.ext_getElem (by simp [natBits]) fun i h _ => ?_
  have hi : i < w + k := by rwa [length_natBits] at h
  rcases Nat.lt_or_ge i w with hw | hw
  · rw [List.getElem_append_left (by rwa [length_natBits])]
    simp only [natBits, List.getElem_map, List.getElem_range, Nat.testBit_div_two_pow]
    congr 1
    omega
  · rw [List.getElem_append_right (by rwa [length_natBits])]
    simp only [natBits, List.getElem_map, List.getElem_range, List.length_map, List.length_range]
    congr 1
    omega

theorem natBits_mod (w n : Nat) : natBits w (n % 2 ^ w) = natBits w n := by
  refine List.map_congr_left fun k hk => ?_
  rw [List.mem_range] at hk
  rw [Nat.testBit_mod_two_pow, decide_eq_true (by omega), Bool.true_and]

theorem bitsNat_natBits (w n : Nat) : bitsNat (natBits w n) = n % 2 ^ w := by
  induction w generalizing n with
  | zero => rw [Nat.pow_zero, Nat.mod_one]; rfl
  | succ w ih =>
    have hlast : natBits 1 n = [n.testBit 0] := rfl
    rw [natBits_add, hlast, bitsNat_append_one, ih, Nat.testBit_zero, Nat.pow_one, Nat.pow_succ', Nat.mod_mul,
      Nat.add_comm]
    rcases Nat.mod_two_eq_zero_or_one n with h | h <;> rw [h] <;> rfl

theorem ofNat_bitsNat_byteBits (b : Byte) : BitVec.ofNat 8 (bitsNat (byteBits b)) = b := by
  rw [byteBits, bitsNat_natBits, Nat.mod_eq_of_lt b.isLt, BitVec.ofNat_toNat, BitVec.setWidth_eq]

/-- The bytes of a bit sequence made of bytes are those bytes. -/
theorem bitsBytes_bytesBits {bs : List Byte} {n : Nat} (hn : bs.length = n) : bitsBytes n (bytesBits bs) = bs := by
  subst hn
  induction bs with
  | nil => rfl
  | cons b bs ih =>
    have hcons : bytesBits (b :: bs) = byteBits b ++ bytesBits bs := rfl
    have hlen : (byteBits b).length = 8 := length_natBits _ _
    rw [hcons, List.length_cons, bitsBytes, List.take_left' hlen, List.drop_left' hlen, ih, ofNat_bitsNat_byteBits]

theorem bytesBits_append (bs cs : List Byte) : bytesBits (bs ++ cs) = bytesBits bs ++ bytesBits cs :=
  List.flatMap_append

/-! Nibbles, as bits and as bytes: the form in which rules R125 to R128 are stated. -/

/-- The bits of a nibble sequence. -/
def nibbleBits (ns : List Nat) : List Bool := ns.flatMap (natBits 4)

/-- A nibble sequence as bytes, two nibbles to a byte. -/
def packNibbles : List Nat → List Byte
  | a :: b :: ns => BitVec.ofNat 8 (16 * a + b) :: packNibbles ns
  | _ => []

theorem nibbleBits_append (ns ms : List Nat) : nibbleBits (ns ++ ms) = nibbleBits ns ++ nibbleBits ms :=
  List.flatMap_append

theorem nibbleBits_cons (n : Nat) (ns : List Nat) : nibbleBits (n :: ns) = natBits 4 n ++ nibbleBits ns := rfl

theorem length_nibbleBits (ns : List Nat) : (nibbleBits ns).length = 4 * ns.length := by
  induction ns with
  | nil => rfl
  | cons n ns ih =>
    rw [nibbleBits_cons, List.length_append, length_natBits, ih, List.length_cons]
    omega

theorem natBits_eight (n : Nat) : natBits 8 n = nibbleBits [n / 16 % 16, n % 16] := by
  rw [natBits_add 4 4, nibbleBits_cons, nibbleBits_cons, ← natBits_mod 4 n, ← natBits_mod 4 (n / 2 ^ 4)]
  rfl

theorem natBits_sixteen (n : Nat) :
    natBits 16 n = nibbleBits [n / 4096 % 16, n / 256 % 16, n / 16 % 16, n % 16] := by
  have hhigh : n / 2 ^ 8 / 16 = n / 4096 := Nat.div_div_eq_div_mul n _ _
  rw [natBits_add 8 8, natBits_eight n, natBits_eight (n / 2 ^ 8), ← nibbleBits_append, hhigh]
  rfl

/-- The nibbles of a byte, high nibble first. -/
def byteNibbles (b : Byte) : List Nat := [b.toNat / 16, b.toNat % 16]

theorem byteBits_eq_nibbleBits (b : Byte) : byteBits b = nibbleBits (byteNibbles b) := by
  have hb : b.toNat / 16 % 16 = b.toNat / 16 := Nat.mod_eq_of_lt (by omega)
  rw [byteBits, natBits_eight, hb, byteNibbles]

theorem byteBits_ofNat {a b : Nat} (ha : a < 16) (hb : b < 16) :
    byteBits (BitVec.ofNat 8 (16 * a + b)) = nibbleBits [a, b] := by
  have hval : (BitVec.ofNat 8 (16 * a + b)).toNat = 16 * a + b := Nat.mod_eq_of_lt (by omega)
  rw [byteBits_eq_nibbleBits, byteNibbles, hval, show (16 * a + b) / 16 = a by omega, show (16 * a + b) % 16 = b by omega]

/-- Packed into bytes, an even number of nibbles keeps its bits. -/
theorem bytesBits_packNibbles : ∀ {ns : List Nat}, ns.length % 2 = 0 → (∀ n ∈ ns, n < 16) →
    bytesBits (packNibbles ns) = nibbleBits ns
  | [], _, _ => rfl
  | [_], heven, _ => by cases heven
  | a :: b :: ns, heven, hlt => by
    have hrest : bytesBits (packNibbles ns) = nibbleBits ns :=
      bytesBits_packNibbles (by rw [List.length_cons, List.length_cons] at heven; omega)
        fun n hn => hlt n (List.mem_cons_of_mem _ (List.mem_cons_of_mem _ hn))
    have hpair := byteBits_ofNat (hlt a (by simp)) (hlt b (by simp))
    calc bytesBits (packNibbles (a :: b :: ns))
        = byteBits (BitVec.ofNat 8 (16 * a + b)) ++ bytesBits (packNibbles ns) := rfl
      _ = nibbleBits [a, b] ++ nibbleBits ns := by rw [hpair, hrest]
      _ = nibbleBits (a :: b :: ns) := (nibbleBits_append _ _).symm

theorem length_packNibbles : ∀ ns : List Nat, (packNibbles ns).length = ns.length / 2
  | [] => rfl
  | [_] => by simp [packNibbles]
  | _ :: _ :: ns => by simp only [packNibbles, List.length_cons, length_packNibbles ns]; omega

theorem getD_packNibbles : ∀ {ns : List Nat} {i : Nat}, i < ns.length / 2 →
    (packNibbles ns).getD i 0 = BitVec.ofNat 8 (16 * ns.getD (2 * i) 0 + ns.getD (2 * i + 1) 0)
  | [], _, h | [_], _, h => by simp at h
  | _ :: _ :: _, 0, _ => rfl
  | _ :: _ :: ns, i + 1, h => by
    rw [List.length_cons, List.length_cons] at h
    exact getD_packNibbles (ns := ns) (by omega)

/-! The bit sequence of `PAD` in nibbles (rules R125 to R128). -/

/-- The nibbles of the count (rules R121, R125). -/
def countNibbles (v L : Nat) : List Nat :=
  (if v = 10 then [L / 4096 % 16, L / 256 % 16] else []) ++ [L / 16 % 16, L % 16]

theorem natBits_ccBits (v L : Nat) : natBits (ccBits v) L = nibbleBits (countNibbles v L) := by
  rw [ccBits_eq, countNibbles]
  split
  · exact natBits_sixteen L
  · exact natBits_eight L

theorem length_countNibbles (v L : Nat) : 4 * (countNibbles v L).length = ccBits v := by
  rw [← length_nibbleBits, ← natBits_ccBits, length_natBits]

section
variable (data : Nat → Byte)

/-- The nibbles of the first `L` bytes. -/
def dataNibbles (L : Nat) : List Nat := (List.range L).flatMap fun k => byteNibbles (data k)

theorem bytesBits_map_range (L : Nat) : bytesBits ((List.range L).map data) = nibbleBits (dataNibbles data L) := by
  simp only [bytesBits, nibbleBits, dataNibbles, List.flatMap_map, List.flatMap_assoc, byteBits_eq_nibbleBits]

theorem length_dataNibbles (L : Nat) : 4 * (dataNibbles data L).length = 8 * L := by
  rw [← length_nibbleBits, ← bytesBits_map_range, length_bytesBits, List.length_map, List.length_range]

theorem nibbles_eq (v L : Nat) : nibbles v L data = 4 :: (countNibbles v L ++ dataNibbles data L ++ [0]) := rfl

theorem length_nibbles (v L : Nat) : 4 * (nibbles v L data).length = 8 + ccBits v + 8 * L := by
  have hcount := length_countNibbles v L
  have hdata := length_dataNibbles data L
  simp only [nibbles_eq, List.length_cons, List.length_append, List.length_nil]
  omega

theorem nibbles_lt (v L : Nat) : ∀ n ∈ nibbles v L data, n < 16 := by
  intro n hn
  simp only [nibbles_eq, countNibbles, dataNibbles, byteNibbles, List.mem_cons, List.mem_append, List.mem_flatMap,
    List.not_mem_nil, or_false, List.mem_ite_nil_right] at hn
  rcases hn with rfl | ((⟨-, hhigh⟩ | hlow) | ⟨k, -, hbyte⟩) | rfl <;> omega

/-- The nibbles packed into bytes, then pad bytes up to the data codewords of the version. -/
def paddedBytes (v L : Nat) : List Byte :=
  packNibbles (nibbles v L data) ++ (List.range (dataCwOf v - (nibbles v L data).length / 2)).map padByte

variable {v L : Nat} (hv : 1 ≤ v ∧ v ≤ 10) (hL : L ≤ capOf v)
include hv hL

/-- The nibbles are whole bytes, and fit the data codewords. -/
theorem length_nibbles_fits : (nibbles v L data).length % 2 = 0 ∧ (nibbles v L data).length ≤ 2 * dataCwOf v := by
  have hlen := length_nibbles data v L
  have hcc := ccBits_mod_eight v
  have hfits := (payload_fits hv).1
  omega

/-- Mode, count, data and the whole terminator: a payload that fits ends 4 bits into a byte, which leaves room for all 4
bits of it (rule R126). -/
theorem terminatedBits_eq_nibbleBits :
    terminatedBits v ((List.range L).map data) = nibbleBits (nibbles v L data) := by
  have hpayload : payloadBits v ((List.range L).map data) =
      nibbleBits (4 :: (countNibbles v L ++ dataNibbles data L)) := by
    rw [payloadBits, List.length_map, List.length_range, natBits_ccBits, bytesBits_map_range, nibbleBits_cons,
      nibbleBits_append, List.append_assoc]
  have hroom : min 4 (8 * dataCwOf v - (payloadBits v ((List.range L).map data)).length) = 4 := by
    have hcc := ccBits_mod_eight v
    have hfits := (payload_fits hv).1
    rw [length_payloadBits, List.length_map, List.length_range]
    omega
  have hterminator : List.replicate 4 false = nibbleBits [0] := rfl
  simp only [terminatedBits]
  rw [hroom, hterminator, hpayload, ← nibbleBits_append, List.cons_append, nibbles_eq]

/-- `BITLEN` of rule R129. -/
theorem length_terminatedBits : (terminatedBits v ((List.range L).map data)).length =
    8 * L + if v = 10 then 24 else 16 := by
  rw [terminatedBits_eq_nibbleBits data hv hL, length_nibbleBits, length_nibbles, ccBits_eq]
  split <;> omega

theorem length_paddedBytes : (paddedBytes data v L).length = dataCwOf v := by
  have hfits := (length_nibbles_fits data hv hL).2
  rw [paddedBytes, List.length_append, length_packNibbles, List.length_map, List.length_range]
  omega

/-- No bit is missing to the next byte boundary (rule R127), so the pad bytes follow at once. -/
theorem paddedBits_eq_bytesBits : paddedBits v ((List.range L).map data) = bytesBits (paddedBytes data v L) := by
  obtain ⟨heven, hfits⟩ := length_nibbles_fits data hv hL
  have hlen := length_nibbleBits (nibbles v L data)
  have haligned : alignBits (nibbleBits (nibbles v L data)) = nibbleBits (nibbles v L data) := by
    have hnone : (8 - (nibbleBits (nibbles v L data)).length % 8) % 8 = 0 := by omega
    rw [alignBits, hnone, List.replicate_zero, List.append_nil]
  have hcount : (8 * dataCwOf v - (nibbleBits (nibbles v L data)).length) / 8 =
      dataCwOf v - (nibbles v L data).length / 2 := by omega
  simp only [paddedBits]
  rw [terminatedBits_eq_nibbleBits data hv hL, haligned, hcount, paddedBytes, bytesBits_append,
    bytesBits_packNibbles heven (nibbles_lt data v L)]

theorem dataBytes_eq_paddedBytes : dataBytes v ((List.range L).map data) = paddedBytes data v L := by
  rw [dataBytes, paddedBits_eq_bytesBits data hv hL, bitsBytes_bytesBits (length_paddedBytes data hv hL)]

/-- The three ranges of `DATA_CW`: the nibbles, the pad bytes, and the zeros after them (rules R124, R128). -/
theorem getD_paddedBytes (i : Nat) : (paddedBytes data v L).getD i 0 = paddedCodeword v L data i := by
  have heven := (length_nibbles_fits data hv hL).1
  have hpack := length_packNibbles (nibbles v L data)
  rw [paddedCodeword, dataCodewords_eq_dataCwOf hv]
  split
  case isTrue hi => rw [paddedBytes, List.getD_append _ _ _ _ (by omega), getD_packNibbles (by omega)]
  case isFalse hi =>
    split
    case isTrue hpad =>
      rw [paddedBytes, List.getD_append_right _ _ _ _ (by omega), hpack,
        List.getD_eq_getElem _ _ (by rw [List.length_map, List.length_range]; omega), List.getElem_map,
        List.getElem_range, padByte]
    case isFalse hzero => exact List.getD_eq_default _ _ (by rw [length_paddedBytes data hv hL]; omega)

end

theorem inputBytes_eq_map_read (s : State) :
    s.inputBytes = (List.range s.len.toNat).map fun k => s.mem.read (0x400 + k) := by
  refine List.ext_getElem (by simp [State.inputLength]) fun i h _ => ?_
  have hi : i < s.inputLength := by rwa [length_inputBytes] at h
  rw [← List.getD_eq_getElem _ 0 h, List.getElem_map, List.getElem_range]
  exact s.mem.getD_load hi

/-- Settles O34: `PAD` leaves `afterPad` of the selected version, whose `DATA_CW` is `paddedCodeword` byte by byte. -/
theorem padBuildsTheCodewords : Obligations.PadBuildsTheCodewords := by
  intro s hlen
  obtain ⟨v, hsel, hv, hfits, hleast⟩ := exists_selectVersion hlen
  have hcap : s.len.toNat ≤ capOf v := capacity_eq_capOf hv ▸ hfits
  have hinput := inputBytes_eq_map_read s
  refine ⟨v, (afterPad v s).mem, hv.1, hv.2, hfits, hleast, ?next, fun a => ?read⟩
  case next =>
    rw [exec_pad_ok hsel, ← length_terminatedBits (fun k => s.mem.read (0x400 + k)) hv hcap, ← hinput]
    rfl
  case read =>
    rw [afterPad_mem, State.read_fillBuf, hinput, dataBytes_eq_paddedBytes _ hv hcap, getD_paddedBytes _ hv hcap]
    rfl

end Sys2Proof.Machine
namespace Sys2Proof.Machine

open Sys2Proof.Ref

/-! The tables and the powers of the generator element (rules R140, R141). -/

/-- The exponent table goes round: after its last entry, too, comes the product of that entry with 2. -/
theorem gfExpTable_succ : ∀ r < 255, gfExpTable.getD ((r + 1) % 255) 0 = xtime (gfExpTable.getD r 0) := by
  decide +kernel

theorem gfExp_succ (i : Nat) : gfExp (i + 1) = xtime (gfExp i) := by
  have hmod : (i + 1) % 255 = (i % 255 + 1) % 255 := by omega
  rw [gfExp, hmod]
  exact gfExpTable_succ (i % 255) (Nat.mod_lt i (by decide))

theorem gfExp_eq_pow2 (i : Nat) : gfExp i = pow2 i := by
  induction i with
  | zero => rfl
  | succ i ih => rw [gfExp_succ, ih, pow2]

/-- The powers repeat after 255 (rule R140: the table is doubled). -/
theorem pow2_mod (i : Nat) : pow2 (i % 255) = pow2 i := by
  rw [← gfExp_eq_pow2, ← gfExp_eq_pow2, gfExp, gfExp, Nat.mod_mod]

theorem gfLog_gfExpTable : ∀ r < 255, gfLog (gfExpTable.getD r 0) = some r := by decide +kernel

@[simp] theorem gfLog_pow2 (i : Nat) : gfLog (pow2 i) = some (i % 255) := by
  rw [← gfExp_eq_pow2]
  exact gfLog_gfExpTable (i % 255) (Nat.mod_lt i (by decide))

@[simp] theorem gfLog_zero : gfLog 0#8 = none := rfl

/-- The entry of each byte but 0 in the logarithm table is an exponent of that byte (rule R141). -/
theorem gfLogTable_spec : ∀ k < 255,
    gfLogTable.getD k 0 < 255 ∧ gfExpTable.getD (gfLogTable.getD k 0) 0 = BitVec.ofNat 8 (k + 1) := by decide +kernel

/-- Every element but 0 is a power of the generator element. -/
theorem exists_pow2_eq {a : Byte} (ha : a ≠ 0) : ∃ i < 255, pow2 i = a := by
  have hpos : a.toNat ≠ 0 := fun h => ha (BitVec.eq_of_toNat_eq h)
  have hlt : a.toNat - 1 < 255 := by have := a.isLt; omega
  obtain ⟨hi, hexp⟩ := gfLogTable_spec (a.toNat - 1) hlt
  refine ⟨_, hi, ?_⟩
  rw [← gfExp_eq_pow2, gfExp, Nat.mod_eq_of_lt hi, hexp, Nat.sub_add_cancel (Nat.pos_of_ne_zero hpos),
    BitVec.ofNat_toNat, BitVec.setWidth_eq]

theorem eq_zero_or_pow2 (a : Byte) : a = 0#8 ∨ ∃ i, a = pow2 i := by
  by_cases ha : a = 0
  · exact .inl ha
  · obtain ⟨i, -, hi⟩ := exists_pow2_eq ha
    exact .inr ⟨i, hi.symm⟩

/-- The exponent is unique below 255 (rule R141). -/
theorem pow2_injective {i j : Nat} (hi : i < 255) (hj : j < 255) (h : pow2 i = pow2 j) : i = j := by
  have hlog := congrArg gfLog h
  rw [gfLog_pow2, gfLog_pow2, Nat.mod_eq_of_lt hi, Nat.mod_eq_of_lt hj] at hlog
  exact Option.some.inj hlog

/-! The product by logarithms (rules R142, R143). -/

/-- The logarithm of a product is the sum of the logarithms. -/
@[simp] theorem gfMul_pow2 (i j : Nat) : gfMul (pow2 i) (pow2 j) = pow2 (i + j) := by
  simp only [gfMul, gfLog_pow2, gfExp_eq_pow2]
  rw [← pow2_mod, ← Nat.add_mod, pow2_mod]

@[simp] theorem gfMul_zero (a : Byte) : gfMul a 0#8 = 0#8 := by
  unfold gfMul
  cases gfLog a <;> rfl

@[simp] theorem zero_gfMul (b : Byte) : gfMul 0#8 b = 0#8 := rfl

theorem gfMul_comm (a b : Byte) : gfMul a b = gfMul b a := by
  obtain rfl | ⟨i, rfl⟩ := eq_zero_or_pow2 a
  · rw [zero_gfMul, gfMul_zero]
  obtain rfl | ⟨j, rfl⟩ := eq_zero_or_pow2 b
  · rw [zero_gfMul, gfMul_zero]
  rw [gfMul_pow2, gfMul_pow2, Nat.add_comm]

theorem gfMul_assoc (a b c : Byte) : gfMul (gfMul a b) c = gfMul a (gfMul b c) := by
  obtain rfl | ⟨i, rfl⟩ := eq_zero_or_pow2 a
  · simp only [zero_gfMul]
  obtain rfl | ⟨j, rfl⟩ := eq_zero_or_pow2 b
  · simp only [zero_gfMul, gfMul_zero]
  obtain rfl | ⟨k, rfl⟩ := eq_zero_or_pow2 c
  · simp only [gfMul_zero]
  simp only [gfMul_pow2, Nat.add_assoc]

@[simp] theorem gfMul_one (a : Byte) : gfMul a 1#8 = a := by
  obtain rfl | ⟨i, rfl⟩ := eq_zero_or_pow2 a
  · rfl
  · exact gfMul_pow2 i 0

/-! The product by shifts: multiplication with a power of 2 is linear over `XOR`. -/

/-- What is added to a shifted element to keep it a byte: the low byte of 0x11D, if bit 7 was set (rule R140). -/
def xtimeReduction (carry : Bool) : Byte := if carry then 0x1D else 0

theorem xtimeReduction_xor (p q : Bool) : xtimeReduction (p ^^ q) = xtimeReduction p ^^^ xtimeReduction q := by
  cases p <;> cases q <;> rfl

theorem xtime_eq_shift_xor_xtimeReduction (a : Byte) : xtime a = a <<< 1 ^^^ xtimeReduction a.msb := by
  revert a
  decide +kernel

theorem xtime_xor (a b : Byte) : xtime (a ^^^ b) = xtime a ^^^ xtime b := by
  simp only [xtime_eq_shift_xor_xtimeReduction, BitVec.msb_xor, xtimeReduction_xor, BitVec.shiftLeft_xor_distrib]
  ac_rfl

theorem shifted_xor (a b : Byte) (k : Nat) : shifted (a ^^^ b) k = shifted a k ^^^ shifted b k := by
  induction k with
  | zero => rfl
  | succ k ih => simp only [shifted, ih, xtime_xor]

theorem shifted_zero (k : Nat) : shifted 0#8 k = 0#8 := by
  induction k with
  | zero => rfl
  | succ k ih => rw [shifted, ih]; rfl

theorem shifted_pow2 (i k : Nat) : shifted (pow2 i) k = pow2 (i + k) := by
  induction k with
  | zero => rfl
  | succ k ih => rw [shifted, ih, ← Nat.add_assoc, pow2]

theorem gfMul_pow2_right (a : Byte) (k : Nat) : gfMul a (pow2 k) = shifted a k := by
  obtain rfl | ⟨i, rfl⟩ := eq_zero_or_pow2 a
  · rw [zero_gfMul, shifted_zero]
  · rw [gfMul_pow2, shifted_pow2]

theorem xor_gfMul (a b c : Byte) : gfMul (a ^^^ b) c = gfMul a c ^^^ gfMul b c := by
  obtain rfl | ⟨k, rfl⟩ := eq_zero_or_pow2 c
  · simp only [gfMul_zero, BitVec.xor_self]
  · simp only [gfMul_pow2_right, shifted_xor]

theorem gfMul_xor (a b c : Byte) : gfMul a (b ^^^ c) = gfMul a b ^^^ gfMul a c := by
  rw [gfMul_comm, xor_gfMul, gfMul_comm b, gfMul_comm c]

/-- Settles O30: every element but 0 is a power of 2, powers multiply by adding exponents, and `XOR` commutes with the
shifts by which a power of 2 multiplies. -/
theorem gfFieldLaws : Obligations.GfFieldLaws := fun a b c =>
  ⟨gfMul_comm a b, gfMul_assoc a b c, gfMul_one a, gfMul_zero a, gfMul_xor a b c⟩

/-! The product by logarithms is the product of polynomials (rules R140, R142). -/

/-- A byte is the sum of the powers of 2 at its bits. -/
theorem one_mul_eq (b : Byte) : Ref.mul 1#8 b = b := by
  revert b
  decide +kernel

/-- One term of the sum `mul`: `a` shifted by `i`, if bit `i` of `b` is set. -/
def addShifted (a b acc : Byte) (i : Nat) : Byte := if b.getLsbD i then acc ^^^ shifted a i else acc

theorem mul_eq_foldl (a b : Byte) : Ref.mul a b = (List.range 8).foldl (addShifted a b) 0#8 := rfl

/-- The product with `a` makes each shift of 1 a shift of `a`. -/
theorem addShifted_gfMul (a b acc : Byte) (i : Nat) :
    addShifted a b (gfMul a acc) i = gfMul a (addShifted 1#8 b acc i) := by
  have hone : shifted 1#8 i = pow2 i := (shifted_pow2 0 i).trans (by rw [Nat.zero_add])
  unfold addShifted
  split
  · rw [gfMul_xor, hone, gfMul_pow2_right]
  · rfl

theorem mul_eq_gfMul (a b : Byte) : Ref.mul a b = gfMul a b := by
  have hsum := List.foldl_hom (l := List.range 8) (init := 0#8) (gfMul a) (addShifted_gfMul a b)
  rwa [gfMul_zero, ← mul_eq_foldl, ← mul_eq_foldl, one_mul_eq] at hsum

/-! The commands (rules R144 to R146). -/

theorem argA_eq_setWidth (s : State) : s.argA = s.arg.setWidth 8 :=
  (BitVec.setWidth_eq_extractLsb' (by decide)).symm

theorem argB_eq_setWidth (s : State) : s.argB = (s.arg >>> 8).setWidth 8 :=
  BitVec.eq_of_toNat_eq (by simp [State.argB])

theorem argIndex_eq_mod (s : State) : s.argIndex = s.arg.toNat % 512 := by
  rw [State.argIndex, BitVec.extractLsb'_toNat]
  rfl

theorem exec_gfMul (s : State) :
    exec .gfMul s = .next (done { s with result := (gfMul s.argA s.argB).setWidth 32 }) := rfl

theorem exec_gfExp (s : State) :
    exec .gfExp s = .next (done { s with result := (gfExp s.argIndex).setWidth 32 }) := rfl

theorem exec_gfLog_none {s : State} (h : gfLog s.argA = none) : exec .gfLog s = .next (failed 5 s) := by
  rcases gfLogBody_cases s with ⟨-, e⟩ | ⟨i, hi, -⟩
  · rw [exec_eq_complete, bodyOf, e]
    rfl
  · rw [h] at hi; cases hi

theorem exec_gfLog_some {s : State} {i : Nat} (h : gfLog s.argA = some i) :
    exec .gfLog s = .next (done { s with result := BitVec.ofNat 32 i }) := by
  rcases gfLogBody_cases s with ⟨hnone, -⟩ | ⟨j, hj, e⟩
  · rw [h] at hnone; cases hnone
  · obtain rfl := Option.some.inj (hj.symm.trans h)
    rw [exec_eq_complete, bodyOf, e]
    rfl

/-- Settles O29: the product by logarithms is that of polynomials, of the two bytes of `ARG`. -/
theorem gfMulIsThePolynomialProduct : Obligations.GfMulIsThePolynomialProduct := fun s => by
  rw [exec_gfMul, mul_eq_gfMul, argA_eq_setWidth, argB_eq_setWidth]

/-- Settles O31: the entry of the table at each index is the power of 2. -/
theorem gfExpReadsThePowersOfTwo : Obligations.GfExpReadsThePowersOfTwo := fun s => by
  rw [exec_gfExp, gfExp_eq_pow2, argIndex_eq_mod]

/-- Settles O32: 0 has no logarithm; any other byte is a power of 2, whose logarithm is its one exponent below 255. -/
theorem gfLogInvertsTheExponent : Obligations.GfLogInvertsTheExponent := by
  refine ⟨rfl, fun s => ⟨fun hzero => ?zero, fun hne => ?nonzero⟩⟩
  case zero =>
    have hlog : gfLog s.argA = none := by rw [argA_eq_setWidth, hzero]; rfl
    exact exec_gfLog_none hlog
  case nonzero =>
    obtain ⟨i, hi, hpow⟩ := exists_pow2_eq hne
    have hlog : gfLog s.argA = some i := by rw [argA_eq_setWidth, ← hpow, gfLog_pow2, Nat.mod_eq_of_lt hi]
    exact ⟨i, hi, hpow, fun j hj hj' => pow2_injective hj hi (hj'.trans hpow.symm), exec_gfLog_some hlog⟩

end Sys2Proof.Machine
namespace Sys2Proof.Machine

open Sys2Proof.Ref

/-! The generator table (rules R160, R161). -/

/-- The coefficients of `GEN[n]` after the leading one, by which `eccOf` divides. -/
def genTail (n : Nat) : List Byte := ((genPoly n).getD []).drop 1

theorem genPoly_eq_generator {n : Nat} (hn : n ∈ ecKeys) : genPoly n = some (generator n) := by
  revert n
  decide +kernel

theorem genPoly_eq_none {n : Nat} (hn : n ∉ ecKeys) : genPoly n = none := by
  have hcases : genPoly n = none ∨ n ∈ ecKeys := by
    unfold genPoly
    split <;> simp [ecKeys]
  exact hcases.resolve_right hn

theorem genPoly_eq_cons {n : Nat} (hn : n ∈ ecKeys) : genPoly n = some (1#8 :: genTail n) := by
  revert n
  decide

theorem length_genTail {n : Nat} (hn : n ∈ ecKeys) : (genTail n).length = n := by
  revert n
  decide

/-- Settles O35: each entry of the table is evaluated to the product, and every entry has its count in `EC_KEYS`. -/
theorem generatorTableIsTheProduct : Obligations.GeneratorTableIsTheProduct :=
  ⟨fun _ => genPoly_eq_generator, fun _ => genPoly_eq_none⟩

/-! The division, with the cancelled coefficients dropped, is the loop over the whole sequence (rule R163; log 13). -/

theorem xorInto_nil (m : List Byte) : xorInto m [] = m := by cases m <;> rfl

theorem length_xorInto (m q : List Byte) : (xorInto m q).length = m.length := by
  fun_induction xorInto m q with
  | case1 x xs y ys ih => rw [List.length_cons, List.length_cons, ih]
  | case2 xs => rfl
  | case3 q => rfl

/-- What a step of the division with the leading coefficient `coef` leaves of the coefficients `m` after it. -/
def cancelLead (g : List Byte) (coef : Byte) (m : List Byte) : List Byte :=
  if coef = 0 then m else xorInto m (g.map fun c => gfMul c coef)

theorem length_cancelLead (g : List Byte) (coef : Byte) (m : List Byte) : (cancelLead g coef m).length = m.length := by
  unfold cancelLead
  split
  · rfl
  · exact length_xorInto m _

theorem divide_zero (g m : List Byte) : divide g 0 m = m := by rw [divide]

theorem divide_cons (g : List Byte) (k : Nat) (coef : Byte) (m : List Byte) :
    divide g (k + 1) (coef :: m) = divide g k (cancelLead g coef m) := rfl

theorem length_divide (g : List Byte) (k : Nat) (m : List Byte) : (divide g k m).length = m.length - k := by
  induction k generalizing m with
  | zero => rw [divide_zero, Nat.sub_zero]
  | succ k ih =>
    obtain _ | ⟨coef, m⟩ := m
    · rw [divide, List.length_nil, Nat.zero_sub]
      exact Nat.succ_ne_zero k
    · rw [divide_cons, ih, length_cancelLead, List.length_cons, Nat.add_sub_add_right]

theorem eccOf_eq_divide (data : List Byte) (n : Nat) :
    eccOf data n = divide (genTail n) data.length (data ++ List.replicate n 0) := rfl

/-- The data with room for the remainder are long enough for a step of the division at each data codeword. -/
theorem length_genTail_le {n : Nat} (hn : n ∈ ecKeys) (data : List Byte) :
    data.length + (genTail n).length ≤ (data ++ List.replicate n 0#8).length := by
  rw [length_genTail hn, List.length_append, List.length_replicate]

theorem length_eccOf (data : List Byte) (n : Nat) : (eccOf data n).length = n := by
  rw [eccOf_eq_divide, length_divide, List.length_append, List.length_replicate, Nat.add_sub_cancel_left]

/-- The inner loop of the division changes what stands from its place on, as `xorInto` does. -/
theorem foldl_modify_eq_xorInto (coef : Byte) (g pre q : List Byte) (h : g.length ≤ q.length) :
    (List.range g.length).foldl (fun m j => m.modify (pre.length + j) fun x => x ^^^ gfMul (g.getD j 0) coef) (pre ++ q) =
      pre ++ xorInto q (g.map fun c => gfMul c coef) := by
  induction g generalizing pre q with
  | nil => simp [xorInto_nil]
  | cons c g ih =>
    obtain _ | ⟨x, q⟩ := q
    · simp at h
    · have hhead : (pre ++ x :: q).modify pre.length (fun y => y ^^^ gfMul c coef) = pre ++ (x ^^^ gfMul c coef) :: q := by
        simp [List.modify_eq_take_cons_drop]
      have hrest := ih (pre ++ [x ^^^ gfMul c coef]) q (by simpa using h)
      simp only [List.length_append, List.length_singleton, List.append_assoc, List.singleton_append] at hrest
      simpa [List.range_succ_eq_map, List.foldl_map, hhead, xorInto, Nat.add_assoc, Nat.add_comm 1] using hrest

/-- One turn of the loop at a place: the coefficient there becomes one that no later turn reads, the rest is as `divide`
leaves it. -/
theorem exists_divisionStep_eq (g pre m : List Byte) (coef : Byte) (h : g.length ≤ m.length) :
    ∃ x, divisionStep (1#8 :: g) (pre ++ coef :: m) pre.length =
      pre ++ x :: cancelLead g coef m := by
  have hcoef : (pre ++ coef :: m).getD pre.length 0 = coef := by simp
  by_cases hzero : coef = 0
  · exact ⟨coef, by simp [divisionStep, cancelLead, hzero]⟩
  · refine ⟨coef ^^^ gfMul 1#8 coef, ?_⟩
    have hloop := foldl_modify_eq_xorInto coef (1#8 :: g) pre (coef :: m) (by simpa using h)
    rw [cancelLead, if_neg hzero]
    simp only [divisionStep, hcoef, if_pos hzero]
    exact hloop

theorem drop_foldl_divisionStep (g : List Byte) (k : Nat) (pre q : List Byte) (h : k + g.length ≤ q.length) :
    ((List.range' pre.length k).foldl (divisionStep (1#8 :: g)) (pre ++ q)).drop (pre.length + k) = divide g k q := by
  induction k generalizing pre q with
  | zero => simp [divide_zero]
  | succ k ih =>
    obtain _ | ⟨coef, m⟩ := q
    · simp at h
    · have hm : k + g.length ≤ m.length := by rw [List.length_cons] at h; omega
      obtain ⟨x, hx⟩ := exists_divisionStep_eq g pre m coef (by omega)
      have hrest := ih (pre ++ [x]) (cancelLead g coef m) (by rwa [length_cancelLead])
      rw [List.range'_succ, List.foldl_cons, hx, divide_cons, ← hrest]
      simp [Nat.add_assoc, Nat.add_comm 1]

theorem eccOf_eq_eccLoop {n : Nat} (hn : n ∈ ecKeys) (data : List Byte) : eccOf data n = eccLoop data n := by
  have hloop := drop_foldl_divisionStep (genTail n) data.length [] (data ++ List.replicate n 0#8)
    (length_genTail_le hn data)
  rw [List.length_nil, Nat.zero_add, ← List.range_eq_range'] at hloop
  rw [eccOf_eq_divide, eccLoop, genPoly_eq_cons hn]
  exact hloop.symm

/-- Settles O36: by induction on the turns of the loop, what stands before the current place is never read again. -/
theorem divisionIsTheLoop : Obligations.DivisionIsTheLoop := fun data n hn =>
  ⟨eccOf_eq_eccLoop hn data, length_eccOf data n⟩

/-! The syndromes (rule R164): every turn of the division keeps the value at each root of the generator. -/

/-- The value of a polynomial by Horner's rule, `acc` the value of the coefficients before it. -/
def evalFrom (x acc : Byte) (p : List Byte) : Byte := p.foldl (fun a c => gfMul a x ^^^ c) acc

theorem evalAt_eq_evalFrom (x : Byte) (p : List Byte) : evalAt x p = evalFrom x 0#8 p := rfl

@[simp] theorem evalFrom_nil (x a : Byte) : evalFrom x a [] = a := rfl

@[simp] theorem evalFrom_cons (x a c : Byte) (p : List Byte) :
    evalFrom x a (c :: p) = evalFrom x (gfMul a x ^^^ c) p := rfl

theorem evalFrom_append (x a : Byte) (p q : List Byte) : evalFrom x a (p ++ q) = evalFrom x (evalFrom x a p) q :=
  List.foldl_append

/-- Horner's rule step by step adds as the values do. -/
theorem hornerStep_xor (x a b c d : Byte) :
    gfMul (a ^^^ b) x ^^^ (c ^^^ d) = (gfMul a x ^^^ c) ^^^ (gfMul b x ^^^ d) := by
  rw [xor_gfMul]
  ac_rfl

theorem evalFrom_zipWith_xor (x a b : Byte) {p q : List Byte} (h : p.length = q.length) :
    evalFrom x (a ^^^ b) (List.zipWith (fun c d => c ^^^ d) p q) = evalFrom x a p ^^^ evalFrom x b q := by
  induction p generalizing a b q with
  | nil => obtain rfl := List.length_eq_zero_iff.mp h.symm; rfl
  | cons c p ih =>
    obtain _ | ⟨d, q⟩ := q
    · simp at h
    · rw [List.zipWith_cons_cons, evalFrom_cons, hornerStep_xor, ih _ _ (by simpa using h)]
      rfl

theorem evalFrom_map_gfMul (x a r : Byte) (p : List Byte) :
    evalFrom x (gfMul a r) (p.map fun c => gfMul c r) = gfMul (evalFrom x a p) r := by
  induction p generalizing a with
  | nil => rfl
  | cons c p ih =>
    have hacc : gfMul (gfMul a r) x = gfMul (gfMul a x) r := by
      rw [gfMul_assoc, gfMul_comm r, ← gfMul_assoc]
    rw [List.map_cons, evalFrom_cons, hacc, ← xor_gfMul, ih, evalFrom_cons]

theorem evalAt_timesRoot (x r : Byte) (p : List Byte) : evalAt x (timesRoot p r) = gfMul (evalAt x p) (x ^^^ r) := by
  have hsum := evalFrom_zipWith_xor x 0#8 0#8 (p := p ++ [0#8]) (q := 0#8 :: p.map fun c => gfMul c r) (by simp)
  have hroot := evalFrom_map_gfMul x 0#8 r p
  rw [evalFrom_append] at hsum
  simp only [evalFrom_cons, evalFrom_nil, zero_gfMul, BitVec.xor_zero] at hsum hroot
  rw [evalAt_eq_evalFrom, evalAt_eq_evalFrom, gfMul_xor, ← hroot]
  exact hsum

theorem generator_succ (n : Nat) : generator (n + 1) = timesRoot (generator n) (pow2 n) := by
  simp [generator, List.range_succ]

theorem evalAt_generator {n i : Nat} (hi : i < n) : evalAt (pow2 i) (generator n) = 0#8 := by
  induction n with
  | zero => cases hi
  | succ n ih =>
    rw [generator_succ, evalAt_timesRoot]
    obtain rfl | hlt := Nat.eq_or_lt_of_le (Nat.le_of_lt_succ hi)
    · rw [BitVec.xor_self, gfMul_zero]
    · rw [ih hlt, zero_gfMul]

/-- The monic polynomial `1 :: genTail n` has the roots of the generator. -/
theorem evalFrom_genTail {n i : Nat} (hn : n ∈ ecKeys) (hi : i < n) : evalFrom (pow2 i) 1#8 (genTail n) = 0#8 := by
  have hgen : generator n = 1#8 :: genTail n := Option.some.inj ((genPoly_eq_generator hn).symm.trans (genPoly_eq_cons hn))
  have hroot := evalAt_generator hi
  rw [hgen, evalAt_eq_evalFrom, evalFrom_cons, zero_gfMul, BitVec.zero_xor] at hroot
  exact hroot

/-- Adding a polynomial of value 0, its leading coefficient `b` included, changes no value. -/
theorem evalFrom_xorInto {x b : Byte} (a : Byte) {m q : List Byte} (hlen : q.length ≤ m.length)
    (hq : evalFrom x b q = 0#8) :
    evalFrom x (a ^^^ b) (xorInto m q) = evalFrom x a m := by
  induction q generalizing a b m with
  | nil =>
    obtain rfl : b = 0#8 := hq
    rw [xorInto_nil, BitVec.xor_zero]
  | cons d q ih =>
    obtain _ | ⟨c, m⟩ := m
    · simp at hlen
    · rw [xorInto, evalFrom_cons, hornerStep_xor, ih _ (by simpa using hlen) hq, evalFrom_cons]

/-- A step of the division subtracts `coef` times the generator, whose value is 0. -/
theorem evalAt_cancelLead {g m : List Byte} {x : Byte} (hg : evalFrom x 1#8 g = 0#8) (coef : Byte)
    (h : g.length ≤ m.length) : evalAt x (cancelLead g coef m) = evalAt x (coef :: m) := by
  have hlead : evalAt x (coef :: m) = evalFrom x coef m := by
    rw [evalAt_eq_evalFrom, evalFrom_cons, zero_gfMul, BitVec.zero_xor]
  rw [hlead, cancelLead]
  split
  case isTrue hzero => rw [hzero, evalAt_eq_evalFrom]; rfl
  case isFalse hne =>
    have hscaled : evalFrom x coef (g.map fun c => gfMul c coef) = 0#8 := by
      have hscale := evalFrom_map_gfMul x 1#8 coef g
      rwa [hg, zero_gfMul, gfMul_comm, gfMul_one] at hscale
    have hcancel := evalFrom_xorInto coef (m := m) (by rwa [List.length_map]) hscaled
    rwa [BitVec.xor_self] at hcancel

theorem evalAt_divide {g : List Byte} {x : Byte} (hg : evalFrom x 1#8 g = 0#8) (k : Nat) (m : List Byte)
    (h : k + g.length ≤ m.length) : evalAt x (divide g k m) = evalAt x m := by
  induction k generalizing m with
  | zero => rw [divide_zero]
  | succ k ih =>
    obtain _ | ⟨coef, m⟩ := m
    · simp at h
    · have hm : k + g.length ≤ m.length := by rw [List.length_cons] at h; omega
      rw [divide_cons, ih _ (by rwa [length_cancelLead]), evalAt_cancelLead hg coef (by omega)]

/-- What comes before a polynomial counts as if zeros stood in the polynomial's place. -/
theorem evalFrom_eq_xor (x a : Byte) (p : List Byte) :
    evalFrom x a p = evalFrom x a (List.replicate p.length 0#8) ^^^ evalFrom x 0#8 p := by
  have hzip : List.zipWith (fun c d => c ^^^ d) (List.replicate p.length 0#8) p = p := by
    induction p with
    | nil => rfl
    | cons c p ih => rw [List.length_cons, List.replicate_succ, List.zipWith_cons_cons, ih, BitVec.zero_xor]
  have hsum := evalFrom_zipWith_xor x a 0#8 (p := List.replicate p.length 0#8) (q := p) List.length_replicate
  rwa [hzip, BitVec.xor_zero] at hsum

/-- Settles O37: the remainder has the value of the data with zeros after them, and in characteristic 2 the two add to 0. -/
theorem eccHasZeroSyndromes : Obligations.EccHasZeroSyndromes := by
  intro data n i hn hi
  have hecc : evalAt (pow2 i) (eccOf data n) = evalAt (pow2 i) (data ++ List.replicate n 0#8) :=
    evalAt_divide (evalFrom_genTail hn hi) data.length _ (length_genTail_le hn data)
  rw [evalAt_eq_evalFrom, evalAt_eq_evalFrom, evalFrom_append] at hecc
  rw [evalAt_eq_evalFrom, evalFrom_append, evalFrom_eq_xor, length_eccOf, hecc, BitVec.xor_self]
  rfl

/-! `RS_ENCODE` (rule R162). -/

theorem Memory.load_eq_map (m : Memory) (a n : Nat) : m.load a n = (List.range n).map fun k => m.read (a + k) := by
  refine List.ext_getElem (by simp) fun i h _ => ?_
  rw [← List.getD_eq_getElem _ 0 h, List.getElem_map, List.getElem_range]
  exact m.getD_load (by simpa using h)

theorem isSome_genPoly {n : Nat} (hn : n ∈ ecKeys) : (genPoly n).isSome := by rw [genPoly_eq_cons hn]; rfl

theorem exec_rsEncode_of_length_gt {n : Nat} (hn : n ∈ ecKeys) {s : State} (hk : 256 < s.argIndex) :
    exec (.rsEncode n) s = .next (failed 5 s) := by
  have hsome := isSome_genPoly hn
  rcases rsEncodeBody_cases n s with ⟨hnone, -⟩ | ⟨-, -, e⟩ | ⟨-, hle, -⟩
  · rw [hnone] at hsome; cases hsome
  · rw [exec_eq_complete, bodyOf, e]
    rfl
  · omega

theorem exec_rsEncode_ok {n : Nat} (hn : n ∈ ecKeys) {s : State} (hk : s.argIndex ≤ 256) :
    exec (.rsEncode n) s =
      .next (done { s with mem := (s.fillBuf .rsOut (eccOf (s.bufTake .rsIn s.argIndex) n)).mem }) := by
  have hsome := isSome_genPoly hn
  rcases rsEncodeBody_cases n s with ⟨hnone, -⟩ | ⟨-, hgt, -⟩ | ⟨-, -, e⟩
  · rw [hnone] at hsome; cases hsome
  · omega
  · rw [exec_eq_complete, bodyOf, e]
    rfl

/-- Settles O38: the three outcomes are the checks of the body in their order; the last fills `RS_OUT` by the loop. -/
theorem rsEncodeWritesTheRemainder : Obligations.RsEncodeWritesTheRemainder := by
  intro s n
  rw [← argIndex_eq_mod]
  refine ⟨fun hn => exec_rsEncode_of_genPoly_none (genPoly_eq_none hn) s, fun hn => exec_rsEncode_of_length_gt hn,
    fun hn hk => ⟨_, exec_rsEncode_ok hn hk, fun a => ?_⟩⟩
  rw [State.read_fillBuf, State.bufTake, Memory.load_eq_map, eccOf_eq_eccLoop hn]
  rfl

/-! The RS blocks of a version (rule R165). -/

/-- Where each of the blocks of the given lengths begins, from `o` on, and how long it is. -/
def blocksFrom : Nat → List Nat → List (Nat × Nat)
  | _, [] => []
  | o, n :: ns => (o, n) :: blocksFrom (o + n) ns

/-- The codewords of the blocks, each given by where it begins and how long it is. -/
def blockData (bs : List (Nat × Nat)) (data : Nat → Byte) : List (List Byte) :=
  bs.map fun b => (List.range b.2).map fun i => data (b.1 + i)

theorem splitBlocks_map_range (data : Nat → Byte) (o : Nat) (ns : List Nat) :
    splitBlocks ns ((List.range ns.sum).map fun k => data (o + k)) = blockData (blocksFrom o ns) data := by
  induction ns generalizing o with
  | nil => rfl
  | cons n ns ih =>
    have hrange : List.range (n + ns.sum) = List.range n ++ (List.range ns.sum).map (n + ·) := List.range_add
    have htake : ((List.range n).map fun k => data (o + k)).length = n := by simp
    rw [List.sum_cons, hrange, List.map_append, splitBlocks, List.take_left' htake, List.drop_left' htake, List.map_map]
    simp only [Function.comp_def, ← Nat.add_assoc]
    rw [ih]
    rfl

section
variable {v : Nat} (hv : 1 ≤ v ∧ v ≤ 10)
include hv

theorem blocksFrom_blocksOf : blocksFrom 0 (blocksOf v) = rsBlocks v := by
  obtain ⟨hlo, hhi⟩ := hv
  interval_cases v <;> rfl

theorem sum_blocksOf : (blocksOf v).sum = dataCwOf v := by
  obtain ⟨hlo, hhi⟩ := hv
  interval_cases v <;> rfl

theorem ecPerBlock_eq_ecCount : ecPerBlock v = ecCount v := by
  obtain ⟨hlo, hhi⟩ := hv
  interval_cases v <;> rfl

theorem ecCount_mem_ecKeys : ecCount v ∈ ecKeys := by
  obtain ⟨hlo, hhi⟩ := hv
  interval_cases v <;> decide

theorem le_foldl_max_blocksOf : ∀ n ∈ blocksOf v, n ≤ (blocksOf v).foldl max 0 := by
  obtain ⟨hlo, hhi⟩ := hv
  interval_cases v <;> decide

theorem totalCodewords_eq : totalCodewords v = (blocksOf v).sum + (blocksOf v).length * ecCount v := by
  obtain ⟨hlo, hhi⟩ := hv
  interval_cases v <;> rfl

end

theorem map_length_blockData (o : Nat) (ns : List Nat) (data : Nat → Byte) :
    (blockData (blocksFrom o ns) data).map List.length = ns := by
  induction ns generalizing o with
  | nil => rfl
  | cons n ns ih =>
    have hhead : ((List.range n).map fun i => data (o + i)).length = n := by simp
    rw [blocksFrom, blockData, List.map_cons, List.map_cons, hhead]
    exact congrArg (n :: ·) (ih (o + n))

/-! The interleaving (rule R166). -/

theorem toList_getElem?_eq_ite (l : List Byte) (i : Nat) :
    l[i]?.toList = if i < l.length then [l.getD i 0] else [] := by
  split
  case isTrue h => rw [List.getElem?_eq_getElem h, List.getD_eq_getElem _ _ h]; rfl
  case isFalse h => rw [List.getElem?_eq_none (Nat.le_of_not_lt h)]; rfl

theorem columns_eq_flatMap (n : Nat) (ls : List (List Byte)) :
    columns n ls = (List.range n).flatMap fun i => ls.flatMap fun l => if i < l.length then [l.getD i 0] else [] := by
  simp only [columns, List.filterMap_eq_flatMap_toList, toList_getElem?_eq_ite]

/-- Columns of sequences of one length leave no gap. -/
theorem columns_eq_map {n : Nat} {ls : List (List Byte)} (h : ∀ l ∈ ls, l.length = n) :
    columns n ls = (List.range n).flatMap fun i => ls.map fun l => l.getD i 0 := by
  refine List.flatMap_congr fun i hi => ?_
  rw [← List.filterMap_eq_map']
  refine List.filterMap_congr fun l hl => ?_
  have hlt : i < l.length := by rw [h l hl]; exact List.mem_range.mp hi
  rw [List.getElem?_eq_getElem hlt, List.getD_eq_getElem _ _ hlt]

theorem sum_map_range_lt (k n : Nat) : ((List.range n).map fun i => if i < k then 1 else 0).sum = min n k := by
  induction n with
  | zero => simp
  | succ n ih =>
    rw [List.range_succ, List.map_append, List.sum_append, ih, List.map_singleton, List.sum_singleton]
    split <;> omega

/-- Enough columns hold every element of every sequence once. -/
theorem length_columns {n : Nat} {ls : List (List Byte)} (h : ∀ l ∈ ls, l.length ≤ n) :
    (columns n ls).length = (ls.map List.length).sum := by
  rw [columns_eq_flatMap, List.length_flatMap]
  induction ls with
  | nil => simp
  | cons l ls ih =>
    have hhead (i : Nat) : (if i < l.length then [l.getD i 0] else []).length = if i < l.length then 1 else 0 := by
      split <;> rfl
    simp only [List.flatMap_cons, List.length_append, hhead, List.sum_map_add]
    rw [sum_map_range_lt, Nat.min_eq_right (h l List.mem_cons_self), ih fun l' hl' => h l' (List.mem_cons_of_mem _ hl'),
      List.map_cons, List.sum_cons]

section
variable {v : Nat} (hv : 1 ≤ v ∧ v ≤ 10) (data : Nat → Byte)
include hv

theorem map_length_blockData_rsBlocks : (blockData (rsBlocks v) data).map List.length = blocksOf v := by
  rw [← blocksFrom_blocksOf hv, map_length_blockData]

theorem interleaved_eq_columns : interleaved v data =
    columns ((blocksOf v).foldl max 0) (blockData (rsBlocks v) data) ++
      columns (ecCount v) ((blockData (rsBlocks v) data).map fun b => eccOf b (ecCount v)) := by
  have hecc : ∀ b, eccOf b (ecCount v) = eccLoop b (ecCount v) := eccOf_eq_eccLoop (ecCount_mem_ecKeys hv)
  have hlen : ∀ e ∈ (blockData (rsBlocks v) data).map fun b => eccOf b (ecCount v), e.length = ecCount v := by
    simp [length_eccOf]
  rw [columns_eq_map hlen, columns_eq_flatMap, ← map_length_blockData_rsBlocks hv data]
  simp only [hecc]
  rfl

theorem finalCodewords_eq_interleaved :
    finalCodewords v ((List.range (dataCwOf v)).map data) = interleaved v data := by
  have hsplit := splitBlocks_map_range data 0 (blocksOf v)
  simp only [Nat.zero_add, sum_blocksOf hv, blocksFrom_blocksOf hv] at hsplit
  rw [finalCodewords, hsplit, ecPerBlock_eq_ecCount hv, interleaved_eq_columns hv]

theorem length_interleaved : (interleaved v data).length = totalCodewords v := by
  have hlens := map_length_blockData_rsBlocks hv data
  have hdata : ∀ b ∈ blockData (rsBlocks v) data, b.length ≤ (blocksOf v).foldl max 0 := fun b hb =>
    le_foldl_max_blocksOf hv _ (hlens ▸ List.mem_map_of_mem hb)
  have hcount : (blockData (rsBlocks v) data).length = (blocksOf v).length := by rw [← hlens, List.length_map]
  rw [interleaved_eq_columns hv, List.length_append, length_columns hdata, length_columns (by simp [length_eccOf]), hlens,
    totalCodewords_eq hv, ← hcount]
  simp [Function.comp_def, length_eccOf]

end

/-! `ECC` (rule R167). -/

theorem exec_ecc_legal {s : State} (hv : Legal s) : exec .ecc s = .next (done { s with
    mem := (s.fillBuf .cw (finalCodewords s.ver (s.bufTake .dataCw (dataCwOf s.ver)))).mem }) := by
  rw [exec_eq_complete, bodyOf, eccBody, s.withVersion_legal hv]
  rfl

/-- Settles O39: the blocks of the model are those of the rule, and each of its columns is one round of the rule's loop. -/
theorem eccInterleavesTheBlocks : Obligations.EccInterleavesTheBlocks := by
  refine fun s hv => ⟨length_interleaved hv _, _, exec_ecc_legal hv, fun a => ?_⟩
  have hcodewords : finalCodewords s.ver (s.bufTake .dataCw (dataCwOf s.ver)) =
      interleaved s.version.toNat fun k => s.mem.read (0x600 + k) := by
    rw [State.bufTake, Memory.load_eq_map]
    exact finalCodewords_eq_interleaved hv _
  rw [State.read_fillBuf, hcodewords]
  rfl

end Sys2Proof.Machine
namespace Sys2Proof.Machine

open Sys2Proof.Ref

/-! The words of the version areas (rule R195). -/

theorem versionWord_eq_versionBits {v : Nat} (hlo : 7 ≤ v) (hhi : v ≤ 10) :
    versionWord v = BitVec.ofNat 18 (versionBits v) := by
  interval_cases v <;> decide

/-- There is no version area below version 7 (rule R190). -/
theorem versionWord_eq_zero {v : Nat} (hv : v < 7) : versionWord v = 0 := by
  interval_cases v <;> rfl

/-- Settles O51: each entry of the two tables is evaluated against the division. -/
theorem formatAndVersionWordsAreBch : Obligations.FormatAndVersionWordsAreBch :=
  ⟨fun _ => formatWord_eq_formatBits, fun _ => versionWord_eq_versionBits⟩

end Sys2Proof.Machine
namespace Sys2Proof.Machine

open Sys2Proof.Ref

/-! The cells of the skeleton, counted (rule R183): the unreserved ones are the order, whose length is known. -/

/-- The walk is as long as the set of cells it covers, so it repeats none. -/
theorem nodup_zigzag (v : Nat) : (zigzag (symbolSize v)).Nodup := by
  have hcells : (zigzag (symbolSize v)).toFinset =
      Finset.range (symbolSize v) ×ˢ (Finset.range (symbolSize v)).erase 6 := by
    ext ⟨r, c⟩
    rw [List.mem_toFinset, mem_zigzag, Finset.mem_product, Finset.mem_erase, Finset.mem_range, Finset.mem_range,
      and_assoc, and_comm (a := c ≠ 6)]
  have h6 : 6 ∈ Finset.range (symbolSize v) := by
    rw [Finset.mem_range, symbolSize]; omega
  have hlength : (symbolSize v - 1) / 2 * (symbolSize v * 2) = symbolSize v * (symbolSize v - 1) := by
    rw [mul_left_comm, show (symbolSize v - 1) / 2 * 2 = symbolSize v - 1 by rw [symbolSize]; omega]
  refine List.dedup_eq_self.mp ((List.dedup_sublist _).eq_of_length ?_)
  rw [← List.card_toFinset, hcells, Finset.card_product, Finset.card_erase_of_mem h6, Finset.card_range, length_zigzag,
    hlength]

/-- The places of the symbol, row by row. -/
def symbolPlaces (size : Nat) : List (Nat × Nat) := List.range size ×ˢ List.range size

/-- The cells of a matrix inside `size x size`, row by row. -/
def Matrix.symbolCells (M : Matrix) (size : Nat) : List Cell := (symbolPlaces size).map fun p => M.cell p.1 p.2

theorem Matrix.symbolCells_eq_flatMap (M : Matrix) (size : Nat) : M.symbolCells size =
    (List.range size).flatMap fun r => (List.range size).map fun c => M.cell r c := by
  simp [Matrix.symbolCells, symbolPlaces, SProd.sprod, List.product, List.map_flatMap, Function.comp_def]

theorem Matrix.length_symbolCells (M : Matrix) (size : Nat) : (M.symbolCells size).length = size * size := by
  rw [Matrix.symbolCells, List.length_map, symbolPlaces, List.length_product, List.length_range]

/-- The order visits each unreserved cell of the symbol once. -/
theorem perm_placementOrder_skeleton {v : Nat} (hv : 1 ≤ v ∧ v ≤ 10) :
    (placementOrder (skeleton v) (symbolSize v)).Perm
      ((symbolPlaces (symbolSize v)).filter fun p => !((skeleton v).cell p.1 p.2).rsv) := by
  have hplaces : (symbolPlaces (symbolSize v)).Nodup := List.nodup_range.product List.nodup_range
  refine (List.perm_ext_iff_of_nodup ((nodup_zigzag v).filter _) (hplaces.filter _)).mpr fun (r, c) => ?_
  refine (mem_placementOrder_skeleton hv).trans ?_
  rw [List.mem_filter, symbolPlaces, List.mem_product, List.mem_range,
    List.mem_range, Bool.not_eq_true']

theorem countP_unreserved_skeleton {v : Nat} (hv : 1 ≤ v ∧ v ≤ 10) :
    ((skeleton v).symbolCells (symbolSize v)).countP (fun x => !x.rsv) = 8 * totalCw v + remCells v := by
  rw [Matrix.symbolCells, List.countP_map, List.countP_eq_length_filter, ← length_placementOrder_skeleton hv]
  exact (perm_placementOrder_skeleton hv).length_eq.symm

/-- Every cell that is not reserved is unreserved. -/
theorem countP_reserved_skeleton {v : Nat} (hv : 1 ≤ v ∧ v ≤ 10) :
    ((skeleton v).symbolCells (symbolSize v)).countP Cell.rsv + (8 * totalCw v + remCells v) =
      symbolSize v * symbolSize v := by
  have hsplit := List.length_eq_countP_add_countP Cell.rsv (l := (skeleton v).symbolCells (symbolSize v))
  have hunreserved := countP_unreserved_skeleton hv
  rw [Matrix.length_symbolCells] at hsplit
  simp only [Bool.not_eq_true, Bool.decide_eq_false] at hsplit
  omega

/-- The counts of rule R183. -/
def reservedCount (v : Nat) : Nat := [233, 266, 274, 282, 290, 298, 457, 465, 473, 481].getD (v - 1) 0

@[inherit_doc reservedCount]
def unreservedCount (v : Nat) : Nat := [208, 359, 567, 807, 1079, 1383, 1568, 1936, 2336, 2768].getD (v - 1) 0

theorem unreservedCount_eq {v : Nat} (hv : 1 ≤ v ∧ v ≤ 10) : unreservedCount v = 8 * totalCw v + remCells v := by
  obtain ⟨hlo, hhi⟩ := hv
  interval_cases v <;> rfl

theorem reservedCount_add_unreservedCount {v : Nat} (hv : 1 ≤ v ∧ v ≤ 10) :
    reservedCount v + unreservedCount v = symbolSize v * symbolSize v := by
  obtain ⟨hlo, hhi⟩ := hv
  interval_cases v <;> rfl

theorem remCells_lt (v : Nat) : remCells v < 8 := by
  unfold remCells
  split <;> omega

/-- Settles O42: the unreserved cells are those of the order, the reserved ones are the rest of the symbol, and the table
columns are the quotient and the remainder of the unreserved count by 8. -/
theorem skeletonCellCounts : Obligations.SkeletonCellCounts := by
  intro v hlo hhi
  have hv : 1 ≤ v ∧ v ≤ 10 := ⟨hlo, hhi⟩
  have hunreserved := (countP_unreserved_skeleton hv).trans (unreservedCount_eq hv).symm
  have hreserved := (countP_reserved_skeleton hv).trans (reservedCount_add_unreservedCount hv).symm
  rw [← unreservedCount_eq hv] at hreserved
  rw [Matrix.symbolCells_eq_flatMap] at hreserved hunreserved
  have hcolumns := unreservedCount_eq hv
  have hrem := remCells_lt v
  exact ⟨Nat.add_right_cancel hreserved, hunreserved, reservedCount_add_unreservedCount hv,
    show totalCw v = unreservedCount v / 8 by omega, show remCells v = unreservedCount v % 8 by omega⟩

end Sys2Proof.Machine
namespace Sys2Proof.Machine

open Sys2Proof.Ref

/-! `FORMAT_WRITE`, cell by cell (rules R191, R238). -/

theorem cellOf_eq_cell_matrix (m : Memory) {r c : Nat} (hr : r < planeSide) (hc : c < planeSide) :
    cellOf m r c = m.matrix.cell r c := (m.cell_matrix hr hc).symm

theorem State.cellOf_storePlanes (s : State) {M : Matrix} (h : M.Square) {r c : Nat} (hr : r < planeSide)
    (hc : c < planeSide) : cellOf (s.storePlanes M).mem r c = M.cell r c := by
  rw [cellOf_eq_cell_matrix _ hr hc, s.matrix_storePlanes h]

theorem map_fpos1 : (List.range 15).map fpos1 = formatStrip1 := by decide

theorem map_fpos2 {size : Nat} (hsize : 15 ≤ size) : (List.range 15).map (fpos2 size) = formatStrip2 size := by
  have hrow : (List.range 8).map (fpos2 size) = (List.range 8).map fun i => (8, size - 1 - i) := rfl
  have hcol : (List.range 7).map (fun k => fpos2 size (8 + k)) = (List.range 7).map fun k => (size - 7 + k, 8) :=
    List.map_congr_left fun k _ => by
      rw [fpos2, if_neg (by omega)]
      exact Prod.ext (by simp only; omega) rfl
  rw [show 15 = 8 + 7 from rfl, List.range_add, List.map_append, List.map_map, hrow, formatStrip2, ← hcol]
  rfl

theorem mem_formatCells_iff_strips {size : Nat} (hsize : 15 ≤ size) (p : Nat × Nat) :
    p ∈ formatCells size ↔ p ∈ formatStrip1 ++ formatStrip2 size := by
  simp only [← map_fpos1, ← map_fpos2 hsize, formatCells, List.mem_flatMap, List.mem_append, List.mem_map, List.mem_cons,
    List.not_mem_nil, or_false, and_or_left, exists_or, eq_comm (a := p)]

/-- A cell of the strips belongs to one bit (rule R191). -/
theorem fpos1_injOn : ∀ i < 15, ∀ j < 15, fpos1 i = fpos1 j → i = j := by decide

@[inherit_doc fpos1_injOn]
theorem fpos2_injOn {size i j : Nat} (hsize : 17 ≤ size) (hi : i < 15) (hj : j < 15) (h : fpos2 size i = fpos2 size j) :
    i = j := by
  unfold fpos2 at h
  split at h <;> split at h <;> obtain ⟨h1, h2⟩ := Prod.mk.inj h <;> omega

@[inherit_doc fpos1_injOn]
theorem fpos1_ne_fpos2 {size i j : Nat} (hsize : 17 ≤ size) (hi : i < 15) (hj : j < 15) : fpos1 i ≠ fpos2 size j := fun h => by
  have h1 := exists_fpos1_eq.mp ⟨i, hi, rfl⟩
  have h2 := (exists_fpos2_eq (by omega)).mp ⟨j, hj, h.symm⟩
  omega

/-- The cells of both strips with the bit that each gets. -/
def formatWrites (size : Nat) (w : BitVec 15) : List ((Nat × Nat) × Bool) :=
  (List.range 15).flatMap fun i => [(fpos1 i, w.getLsbD i), (fpos2 size i, w.getLsbD i)]

theorem writeFormat_eq_updateAll (M : Matrix) (size : Nat) (w : BitVec 15) :
    M.writeFormat size w = M.updateAll Prod.fst (fun p => Cell.force p.2) (formatWrites size w) := by
  simp [Matrix.writeFormat, Matrix.updateAll, formatWrites, List.foldl_flatMap]

theorem map_fst_formatWrites (size : Nat) (w : BitVec 15) : (formatWrites size w).map Prod.fst = formatCells size := by
  simp [formatWrites, formatCells, List.map_flatMap]

/-- The bit that a cell of the strips gets is that of its place, whichever strip it is in. -/
theorem snd_of_mem_formatWrites {size i : Nat} (hsize : 17 ≤ size) (hi : i < 15) (w : BitVec 15)
    {p : (Nat × Nat) × Bool} (hp : p ∈ formatWrites size w) (hat : p.1 = fpos1 i ∨ p.1 = fpos2 size i) :
    p.2 = w.getLsbD i := by
  simp only [formatWrites, List.mem_flatMap, List.mem_range, List.mem_cons, List.not_mem_nil, or_false] at hp
  obtain ⟨j, hj, rfl | rfl⟩ := hp <;> rcases hat with hat | hat
  · rw [fpos1_injOn j hj i hi hat]
  · exact absurd hat (fpos1_ne_fpos2 hsize hj hi)
  · exact absurd hat.symm (fpos1_ne_fpos2 hsize hi hj)
  · rw [fpos2_injOn hsize hj hi hat]

/-- Forcing one value, at least once, leaves it (rule R11). -/
theorem foldl_force_eq_fixed {ps : List ((Nat × Nat) × Bool)} {b : Bool} (hne : ps ≠ []) (hb : ∀ p ∈ ps, p.2 = b)
    (x : Cell) : ps.foldl (fun x p => Cell.force p.2 x) x = fixed b := by
  obtain ⟨qs, q, rfl⟩ := List.eq_nil_or_concat ps |>.resolve_left hne
  simp [← hb q (by simp), Cell.force, fixed]

/-- The strips lie in the matrix. -/
theorem formatCells_inside {v : Nat} (hv : 1 ≤ v ∧ v ≤ 10) :
    ∀ p ∈ formatCells (symbolSize v), p.1 < planeSide ∧ p.2 < planeSide := fun _ hp => by
  have hlt := patternCell_lt (patternCell_of_formatCells hv hp)
  have hsize := symbolSize_le hv.2
  omega

theorem fpos_mem_formatCells (size : Nat) {i : Nat} (hi : i < 15) {p : Nat × Nat} (hat : p = fpos1 i ∨ p = fpos2 size i) :
    p ∈ formatCells size :=
  List.mem_flatMap.mpr ⟨i, List.mem_range.mpr hi, by simpa using hat⟩

section
variable {M : Matrix} (h : M.Square) {v : Nat} (hv : 1 ≤ v ∧ v ≤ 10) (w : BitVec 15)
include h hv

theorem cell_writeFormat_eq_foldl (r c : Nat) : (M.writeFormat (symbolSize v) w).cell r c =
    ((formatWrites (symbolSize v) w).filter fun p => p.1 = (r, c)).foldl (fun x p => Cell.force p.2 x) (M.cell r c) := by
  rw [writeFormat_eq_updateAll, Matrix.cell_updateAll h fun p hp =>
    formatCells_inside hv p.1 (map_fst_formatWrites _ w ▸ List.mem_map_of_mem hp)]

theorem cell_writeFormat_of_strip {i : Nat} (hi : i < 15) {q : Nat × Nat} (hat : q = fpos1 i ∨ q = fpos2 (symbolSize v) i) :
    (M.writeFormat (symbolSize v) w).cell q.1 q.2 = fixed (w.getLsbD i) := by
  rw [cell_writeFormat_eq_foldl h hv]
  refine foldl_force_eq_fixed (fun hnil => ?_) (fun p hp => ?_) _
  · have hcell : q ∈ (formatWrites (symbolSize v) w).map Prod.fst := by
      rw [map_fst_formatWrites]
      exact fpos_mem_formatCells _ hi hat
    have hsome := isEmpty_filter_at Prod.fst (formatWrites (symbolSize v) w) q
    rw [hnil, decide_eq_true hcell] at hsome
    cases hsome
  · obtain ⟨hmem, hp⟩ := List.mem_filter.mp hp
    have hsize : 17 ≤ symbolSize v := by rw [symbolSize]; omega
    exact snd_of_mem_formatWrites hsize hi w hmem (by rwa [of_decide_eq_true hp])

theorem cell_writeFormat_of_not_mem {r c : Nat} (hout : (r, c) ∉ formatCells (symbolSize v)) :
    (M.writeFormat (symbolSize v) w).cell r c = M.cell r c := by
  rw [cell_writeFormat_eq_foldl h hv, List.filter_eq_nil_iff.mpr fun p hp hat => hout ?_]
  · rfl
  · rw [← map_fst_formatWrites _ w, ← of_decide_eq_true hat]
    exact List.mem_map_of_mem hp

end

theorem exec_formatWrite_legal {s : State} (hv : Legal s) {w : BitVec 15} (hw : formatWord s.mask.toNat = w) :
    exec .formatWrite s = .next (done { s with
      fmt := w
      mem := (s.storePlanes (s.mem.matrix.writeFormat (symbolSize s.version.toNat) w)).mem }) := by
  subst hw
  rw [exec_eq_complete, bodyOf, formatWriteBody, s.withVersion_legal hv]
  rfl

/-- The cell of bit `i` in either strip. -/
theorem getD_strip {size i : Nat} (hsize : 15 ≤ size) (hi : i < 15) {strip : List (Nat × Nat)}
    (hstrip : strip ∈ [formatStrip1, formatStrip2 size]) :
    strip.getD i (0, 0) = fpos1 i ∨ strip.getD i (0, 0) = fpos2 size i := by
  rw [← map_fpos1, ← map_fpos2 hsize, List.mem_pair] at hstrip
  rcases hstrip with rfl | rfl
  · exact .inl (by simp [List.getD_eq_getElem?_getD, hi])
  · exact .inr (by simp [List.getD_eq_getElem?_getD, hi])

/-- Settles O52: the cell of each bit is written with that bit only, whatever the order of the writes, and no other cell is. -/
theorem formatWriteWritesBothStrips : Obligations.FormatWriteWritesBothStrips := by
  intro s hv
  have hsquare := s.mem.square_matrix
  have hsize : 15 ≤ symbolSize s.version.toNat := by rw [symbolSize]; omega
  refine ⟨_, exec_formatWrite_legal hv (formatWord_eq_formatBits s.mask.isLt), fun i hi strip hstrip => ?strip,
    fun r c hr hc hout => ?other, fun a ha => s.read_storePlanes_of_not_planeByte _ ha⟩
  case strip =>
    have hat := getD_strip hsize hi hstrip
    obtain ⟨hr, hc⟩ := formatCells_inside hv _ (fpos_mem_formatCells _ hi hat)
    rw [s.cellOf_storePlanes (hsquare.writeFormat _ _) hr hc, cell_writeFormat_of_strip hsquare hv _ hi hat,
      BitVec.getLsbD_ofNat, decide_eq_true hi, Bool.true_and]
  case other =>
    have hcells := mt (mem_formatCells_iff_strips hsize (r, c)).mp hout
    rw [s.cellOf_storePlanes (hsquare.writeFormat _ _) hr hc, cell_writeFormat_of_not_mem hsquare hv _ hcells,
      cellOf_eq_cell_matrix _ hr hc]

end Sys2Proof.Machine
namespace Sys2Proof.Machine

open Sys2Proof.Ref

/-! The cells of the skeleton one by one: each is what the first pattern that covers it makes of it (rules R181, R192). -/

/-- The reserved cell that a placement leaves: with its module, or unset. -/
def cellOfModule : Option Bool → Cell
  | some d => fixed d
  | none => { set := false, dark := false, rsv := true }

theorem placeCell_blank (p : Placement) : placeCell p Cell.blank = cellOfModule p.2.2 := by
  obtain ⟨r, c, d⟩ := p
  cases d <;> rfl

/-- A reserved cell keeps its value (rules R11, R181). -/
theorem placeCell_of_rsv {x : Cell} (hx : x.rsv = true) (p : Placement) : placeCell p x = x := by
  obtain ⟨r, c, d⟩ := p
  cases d <;> exact if_pos hx

theorem foldl_placeCell_of_rsv (ps : List Placement) {x : Cell} (hx : x.rsv = true) :
    ps.foldl (fun x p => placeCell p x) x = x := by
  induction ps with
  | nil => rfl
  | cons p ps ih => rw [List.foldl_cons, placeCell_of_rsv hx, ih]

/-- The cell in row `r` and column `c` after placements on the blank matrix. -/
def placedCell (ps : List Placement) (r c : Nat) : Cell :=
  (ps.filter fun p => placeOf p = (r, c)).foldl (fun x p => placeCell p x) Cell.blank

theorem cell_skeleton_eq_placedCell {v : Nat} (hv : 1 ≤ v ∧ v ≤ 10) (r c : Nat) :
    (skeleton v).cell r c = placedCell (placements v) r c := cell_skeleton hv r c

theorem mem_map_placeOf {ps : List Placement} {p : Placement} {q : Nat × Nat} (hp : p ∈ ps) (hat : placeOf p = q) :
    q ∈ ps.map placeOf := List.mem_map.mpr ⟨p, hp, hat⟩

/-- The first pattern that covers a cell, with the condition `C` for that and the module `d` it has there, gives the cell
its value; one that does not cover it leaves it to the patterns after. -/
theorem placedCell_append {ps : List Placement} (qs : List Placement) {r c : Nat} {C : Prop} [Decidable C] {d : Option Bool}
    (hcover : (r, c) ∈ ps.map placeOf ↔ C) (hmodule : ∀ p ∈ ps, placeOf p = (r, c) → p.2.2 = d) :
    placedCell (ps ++ qs) r c = if C then cellOfModule d else placedCell qs r c := by
  unfold placedCell
  rw [List.filter_append, List.foldl_append]
  by_cases hC : C
  · rw [if_pos hC]
    obtain ⟨p, hp, hat⟩ := List.mem_map.mp (hcover.mpr hC)
    have hp' : p ∈ ps.filter fun p => placeOf p = (r, c) := List.mem_filter.mpr ⟨hp, decide_eq_true hat⟩
    obtain ⟨q, l, hl⟩ := List.exists_cons_of_ne_nil (List.ne_nil_of_mem hp')
    have hq : q ∈ ps.filter fun p => placeOf p = (r, c) := hl ▸ List.mem_cons_self ..
    obtain ⟨hqmem, hqat⟩ := List.mem_filter.mp hq
    have hrsv : (placeCell q Cell.blank).rsv = true := placeCell_rsv q _
    rw [hl, List.foldl_cons, foldl_placeCell_of_rsv l hrsv, foldl_placeCell_of_rsv _ hrsv, placeCell_blank,
      hmodule q hqmem (of_decide_eq_true hqat)]
  · rw [if_neg hC, List.filter_eq_nil_iff.mpr fun p hp hat => hC (hcover.mp ?_)]
    · rfl
    · rw [← of_decide_eq_true hat]
      exact List.mem_map_of_mem hp

/-! The module that each pattern has at a place, by the distance from its centre (rules R184, R186, R188). -/

/-- Chebyshev distance from the cell in row `r` and column `c` to a centre. -/
def ringAt (r c ar ac : Nat) : Nat := max (gap r ar) (gap c ac)

theorem finderPattern_value {r0 c0 r c : Nat} : ∀ p ∈ finderPattern r0 c0, placeOf p = (r, c) →
    p.2.2 = some (ringAt r c (r0 + 3) (c0 + 3) != 2) := by
  intro p hp hat
  simp only [finderPattern, List.mem_flatMap, List.mem_map, List.mem_range] at hp
  obtain ⟨dr, hdr, dc, hdc, rfl⟩ := hp
  obtain ⟨rfl, rfl⟩ := Prod.mk.inj hat
  have hring : ringOf 3 dr dc = ringAt (r0 + dr) (c0 + dc) (r0 + 3) (c0 + 3) := by
    simp only [ringOf, ringAt, gap]; omega
  rw [← hring]

/-- The module of a finder with its separator: dark at distance 0, 1 and 3. -/
def finderModule (r c ar ac : Nat) : Bool := ringAt r c ar ac != 2 && ringAt r c ar ac != 4

theorem finder_value {size r0 c0 r c : Nat} : ∀ p ∈ finderPattern r0 c0 ++ separatorBorder size r0 c0,
    placeOf p = (r, c) → p.2.2 = some (finderModule r c (r0 + 3) (c0 + 3)) := by
  intro p hp hat
  rcases List.mem_append.mp hp with hp | hp
  · have hin := mem_finderPattern.mp (mem_map_placeOf hp hat)
    have hne : ringAt r c (r0 + 3) (c0 + 3) != 4 := by
      rw [bne_iff_ne]; simp only [ringAt, gap]; omega
    rw [finderPattern_value p hp hat, finderModule, hne, Bool.and_true]
  · have hborder := mem_separatorBorder.mp (mem_map_placeOf hp hat)
    have hring : ringAt r c (r0 + 3) (c0 + 3) = 4 := by
      simp only [ringAt, gap]; omega
    simp only [separatorBorder, List.mem_flatMap, List.mem_filterMap, Option.ite_none_right_eq_some,
      Option.some.injEq] at hp
    obtain ⟨dr, -, dc, -, -, rfl⟩ := hp
    rw [finderModule, hring]
    rfl

theorem timing_value {size r c : Nat} : ∀ p ∈ timing size, placeOf p = (r, c) →
    p.2.2 = some (if r = 6 then c % 2 == 0 else r % 2 == 0) := by
  intro p hp hat
  simp only [timing, List.mem_flatMap, List.mem_range'_1, List.mem_pair] at hp
  obtain ⟨j, hj, rfl | rfl⟩ := hp <;> obtain ⟨rfl, rfl⟩ := Prod.mk.inj hat
  · rw [if_pos rfl]
  · rw [if_neg (by simp only; omega)]

theorem alignPattern_value {ar ac r c : Nat} (har : 2 ≤ ar) (hac : 2 ≤ ac) : ∀ p ∈ alignPattern ar ac, placeOf p = (r, c) →
    p.2.2 = some (ringAt r c ar ac != 1) := by
  intro p hp hat
  simp only [alignPattern, List.mem_flatMap, List.mem_map, List.mem_range] at hp
  obtain ⟨dr, hdr, dc, hdc, rfl⟩ := hp
  obtain ⟨rfl, rfl⟩ := Prod.mk.inj hat
  have hring : ringOf 2 dr dc = ringAt (ar + dr - 2) (ac + dc - 2) ar ac := by
    simp only [ringOf, ringAt, gap]; omega
  rw [← hring]

/-- No cell is near two alignment centres. -/
theorem centres_apart {v : Nat} (hv : 1 ≤ v ∧ v ≤ 10) : ∀ p ∈ centres v, ∀ q ∈ centres v, p ≠ q →
    4 < ringAt p.1 p.2 q.1 q.2 := by
  obtain ⟨hlo, hhi⟩ := hv
  interval_cases v <;> decide

/-- The module of the alignment patterns. -/
def alignModule (v r c : Nat) : Bool := (centres v).any fun p => ringAt r c p.1 p.2 == 0 || ringAt r c p.1 p.2 == 2

theorem align_value {v r c : Nat} (hv : 1 ≤ v ∧ v ≤ 10) : ∀ p ∈ (centres v).flatMap fun q => alignPattern q.1 q.2,
    placeOf p = (r, c) → p.2.2 = some (alignModule v r c) := by
  intro p hp hat
  obtain ⟨q, hq, hp⟩ := List.mem_flatMap.mp hp
  have hrange := centres_range hv q hq
  have hnear := (mem_alignPattern hrange.1.1 hrange.2.1).mp (mem_map_placeOf hp hat)
  have hle : ringAt r c q.1 q.2 ≤ 2 := ring_le_iff.mpr hnear
  have honly : ∀ q' ∈ centres v, ringAt r c q'.1 q'.2 ≤ 2 → q' = q := fun q' hq' hle' => by
    by_contra hne
    have hfar := centres_apart hv q' hq' q hq hne
    simp only [ringAt, gap] at hle hle' hfar
    omega
  rw [alignPattern_value hrange.1.1 hrange.2.1 p hp hat, Option.some_inj, Bool.eq_iff_iff]
  simp only [alignModule, List.any_eq_true, Bool.or_eq_true, beq_iff_eq, bne_iff_ne]
  constructor
  · exact fun hne => ⟨q, hq, by omega⟩
  · rintro ⟨q', hq', hring⟩
    rw [honly q' hq' (by omega)] at hring
    omega

theorem formatAreas_value {size : Nat} : ∀ p ∈ formatAreas size, p.2.2 = none := by
  intro p hp
  obtain ⟨i, -, hi⟩ := List.mem_flatMap.mp hp
  rcases List.mem_pair.mp hi with rfl | rfl <;> rfl

theorem getLsbD_versionWord {v i : Nat} (hlo : 7 ≤ v) (hhi : v ≤ 10) (hi : i < 18) :
    (versionWord v).getLsbD i = (versionBits v).testBit i := by
  rw [versionWord_eq_versionBits hlo hhi, BitVec.getLsbD_ofNat, decide_eq_true hi, Bool.true_and]

/-- The module of the version areas: bit 0 nearest the corner, three bits in a line across (rule R190). -/
def versionModule (v size r c : Nat) : Bool :=
  (versionBits v).testBit (if r < 6 then 3 * r + (c - (size - 11)) else 3 * c + (r - (size - 11)))

theorem versionAreas_value {v size r c : Nat} (hhi : v ≤ 10) (hsize : 17 ≤ size) : ∀ p ∈ versionAreas v size,
    placeOf p = (r, c) → p.2.2 = some (versionModule v size r c) := by
  intro p hp hat
  unfold versionAreas at hp
  split at hp
  · rename_i h7
    simp only [List.mem_flatMap, List.mem_range, List.mem_pair] at hp
    obtain ⟨i, hi, rfl | rfl⟩ := hp <;> obtain ⟨rfl, rfl⟩ := Prod.mk.inj hat <;> rw [versionModule]
    · rw [if_pos (by omega), getLsbD_versionWord h7 hhi hi,
        show 3 * (i / 3) + (size - 11 + i % 3 - (size - 11)) = i by omega]
    · rw [if_neg (by omega), getLsbD_versionWord h7 hhi hi,
        show 3 * (i / 3) + (size - 11 + i % 3 - (size - 11)) = i by omega]
  · cases hp

/-! The skeleton as the chain of its patterns (rule R192). -/

theorem placements_eq_append (v : Nat) : placements v =
    (finderPattern 0 0 ++ separatorBorder (symbolSize v) 0 0) ++
    ((finderPattern 0 (symbolSize v - 7) ++ separatorBorder (symbolSize v) 0 (symbolSize v - 7)) ++
    ((finderPattern (symbolSize v - 7) 0 ++ separatorBorder (symbolSize v) (symbolSize v - 7) 0) ++
    (timing (symbolSize v) ++ (((alignCentres v).flatMap fun p => alignPattern p.1 p.2) ++
    (formatAreas (symbolSize v) ++ (darkModule (symbolSize v) ++ (versionAreas v (symbolSize v) ++ []))))))) := by
  simp [placements, finders, List.append_assoc]

/-- A finder with its separator covers the cells of its 9 by 9 square. -/
theorem placedCell_finder_append {size r c r0 c0 ar ac : Nat} (hin : r < size ∧ c < size) (har : r0 + 3 = ar)
    (hac : c0 + 3 = ac) (hr0 : r0 + 7 ≤ size) (hc0 : c0 + 7 ≤ size) (qs : List Placement) :
    placedCell ((finderPattern r0 c0 ++ separatorBorder size r0 c0) ++ qs) r c =
      if ringAt r c ar ac ≤ 4 then fixed (finderModule r c ar ac) else placedCell qs r c := by
  subst har hac
  refine placedCell_append (d := some _) qs ((mem_finder hr0 hc0).trans ?_) finder_value
  rw [ringAt, ring_le_iff]
  omega

theorem mem_align_iff {v r c : Nat} (hv : 1 ≤ v ∧ v ≤ 10) :
    (r, c) ∈ ((centres v).flatMap fun p => alignPattern p.1 p.2).map placeOf ↔
      ((centres v).any fun p => decide (ringAt r c p.1 p.2 ≤ 2)) = true := by
  simp only [List.map_flatMap, List.mem_flatMap, List.any_eq_true, decide_eq_true_eq, ringAt, ring_le_iff]
  refine exists_congr fun p => and_congr_right fun hp => ?_
  have hrange := centres_range hv p hp
  exact mem_alignPattern hrange.1.1 hrange.2.1

theorem mem_darkModule {size r c : Nat} : (r, c) ∈ (darkModule size).map placeOf ↔ r = size - 8 ∧ c = 8 := by
  simp [darkModule, placeOf]

theorem darkModule_value {size : Nat} : ∀ p ∈ darkModule size, p.2.2 = some true := by simp [darkModule]

/-- Two conditions, one after the other, as one. -/
theorem ite_or_ite {α : Type} {p q : Prop} [Decidable p] [Decidable q] (x y z : α) :
    (if p ∨ q then (if p then x else y) else z) = if p then x else if q then y else z := by
  by_cases hp : p <;> simp [hp]

/-- The model's patterns and those of the reference form have the same cells once what an earlier one covers is left out:
the timing lines end at the finders, the format strips at the timing lines. -/
theorem cell_skeleton_eq_skeletonCell_of_lt {v r c : Nat} (hv : 1 ≤ v ∧ v ≤ 10) (hin : r < symbolSize v ∧ c < symbolSize v) :
    (skeleton v).cell r c = skeletonCell v r c := by
  have hsize : symbolSize v = 17 + 4 * v := rfl
  have hfar : symbolSize v - 7 + 3 = symbolSize v - 4 := by omega
  have hcell : skeletonCell v r c = _ := if_neg (by omega)
  rw [hcell, cell_skeleton_eq_placedCell hv, placements_eq_append,
    placedCell_finder_append hin (Nat.zero_add 3) (Nat.zero_add 3) (by omega) (by omega),
    placedCell_finder_append hin (Nat.zero_add 3) hfar (by omega) (by omega),
    placedCell_finder_append hin hfar (Nat.zero_add 3) (by omega) (by omega),
    placedCell_append _ mem_timing timing_value, alignCentres_eq_centres hv,
    placedCell_append _ (mem_align_iff hv) (align_value hv),
    placedCell_append _ Iff.rfl fun p hp _ => formatAreas_value p hp,
    placedCell_append _ mem_darkModule fun p hp _ => darkModule_value p hp,
    placedCell_append _ (mem_versionAreas (by omega)) (versionAreas_value hv.2 (by omega))]
  refine if_ctx_congr Iff.rfl (fun _ => rfl) fun hfirst => if_ctx_congr Iff.rfl (fun _ => rfl) fun hsecond =>
    if_ctx_congr Iff.rfl (fun _ => rfl) fun hthird => ?_
  refine Eq.trans ?_ (ite_or_ite ..)
  refine if_ctx_congr ?timing (fun _ => apply_ite (fun d => fixed d) ..) fun hline => ?_
  case timing =>
    simp only [ring_le_iff] at hfirst hsecond hthird
    omega
  refine if_ctx_congr Iff.rfl (fun _ => rfl) fun _ => ?_
  refine if_ctx_congr ?format (fun _ => rfl) fun _ => ?_
  case format =>
    rw [map_placeOf_formatAreas, mem_formatCells (by omega), inFormatArea_iff]
    omega
  refine if_ctx_congr Iff.rfl (fun _ => rfl) fun _ => ?_
  refine Eq.trans ?_ (ite_or_ite ..)
  refine if_ctx_congr ?version (fun hversion => ?versionModule) fun _ => rfl
  case version => omega
  case versionModule =>
    by_cases hr : r < 6
    · rw [if_pos (by omega), versionModule, if_pos hr]
      rfl
    · rw [if_neg (by omega), versionModule, if_neg hr]
      rfl

theorem cell_skeleton_eq_skeletonCell {v : Nat} (hv : 1 ≤ v ∧ v ≤ 10) (r c : Nat) :
    (skeleton v).cell r c = skeletonCell v r c := by
  by_cases hin : r < symbolSize v ∧ c < symbolSize v
  · exact cell_skeleton_eq_skeletonCell_of_lt hv hin
  · rw [skeleton_outside hv hin, skeletonCell, if_pos (by simp only [symbolSize] at hin; omega)]
    rfl

/-- `VERINFO` after `BUILD_SKELETON` (rule R190). -/
theorem versionWord_eq_ite {v : Nat} (hv : v ≤ 10) :
    versionWord v = if 7 ≤ v then BitVec.ofNat 18 (versionBits v) else 0 := by
  by_cases h7 : 7 ≤ v
  · rw [if_pos h7, versionWord_eq_versionBits h7 hv]
  · rw [if_neg h7, versionWord_eq_zero (by omega)]

theorem exec_buildSkeleton_legal {s : State} (hv : Legal s) : exec .buildSkeleton s = .next (done { s with
    verinfo := versionWord s.version.toNat
    mem := (s.storePlanes (skeleton s.version.toNat)).mem }) := by
  rw [exec_eq_complete, bodyOf, buildSkeletonBody_ok hv rfl]
  rfl

/-- Settles O41: the planes hold the model's skeleton, whose cells are those of the reference form. -/
theorem buildSkeletonBuildsTheSkeleton : Obligations.BuildSkeletonBuildsTheSkeleton := by
  intro s hv
  refine ⟨_, (exec_buildSkeleton_legal hv).trans (by rw [versionWord_eq_ite hv.2]), fun r c hr hc => ?_,
    fun a ha => s.read_storePlanes_of_not_planeByte _ ha⟩
  rw [s.cellOf_storePlanes (Matrix.square_skeleton _) hr hc, cell_skeleton_eq_skeletonCell hv]

end Sys2Proof.Machine
namespace Sys2Proof.Machine

open Sys2Proof.Ref

/-! The order is the walk of the spec (rule R210): the model filters a list of cells, the spec tests each cell as it goes. -/

/-- `right` as the loop of rule R210 enters pair `p`, before it skips the timing column: past column 6 it is one less than
two columns a pair would make it. -/
def enteredColumn (size p : Nat) : Nat := if size - 1 - 2 * p < 6 then size - 1 - 2 * p - 1 else size - 1 - 2 * p

theorem enteredColumn_of_left {size p : Nat} (h : size - 1 - 2 * p < 6) : enteredColumn size p = size - 1 - 2 * p - 1 :=
  if_pos h

theorem enteredColumn_of_right {size p : Nat} (h : ¬size - 1 - 2 * p < 6) : enteredColumn size p = size - 1 - 2 * p :=
  if_neg h

/-- The skip of the timing column gives the right column of the pair. -/
theorem skip_enteredColumn (size p : Nat) :
    (if enteredColumn size p = 6 then 5 else enteredColumn size p) = rightColumn size p := by
  rcases Nat.lt_trichotomy (size - 1 - 2 * p) 6 with hlt | heq | hgt
  · rw [enteredColumn_of_left hlt, rightColumn_of_left hlt.le, if_neg (by omega)]
  · rw [enteredColumn_of_right (by omega), rightColumn_of_left heq.le, if_pos heq, heq]
  · rw [enteredColumn_of_right (by omega), rightColumn_of_right (by omega), if_neg (by omega)]

/-- Two columns on from the right column of a pair the loop enters the next one; the size is odd. -/
theorem rightColumn_sub_two {size : Nat} (hodd : size % 2 = 1) (p : Nat) :
    rightColumn size p - 2 = enteredColumn size (p + 1) := by
  rcases Nat.lt_or_ge 6 (size - 1 - 2 * p) with hright | hleft
  · rw [rightColumn_of_right (by omega), enteredColumn_of_right (by omega)]; omega
  · rw [rightColumn_of_left hleft, enteredColumn_of_left (by omega)]; omega

/-- The loop ends with the last column pair. -/
theorem enteredColumn_lt_one_iff {size : Nat} (hodd : size % 2 = 1) (p : Nat) :
    enteredColumn size p < 1 ↔ (size - 1) / 2 ≤ p := by
  rcases Nat.lt_or_ge (size - 1 - 2 * p) 6 with hleft | hright
  · rw [enteredColumn_of_left hleft]; omega
  · rw [enteredColumn_of_right (by omega)]; omega

/-- The cells of a column pair, reserved or not. -/
def pairCells (size p : Nat) : List (Nat × Nat) :=
  (List.range size).flatMap fun k =>
    let r := if p % 2 = 0 then size - 1 - k else k
    [(r, rightColumn size p), (r, rightColumn size p - 1)]

theorem zigzag_eq_flatMap_pairCells (size : Nat) :
    zigzag size = (List.range' 0 ((size - 1) / 2)).flatMap (pairCells size) := by
  rw [← List.range_eq_range']
  rfl

/-- Testing the two cells of a row as the walk goes is filtering them. -/
theorem filter_rowCells (rsv : Nat → Nat → Bool) (r right : Nat) :
    [(r, right), (r, right - 1)].filter (fun q => !rsv q.1 q.2) =
      [right, right - 1].flatMap fun c => if rsv r c then [] else [(r, c)] := by
  cases hright : rsv r right <;> cases hleft : rsv r (right - 1) <;> simp [hright, hleft]

/-- One turn of the loop, while column pairs remain. -/
theorem walk_enteredColumn_succ (rsv : Nat → Nat → Bool) {size : Nat} (hodd : size % 2 = 1) (fuel : Nat) {p : Nat}
    (hp : p < (size - 1) / 2) :
    walk rsv size (fuel + 1) (enteredColumn size p) p =
      (pairCells size p).filter (fun q => !rsv q.1 q.2) ++ walk rsv size fuel (enteredColumn size (p + 1)) (p + 1) := by
  have hmore : ¬enteredColumn size p < 1 := by rw [enteredColumn_lt_one_iff hodd]; omega
  rw [walk, if_neg hmore]
  simp only [skip_enteredColumn, rightColumn_sub_two hodd, pairCells, List.filter_flatMap, filter_rowCells]

/-- The walk from pair `p` on, with fuel for the `n` pairs that remain. -/
theorem walk_eq_filter (rsv : Nat → Nat → Bool) {size : Nat} (hodd : size % 2 = 1) {n p fuel : Nat}
    (hpairs : p + n = (size - 1) / 2) (hfuel : n < fuel) :
    walk rsv size fuel (enteredColumn size p) p =
      ((List.range' p n).flatMap (pairCells size)).filter fun q => !rsv q.1 q.2 := by
  induction n generalizing p fuel with
  | zero =>
    obtain ⟨fuel, rfl⟩ := Nat.exists_eq_succ_of_ne_zero (Nat.ne_of_gt hfuel)
    rw [walk, if_pos ((enteredColumn_lt_one_iff hodd p).mpr (by omega))]
    rfl
  | succ n ih =>
    obtain ⟨fuel, rfl⟩ := Nat.exists_eq_succ_of_ne_zero (Nat.ne_of_gt (Nat.zero_lt_of_lt hfuel))
    rw [walk_enteredColumn_succ rsv hodd fuel (by omega), ih (by omega) (by omega), List.range'_succ, List.flatMap_cons,
      List.filter_append]

/-- `ORDER(v)` filters the cells of the walk, whatever the reserved plane. -/
theorem order_eq_filter (rsv : Nat → Nat → Bool) (v : Nat) :
    order rsv (symbolSize v) = (zigzag (symbolSize v)).filter fun q => !rsv q.1 q.2 := by
  have hsize : symbolSize v = 17 + 4 * v := rfl
  have hentered : enteredColumn (symbolSize v) 0 = symbolSize v - 1 := enteredColumn_of_right (by omega)
  rw [order, ← hentered, walk_eq_filter rsv (by omega) (Nat.zero_add _) (by omega), zigzag_eq_flatMap_pairCells]

/-- Settles O44: over the reserved plane of a matrix both are the filtered walk. -/
theorem placementOrderIsTheWalk : Obligations.PlacementOrderIsTheWalk :=
  fun M v _ _ => (order_eq_filter (fun r c => (M.cell r c).rsv) v).symm

/-! The order over a skeleton (rule R217). -/

/-- The walk begins at the bottom-right cell. -/
theorem exists_zigzag_eq_cons (v : Nat) : ∃ cells, zigzag (symbolSize v) = (16 + 4 * v, 16 + 4 * v) :: cells := by
  have hsize : symbolSize v = 16 + 4 * v + 1 := by rw [symbolSize]; omega
  have hpairs : (symbolSize v - 1) / 2 = 7 + 2 * v + 1 := by omega
  have hright : rightColumn (symbolSize v) 0 = 16 + 4 * v := by rw [rightColumn_of_right (by omega)]; omega
  rw [zigzag, hpairs, List.range_succ_eq_map, List.flatMap_cons, hright, hsize, List.range_succ_eq_map, List.flatMap_cons]
  exact ⟨_, rfl⟩

theorem skeleton_rsv_column_six {v : Nat} (hv : 1 ≤ v ∧ v ≤ 10) {r : Nat} (hr : r < symbolSize v) :
    ((skeleton v).cell r 6).rsv = true := by
  have h6 : 6 < symbolSize v := by rw [symbolSize]; omega
  exact (skeleton_rsv_iff hv r 6).mpr ⟨⟨hr, h6⟩, .inr (.inr (.inr (.inr (.inl rfl))))⟩

/-- No pattern covers the bottom-right cell, as the reference form says version by version. -/
theorem skeleton_rsv_bottom_right {v : Nat} (hv : 1 ≤ v ∧ v ≤ 10) :
    ((skeleton v).cell (16 + 4 * v) (16 + 4 * v)).rsv = false := by
  rw [skeleton_rsv hv]
  obtain ⟨hlo, hhi⟩ := hv
  interval_cases v <;> rfl

theorem head?_placementOrder_skeleton {v : Nat} (hv : 1 ≤ v ∧ v ≤ 10) :
    (placementOrder (skeleton v) (symbolSize v)).head? = some (16 + 4 * v, 16 + 4 * v) := by
  obtain ⟨cells, hcells⟩ := exists_zigzag_eq_cons v
  rw [placementOrder, hcells, List.filter_cons_of_pos (by rw [skeleton_rsv_bottom_right hv]; rfl), List.head?_cons]

theorem nodup_placementOrder (M : Matrix) (v : Nat) : (placementOrder M (symbolSize v)).Nodup := (nodup_zigzag v).filter _

/-- Settles O43: the order filters a walk that begins at the bottom-right cell, repeats no cell and leaves out column 6
only, which every skeleton reserves. -/
theorem orderVisitsEveryUnreservedCellOnce : Obligations.OrderVisitsEveryUnreservedCellOnce := fun v hlo hhi =>
  have hv : 1 ≤ v ∧ v ≤ 10 := ⟨hlo, hhi⟩
  ⟨fun _ hr => skeleton_rsv_column_six hv hr, head?_placementOrder_skeleton hv, nodup_placementOrder (skeleton v) v,
    fun _ _ => (mem_placementOrder_skeleton hv).trans and_assoc⟩

end Sys2Proof.Machine
namespace Sys2Proof.Machine

open Sys2Proof.Ref

/-! What `PLACE` reads: the order over the reserved plane and the counts of the version (rules R183, R210, R215). -/

theorem totalCodewords_eq_totalCw {v : Nat} (hv : 1 ≤ v ∧ v ≤ 10) : totalCodewords v = totalCw v := by
  obtain ⟨hlo, hhi⟩ := hv
  interval_cases v <;> rfl

theorem remainderCells_eq_remCells {v : Nat} (hv : 1 ≤ v ∧ v ≤ 10) : remainderCells v = remCells v := by
  obtain ⟨hlo, hhi⟩ := hv
  interval_cases v <;> rfl

/-- The walk stays inside the planes. -/
theorem zigzag_inside {v : Nat} (hv : v ≤ 10) : ∀ p ∈ zigzag (symbolSize v), p.1 < planeSide ∧ p.2 < planeSide :=
  fun _ hp => by
    have hlt := (mem_zigzag.mp hp).1
    have hsize := symbolSize_le hv
    omega

/-- The reserved plane of the matrix is that of memory wherever the walk looks. -/
theorem orderOf_eq_placementOrder {s : State} (hv : Legal s) : orderOf s = placementOrder s.mem.matrix s.side := by
  refine (order_eq_filter _ _).trans (List.filter_congr fun p hp => ?_)
  obtain ⟨hr, hc⟩ := zigzag_inside hv.2 p hp
  rw [s.mem.planeBit_rsv_eq hr hc]

/-! The errors of the commands (rules R251 to R253). -/

/-- A command whose body raises an error completes with it, on what the body kept. -/
theorem exec_of_bodyOf_error {i : Instr} {s t : State} {e : ErrCode} (h : bodyOf i s = (t, some e)) :
    exec i s = .next (failed e.bits t) := by
  rw [exec_eq_complete, h]
  rfl

theorem argA_eq_zero {s : State} (h : s.arg.toNat % 256 = 0) : s.argA = 0 := by
  rw [argA_eq_setWidth]
  exact BitVec.eq_of_toNat_eq (by rw [BitVec.toNat_setWidth]; exact h)

/-- The six commands that need a version look at it first (rules R23, R253). -/
theorem bodyOf_badVersion {s : State} (hv : ¬Legal s) {i : Instr}
    (hi : i ∈ [Instr.ecc, .buildSkeleton, .place, .maskSelect, .formatWrite] ∨ ∃ mid, i = .maskApply mid) :
    bodyOf i s = (s, some .badVersion) := by
  have hill (body : State → Result) : s.withVersion body = (s, some .badVersion) := s.withVersion_illegal hv
  simp only [List.mem_cons, List.not_mem_nil, or_false] at hi
  obtain (rfl | rfl | rfl | rfl | rfl) | ⟨mid, rfl⟩ := hi
  · rw [bodyOf, eccBody, hill]
  · rw [bodyOf, buildSkeletonBody, hill]
  · rw [bodyOf, placeBody, hill]
  · rw [bodyOf, maskSelectBody, State.withSetCells, hill]
  · rw [bodyOf, formatWriteBody, hill]
  · rw [bodyOf, maskApplyBody, State.withSetCells, hill]

theorem placeBody_sizeMismatch {s : State} (hv : Legal s)
    (hcount : (placementOrder s.mem.matrix s.side).length ≠ 8 * totalCw s.ver + remCells s.ver) :
    placeBody s = ({ s with cellcnt := BitVec.ofNat 12 (placementOrder s.mem.matrix s.side).length },
      some .internalSizeMismatch) := by
  rcases placeBody_cases s with ⟨hill, -⟩ | ⟨-, -, e⟩ | ⟨-, hagrees, -⟩
  · exact absurd hv hill
  · exact e
  · exact absurd hagrees hcount

/-- Every cell of the symbol is listed by `inside`, with its place. -/
theorem Matrix.exists_mem_inside {M : Matrix} (h : M.Square) {size r c : Nat} (hsize : size ≤ planeSide) (hr : r < size)
    (hc : c < size) : ∃ row ∈ M.inside size, (r, c, M.cell r c) ∈ row := by
  have hr' : r < M.length := h.1 ▸ hr.trans_le hsize
  have hc' : c < M[r].length := h.2 _ (List.getElem_mem hr') ▸ hc.trans_le hsize
  have hrow : (M[r], r) ∈ (M.take size).zipIdx := List.mem_zipIdx_iff_getElem?.mpr (by simp [hr, hr'])
  have hcol : (M[r][c], c) ∈ (M[r].take size).zipIdx := List.mem_zipIdx_iff_getElem?.mpr (by simp [hc, hc'])
  have hcell : M.cell r c = M[r][c] := by simp [Matrix.cell, List.getD_eq_getElem?_getD, hr', hc']
  exact ⟨_, List.mem_map_of_mem hrow, List.mem_map.mpr ⟨_, hcol, by rw [hcell]⟩⟩

/-- `UNSET_READ` is raised when some unreserved cell of the symbol is unset (rule R230). -/
theorem unsetInside_eq_true {s : State} (hv : Legal s) (hset : ¬AllSet s) : unsetInside s.mem.matrix s.side = true := by
  simp only [AllSet, not_forall, not_or, Bool.not_eq_true] at hset
  obtain ⟨r, hr, c, hc, hrsv, hunset⟩ := hset
  have hsize : side s ≤ planeSide := symbolSize_le hv.2
  obtain ⟨row, hrow, hcell⟩ := Matrix.exists_mem_inside s.mem.square_matrix hsize hr hc
  refine List.any_eq_true.mpr ⟨row, hrow, List.any_eq_true.mpr ⟨_, hcell, ?_⟩⟩
  rw [← s.mem.planeBit_rsv_eq (by omega) (by omega), ← s.mem.planeBit_set_eq (by omega) (by omega)]
  simp [hrsv, hunset]

theorem withSetCells_unset {s : State} (hv : Legal s) (hset : ¬AllSet s) (body : State → Matrix → Result) :
    s.withSetCells body = (s, some .unsetRead) := by
  have hunset := unsetInside_eq_true hv hset
  rcases s.withSetCells_cases body with ⟨-, hall, -⟩ | ⟨-, -, e⟩ | ⟨hill, -⟩
  · rw [hunset] at hall; cases hall
  · exact e
  · exact absurd hv hill

/-- Settles O40: each error is the one of the first check of the body that fails, and the body keeps what it says. -/
theorem errorsFollowTheCheckOrder : Obligations.ErrorsFollowTheCheckOrder := by
  intro s
  refine ⟨fun hlen => ?tooLong, fun harg => ?badArgument, fun n hn => ?unsupported, fun n hn hk => ?badLength,
    fun hv i hi => ?badVersion, fun hv hcount => ?sizeMismatch, fun hv hset => ⟨?unsetSelect, fun mid => ?unsetApply⟩⟩
  case tooLong => exact exec_of_bodyOf_error (i := .pad) (padBody_tooLong hlen)
  case badArgument => exact exec_gfLog_none (by rw [argA_eq_zero harg]; rfl)
  case unsupported => exact exec_rsEncode_of_genPoly_none (genPoly_eq_none hn) s
  case badLength => exact exec_rsEncode_of_length_gt hn (by rwa [argIndex_eq_mod])
  case badVersion => exact exec_of_bodyOf_error (bodyOf_badVersion hv hi)
  case sizeMismatch =>
    rw [orderOf_eq_placementOrder hv, totalCodewords_eq_totalCw hv, remainderCells_eq_remCells hv] at hcount
    rw [orderOf_eq_placementOrder hv]
    exact exec_of_bodyOf_error (i := .place) (placeBody_sizeMismatch hv hcount)
  case unsetSelect =>
    have hbody : bodyOf .maskSelect s = (s, some .unsetRead) := by
      rw [bodyOf, maskSelectBody, withSetCells_unset hv hset]
    exact exec_of_bodyOf_error hbody
  case unsetApply =>
    have hbody : bodyOf (.maskApply mid) s = (s, some .unsetRead) := by
      rw [bodyOf, maskApplyBody, withSetCells_unset hv hset]
    exact exec_of_bodyOf_error hbody

/-! `PLACE`, cell by cell (rules R211 to R214). -/

/-- When no cell is changed twice, each changed cell is what its one change makes of it. -/
theorem Matrix.cell_updateAll_of_mem {α : Type} {at_ : α → Nat × Nat} {f : α → Cell → Cell} {M : Matrix} (h : M.Square)
    {ps : List α} (hin : ∀ p ∈ ps, (at_ p).1 < planeSide ∧ (at_ p).2 < planeSide) (hnodup : (ps.map at_).Nodup) {p : α}
    (hp : p ∈ ps) : (M.updateAll at_ f ps).cell (at_ p).1 (at_ p).2 = f p (M.cell (at_ p).1 (at_ p).2) := by
  classical
  have honce : (ps.filter fun q => at_ q = at_ p) = [p] := by
    have hsame : ∀ q ∈ ps, decide (at_ q = at_ p) = decide (q = p) := fun q hq =>
      decide_eq_decide.mpr ⟨fun hat => List.inj_on_of_nodup_map hnodup hq hp hat, congrArg at_⟩
    rw [List.filter_congr hsame, List.filter_eq, List.count_eq_one_of_mem hnodup.of_map hp, List.replicate_one]
  rw [Matrix.cell_updateAll h hin]
  exact congrArg (List.foldl _ _) honce

theorem Matrix.cell_updateAll_of_not_mem {α : Type} {at_ : α → Nat × Nat} {f : α → Cell → Cell} {M : Matrix}
    (h : M.Square) {ps : List α} (hin : ∀ p ∈ ps, (at_ p).1 < planeSide ∧ (at_ p).2 < planeSide) {r c : Nat}
    (hout : (r, c) ∉ ps.map at_) : (M.updateAll at_ f ps).cell r c = M.cell r c := by
  rw [Matrix.cell_updateAll h hin, List.filter_eq_nil_iff.mpr fun p hp hat => hout ?_]
  · rfl
  · rw [← of_decide_eq_true hat]
    exact List.mem_map_of_mem hp

/-- Bit `i` of a byte sequence, the most significant bit of each byte first (rules R9, R212). -/
theorem getD_bytesBits (bs : List Byte) (i : Nat) :
    (bytesBits bs).getD i false = (bs.getD (i / 8) 0).getLsbD (7 - i % 8) := by
  induction bs generalizing i with
  | nil => simp [bytesBits]
  | cons b bs ih =>
    have hcons : bytesBits (b :: bs) = byteBits b ++ bytesBits bs := rfl
    have hlen : (byteBits b).length = 8 := length_natBits _ _
    rw [hcons]
    rcases Nat.lt_or_ge i 8 with hi | hi
    · rw [List.getD_append _ _ _ _ (by omega), List.getD_eq_getElem _ _ (by omega), Nat.div_eq_of_lt hi, Nat.mod_eq_of_lt hi]
      simp [byteBits, natBits, BitVec.getLsbD]
    · rw [List.getD_append_right _ _ _ _ (by omega), hlen, ih, show i / 8 = (i - 8) / 8 + 1 by omega, List.getD_cons_succ,
        show (i - 8) % 8 = i % 8 by omega]

/-- Bit `i` of the placement: a codeword bit, then light for the remainder cells (rules R212, R213). -/
theorem getD_placedBits (v : Nat) (codewords : List Byte) (i : Nat) :
    (placedBits v codewords).getD i false = (codewords.getD (i / 8) 0).getLsbD (7 - i % 8) := by
  rw [← getD_bytesBits, placedBits]
  rcases Nat.lt_or_ge i (bytesBits codewords).length with hi | hi
  · exact List.getD_append _ _ _ _ hi
  · rw [List.getD_append_right _ _ _ _ hi, List.getD_eq_getElem?_getD,
      List.getElem?_getD_replicate_default_eq, List.getD_eq_default _ _ hi]

/-- The cells that `PLACE` writes, in order (rule R210). -/
def placeOrder (s : State) : List (Nat × Nat) := placementOrder s.mem.matrix s.side

/-- The bits that `PLACE` reads from `CW`, with a light one for each remainder cell (rules R212, R213). -/
def placeBits (s : State) : List Bool := placedBits s.ver (s.bufTake .cw (totalCw s.ver))

/-- The matrix after `PLACE` (rule R211). -/
def placeMatrix (s : State) : Matrix := s.mem.matrix.writeBits (placeOrder s) (placeBits s)

theorem square_placeMatrix (s : State) : (placeMatrix s).Square := s.mem.square_matrix.writeBits _ _

theorem placeMatrix_eq_updateAll (s : State) : placeMatrix s =
    s.mem.matrix.updateAll Prod.fst (fun p => Cell.write p.2) ((placeOrder s).zip (placeBits s)) := rfl

theorem placeOrder_inside {s : State} (hv : Legal s) : ∀ p ∈ placeOrder s, p.1 < planeSide ∧ p.2 < planeSide :=
  fun p hp => zigzag_inside hv.2 p (List.mem_of_mem_filter hp)

theorem length_placeBits (s : State) : (placeBits s).length = 8 * totalCw s.ver + remCells s.ver := by
  rw [placeBits, length_placedBits, State.bufTake, Memory.length_load]

theorem getD_placeBits (s : State) (i : Nat) : (placeBits s).getD i false =
    (decide (i < 8 * totalCw s.ver) && (s.mem.read (0x800 + i / 8)).getLsbD (7 - i % 8)) := by
  rw [placeBits, getD_placedBits, State.bufTake]
  rcases Nat.lt_or_ge i (8 * totalCw s.ver) with hi | hi
  · rw [s.mem.getD_load (by omega), decide_eq_true hi, Bool.true_and]
    rfl
  · rw [List.getD_eq_default _ _ (by rw [Memory.length_load]; omega), decide_eq_false (by omega), Bool.false_and]
    exact BitVec.getLsbD_zero

section
variable {s : State} (hcount : (placeOrder s).length = 8 * totalCw s.ver + remCells s.ver)
include hcount

theorem length_placeOrder_le : (placeOrder s).length ≤ (placeBits s).length := (hcount.trans (length_placeBits s).symm).le

theorem map_fst_zip_placeOrder : ((placeOrder s).zip (placeBits s)).map Prod.fst = placeOrder s :=
  List.map_fst_zip (length_placeOrder_le hcount)

variable (hv : Legal s)
include hv

theorem exec_place_ok : exec .place s = .next (done { s with
    cellcnt := BitVec.ofNat 12 (placeOrder s).length
    mem := ((s.storeDark (placeMatrix s)).storeSet (placeMatrix s)).mem }) := by
  rcases placeBody_cases s with ⟨hill, -⟩ | ⟨-, hne, -⟩ | ⟨-, -, e⟩
  · exact absurd hv hill
  · exact absurd hcount hne
  · rw [exec_eq_complete, bodyOf, e]
    rfl

/-- The three planes hold the matrix, the reserved one as it was (rule R214). -/
theorem matrix_after_place : ((s.storeDark (placeMatrix s)).storeSet (placeMatrix s)).mem.matrix = placeMatrix s :=
  s.matrix_storeDark_storeSet (square_placeMatrix s) fun r c _ _ =>
    (cell_writeBits s.mem.square_matrix (length_placeOrder_le hcount) (placeOrder_inside hv) r c).1

/-- Cell `i` of the order is visited once, and gets bit `i`. -/
theorem cell_placeMatrix_of_lt {i : Nat} (hi : i < (placeOrder s).length) {q : Nat × Nat}
    (hq : (placeOrder s).getD i (0, 0) = q) :
    (placeMatrix s).cell q.1 q.2 = { set := true, dark := (placeBits s).getD i false, rsv := false } := by
  have hbits := length_placeOrder_le hcount
  rw [List.getD_eq_getElem _ _ hi] at hq
  have hzip : (q, (placeBits s).getD i false) ∈ (placeOrder s).zip (placeBits s) :=
    List.mem_iff_getElem.mpr ⟨i, by rw [List.length_zip]; omega, by
      rw [List.getElem_zip, hq, List.getD_eq_getElem _ _ (hi.trans_le hbits)]⟩
  have hnodup : (((placeOrder s).zip (placeBits s)).map Prod.fst).Nodup := by
    rw [map_fst_zip_placeOrder hcount]
    exact nodup_placementOrder s.mem.matrix s.ver
  have hunreserved : (s.mem.matrix.cell q.1 q.2).rsv = false := by
    simpa using List.of_mem_filter (List.of_mem_zip hzip).1
  rw [placeMatrix_eq_updateAll]
  refine (Matrix.cell_updateAll_of_mem s.mem.square_matrix
    (fun p hp => placeOrder_inside hv p.1 (List.of_mem_zip hp).1) hnodup hzip).trans ?_
  rw [Cell.write, hunreserved]

theorem cell_placeMatrix_of_not_mem {r c : Nat} (hout : (r, c) ∉ placeOrder s) :
    (placeMatrix s).cell r c = s.mem.matrix.cell r c := by
  rw [← map_fst_zip_placeOrder hcount] at hout
  exact Matrix.cell_updateAll_of_not_mem s.mem.square_matrix
    (fun p hp => placeOrder_inside hv p.1 (List.of_mem_zip hp).1) hout

end

theorem State.read_storeDark_storeSet_of_outside (s : State) (M : Matrix) {a : Nat}
    (ha : inRanges [(0x1000, 0x11C8), (0x1200, 0x13C8)] a = false) :
    ((s.storeDark M).storeSet M).mem.read a = s.mem.read a := by
  rw [Bool.eq_false_iff, ne_eq, inRanges_cons_iff, inRanges_cons_iff, inRanges_nil] at ha
  have hdark : ¬(Plane.dark.base ≤ a ∧ a < Plane.dark.base + planeBytes) := fun h => ha (.inl h)
  have hset : ¬(Plane.set.base ≤ a ∧ a < Plane.set.base + planeBytes) := fun h => ha (.inr (.inl h))
  rw [State.storeSet_mem, Memory.read_fillPlane, if_neg hset, State.storeDark_mem, Memory.read_fillPlane, if_neg hdark]

/-- Settles O45: the planes hold the model's matrix, in which each cell of the order is written once, with its own bit. -/
theorem placeWritesTheBits : Obligations.PlaceWritesTheBits := by
  intro s hv hcount
  have horder : orderOf s = placeOrder s := orderOf_eq_placementOrder hv
  rw [horder, totalCodewords_eq_totalCw hv, remainderCells_eq_remCells hv] at hcount
  rw [horder, totalCodewords_eq_totalCw hv]
  refine ⟨_, exec_place_ok hcount hv, fun i hi => ?placed, fun r c hr hc hout => ?other,
    fun a ha => s.read_storeDark_storeSet_of_outside _ ha⟩
  case placed =>
    obtain ⟨hr, hc⟩ := placeOrder_inside hv _ (List.getElem_mem hi)
    rw [← List.getD_eq_getElem _ (0, 0) hi] at hr hc
    rw [cellOf_eq_cell_matrix _ hr hc, matrix_after_place hcount hv, cell_placeMatrix_of_lt hcount hv hi rfl, getD_placeBits]
    rfl
  case other =>
    rw [cellOf_eq_cell_matrix _ hr hc, matrix_after_place hcount hv, cell_placeMatrix_of_not_mem hcount hv hout,
      cellOf_eq_cell_matrix _ hr hc]

end Sys2Proof.Machine
namespace Sys2Proof.Machine

open Sys2Proof.Ref

/-! The candidate grid of a mask (rules R221, R225). -/

theorem maskFn_eq_maskTrue {m : Nat} (hm : m < 8) (i j : Nat) : maskFn m i j = maskTrue m i j := by
  interval_cases m <;> rfl

/-- The cells inside the symbol, listed by their places. -/
theorem Matrix.Square.inside_eq {M : Matrix} (h : M.Square) {size : Nat} (hsize : size ≤ planeSide) :
    M.inside size = (List.range size).map fun r => (List.range size).map fun c => (r, c, M.cell r c) := by
  refine List.ext_getElem (by simp [Matrix.inside, h.1, hsize]) fun r hr hr' => ?_
  have hlt : r < size := by simpa using hr'
  have hrow : r < M.length := h.1 ▸ hlt.trans_le hsize
  have hlen : M[r].length = planeSide := h.2 _ (List.getElem_mem hrow)
  refine List.ext_getElem (by simp [Matrix.inside, hlen, hsize]) fun c hc hc' => ?_
  have hcol : c < M[r].length := by simp at hc'; omega
  simp [Matrix.inside, Matrix.cell, List.getD_eq_getElem?_getD, hrow, hcol]

/-- The rows of a grid that is given cell by cell. -/
def gridRows (size : Nat) (G : Nat → Nat → Option Bool) : List (List (Option Bool)) :=
  (List.range size).map fun i => (List.range size).map fun j => G i j

theorem candidate_matrix (mem : Memory) {size m : Nat} (hsize : size ≤ planeSide) (hm : m < 8) :
    candidate mem.matrix size m = gridRows size (grid mem m) := by
  rw [candidate, mem.square_matrix.inside_eq hsize, List.map_map]
  refine List.map_congr_left fun r hr => ?_
  rw [Function.comp_apply, List.map_map]
  refine List.map_congr_left fun c hc => ?_
  have hr' := (List.mem_range.mp hr).trans_le hsize
  have hc' := (List.mem_range.mp hc).trans_le hsize
  rw [Function.comp_apply, mem.cell_matrix hr' hc', maskFn_eq_maskTrue hm]
  rfl

/-- The rows and the columns of the grid are the lines of rules A and C. -/
theorem gridRows_append_gridColumns (size : Nat) (G : Nat → Nat → Option Bool) :
    gridRows size G ++ gridColumns size (gridRows size G) = gridLines size G := by
  refine congrArg (gridRows size G ++ ·) (List.map_congr_left fun c hc => ?_)
  rw [gridRows, List.map_map]
  refine List.map_congr_left fun r _ => ?_
  simp [List.getD_eq_getElem?_getD, List.mem_range.mp hc]

/-! Rule A (rule R222). -/

@[simp] theorem runScores_nil : runScores [] = 0 := rfl

/-- The cells of a run that are scored: none of a reserved run. -/
def scoredCells (x : Option Bool) (n : Nat) : Nat := if x = none then 0 else n

theorem runScores_replicate (x : Option Bool) (n : Nat) :
    runScores (List.replicate n x) = runScore (scoredCells x n) := by
  cases n with
  | zero => cases x <;> rfl
  | succ n =>
    have hchain : (List.replicate (n + 1) x).IsChain fun a b => (a == b) = true :=
      List.isChain_replicate_of_rel _ (beq_self_eq_true x)
    rw [runScores, List.splitBy_of_isChain (by simp) hchain]
    cases x <;> simp [scoredCells, runScore, List.replicate_succ]

/-- A new colour ends a run. -/
theorem runScores_replicate_append_cons {x y : Option Bool} (hne : x ≠ y) (n : Nat) (l : List (Option Bool)) :
    runScores (List.replicate n x ++ y :: l) = runScore (scoredCells x n) + runScores (y :: l) := by
  have hsplit := List.splitBy_append_cons (r := fun a b => a == b) (l := List.replicate n x) (a := y) l fun z hz => by
    rw [List.eq_of_mem_replicate (List.mem_of_getLast? hz)]
    exact beq_eq_false_iff_ne.mpr hne
  rw [← runScores_replicate, runScores, hsplit, List.map_append, List.sum_append]
  rfl

theorem runsFrom_cons_self (x : Option Bool) (n : Nat) (l : List (Option Bool)) :
    runsFrom x (scoredCells x n) (x :: l) = runsFrom x (scoredCells x (n + 1)) l := by
  cases x <;> simp [runsFrom, scoredCells, runScore]

theorem runsFrom_cons_of_ne {x y : Option Bool} (hne : x ≠ y) (n : Nat) (l : List (Option Bool)) :
    runsFrom x n (y :: l) = runScore n + runsFrom y (scoredCells y 1) l := by
  cases y with
  | none => rfl
  | some b => rw [runsFrom, if_neg hne]; rfl

/-- The model's pass along a line, within a run of `x` that is `n` long, scores the maximal runs of the line. -/
theorem runsFrom_eq_runScores (x : Option Bool) (n : Nat) (l : List (Option Bool)) :
    runsFrom x (scoredCells x n) l = runScores (List.replicate n x ++ l) := by
  induction l generalizing x n with
  | nil => rw [List.append_nil, runScores_replicate]; rfl
  | cons y l ih =>
    by_cases hxy : x = y
    · subst hxy
      rw [runsFrom_cons_self, ih, List.replicate_succ', List.append_assoc]
      rfl
    · rw [runsFrom_cons_of_ne hxy, ih, runScores_replicate_append_cons hxy]
      rfl

theorem penaltyA_gridRows (size : Nat) (G : Nat → Nat → Option Bool) : penaltyA size (gridRows size G) = ruleA size G := by
  rw [penaltyA, gridRows_append_gridColumns, ruleA]
  exact congrArg List.sum (List.map_congr_left fun line _ => runsFrom_eq_runScores none 0 line)

/-! Rule B (rule R223). -/

theorem sameColour_iff (a b c d : Option Bool) : sameColour a b c d = true ↔ a ≠ none ∧ b = a ∧ c = a ∧ d = a := by
  simp [sameColour, Option.isSome_iff_ne_none, and_assoc, eq_comm (a := a)]

theorem squaresIn_map_range (n : Nat) (a b : Nat → Option Bool) :
    squaresIn ((List.range (n + 1)).map a) ((List.range (n + 1)).map b) =
      ((List.range n).map fun j =>
        if a j ≠ none ∧ a (j + 1) = a j ∧ b j = a j ∧ b (j + 1) = a j then 3 else 0).sum := by
  induction n generalizing a b with
  | zero => rfl
  | succ n ih =>
    have htail := ih (fun j => a (j + 1)) fun j => b (j + 1)
    simp only [List.range_succ_eq_map, List.map_cons, List.map_map, Function.comp_def, Nat.succ_eq_add_one, Nat.zero_add,
      List.sum_cons] at htail ⊢
    rw [squaresIn, htail, if_congr (sameColour_iff ..) rfl rfl]

theorem penaltyB_map_range (n : Nat) (rows : Nat → List (Option Bool)) :
    penaltyB ((List.range (n + 1)).map rows) = ((List.range n).map fun i => squaresIn (rows i) (rows (i + 1))).sum := by
  induction n generalizing rows with
  | zero => rfl
  | succ n ih =>
    have htail := ih fun i => rows (i + 1)
    simp only [List.range_succ_eq_map, List.map_cons, List.map_map, Function.comp_def, Nat.succ_eq_add_one, Nat.zero_add,
      List.sum_cons] at htail ⊢
    rw [penaltyB, htail]

theorem penaltyB_gridRows (n : Nat) (G : Nat → Nat → Option Bool) : penaltyB (gridRows (n + 1) G) = ruleB (n + 1) G := by
  simp only [gridRows, penaltyB_map_range, squaresIn_map_range, ruleB, Nat.add_sub_cancel]

/-! Rule C (rule R224). -/

/-- No window fits a line of 10 cells or fewer. -/
theorem windowsIn_of_length_le {l : List (Option Bool)} (h : l.length ≤ 10) : windowsIn l = 0 := by
  induction l with
  | nil => rfl
  | cons x l ih =>
    have hshort (w : List (Option Bool)) (hw : w.length = 11) : (x :: l).take 11 ≠ w := fun e => by
      have := congrArg List.length e
      rw [List.length_take, hw] at this
      omega
    rw [List.length_cons] at h
    rw [windowsIn, if_neg (not_or.mpr ⟨hshort _ rfl, hshort _ rfl⟩), ih (by omega)]

theorem mem_finderWindows_iff (w : List (Option Bool)) :
    w ∈ finderWindows ↔ w = finderLike ∨ w = finderLike.reverse := by
  rw [show finderWindows = [finderLike, finderLike.reverse] from rfl, List.mem_pair]

theorem windowsIn_eq_sum (l : List (Option Bool)) :
    windowsIn l = ((List.range (l.length - 10)).map fun s => if (l.drop s).take 11 ∈ finderWindows then 40 else 0).sum := by
  induction l with
  | nil => rfl
  | cons x l ih =>
    by_cases h : l.length < 10
    · rw [windowsIn_of_length_le (by rw [List.length_cons]; omega), List.length_cons, Nat.sub_eq_zero_of_le (by omega)]
      rfl
    · have hstarts : (x :: l).length - 10 = (l.length - 10) + 1 := by rw [List.length_cons]; omega
      rw [windowsIn, ih, hstarts, List.range_succ_eq_map, List.map_cons, List.sum_cons, List.map_map,
        ← if_congr (mem_finderWindows_iff _) rfl rfl]
      rfl

theorem length_of_mem_gridLines {size : Nat} {G : Nat → Nat → Option Bool} {line : List (Option Bool)}
    (h : line ∈ gridLines size G) : line.length = size := by
  simp only [gridLines, List.mem_append, List.mem_map] at h
  obtain ⟨i, -, rfl⟩ | ⟨j, -, rfl⟩ := h <;> simp

theorem penaltyC_gridRows (size : Nat) (G : Nat → Nat → Option Bool) : penaltyC size (gridRows size G) = ruleC size G := by
  rw [penaltyC, gridRows_append_gridColumns, ruleC]
  refine congrArg List.sum (List.map_congr_left fun line hline => ?_)
  rw [windowsIn_eq_sum, length_of_mem_gridLines hline]

/-! Rule D (rule R227). -/

theorem penaltyD_gridRows (size : Nat) (G : Nat → Nat → Option Bool) : penaltyD (gridRows size G) = ruleD size G := by
  have hcells : (gridRows size G).flatten = (List.range size).flatMap fun i => (List.range size).map fun j => G i j := rfl
  have hscored : Option.isSome = fun x : Option Bool => x != none := funext fun x => by cases x <;> rfl
  rw [penaltyD, ← List.countP_eq_length_filter, ← List.countP_eq_length_filter, hcells, hscored, ruleD, balanceScore]
  refine if_congr Iff.rfl rfl (congrArg (10 * ·) (congrArg (· / _) ?_))
  omega

/-! The penalties of a mask (rule R228). -/

theorem penalties_eq_scores (mem : Memory) {v m : Nat} (hv : v ≤ 10) (hm : m < 8) :
    penalties mem.matrix (17 + 4 * v) m = scores mem (17 + 4 * v) m := by
  have hsize : 17 + 4 * v ≤ planeSide := symbolSize_le hv
  rw [penalties, candidate_matrix mem hsize hm, scores, penaltyA_gridRows,
    show 17 + 4 * v = (16 + 4 * v) + 1 by omega, penaltyB_gridRows, penaltyC_gridRows, penaltyD_gridRows]

theorem totalPenalty_eq_total (mem : Memory) {v m : Nat} (hv : v ≤ 10) (hm : m < 8) :
    totalPenalty mem.matrix (17 + 4 * v) m = total mem (17 + 4 * v) m := congrArg List.sum (penalties_eq_scores mem hv hm)

/-- Settles O46: on the rows of the candidate grid each rule of the model is the rule of the spec. -/
theorem penaltiesFollowTheRules : Obligations.PenaltiesFollowTheRules := fun mem _ _ _ hv hm => penalties_eq_scores mem hv hm

end Sys2Proof.Machine
namespace Sys2Proof.Machine

open Sys2Proof.Ref

/-! The bounds of rule R232. -/

theorem sum_map_le {α : Type} {l : List α} {f : α → Nat} {b : Nat} (h : ∀ x ∈ l, f x ≤ b) : (l.map f).sum ≤ l.length * b := by
  have hsum := (l.map f).sum_le_card_nsmul b (by simpa using h)
  rwa [List.length_map, smul_eq_mul] at hsum

/-- Each of `n` places adds `w` or nothing. -/
theorem sum_map_range_ite_le (n w : Nat) (p : Nat → Prop) [DecidablePred p] :
    ((List.range n).map fun i => if p i then w else 0).sum ≤ n * w := by
  have hplace : ∀ i ∈ List.range n, (if p i then w else 0) ≤ w := fun i _ => by split <;> omega
  simpa using sum_map_le hplace

theorem sum_map_gridLines_le {size b : Nat} {G : Nat → Nat → Option Bool} {f : List (Option Bool) → Nat}
    (hf : ∀ line, line.length = size → f line ≤ b) : ((gridLines size G).map f).sum ≤ 2 * size * b := by
  have hlines : (gridLines size G).length = 2 * size := by simp [gridLines, two_mul]
  exact hlines ▸ sum_map_le fun line hline => hf line (length_of_mem_gridLines hline)

theorem runScore_le (n : Nat) : runScore n ≤ n - 2 := by
  unfold runScore
  split <;> omega

/-- A line scores most as a single run. -/
theorem runsFrom_le (cur : Option Bool) (n : Nat) (l : List (Option Bool)) : runsFrom cur n l ≤ n + l.length - 2 := by
  induction l generalizing cur n with
  | nil => exact runScore_le n
  | cons x l ih =>
    have hrun := runScore_le n
    rw [List.length_cons]
    cases x with
    | none =>
      have hrest := ih none 0
      rw [runsFrom]
      omega
    | some b =>
      have hsame := ih cur (n + 1)
      have hrest := ih (some b) 1
      rw [runsFrom]
      split <;> omega

theorem runScores_le (line : List (Option Bool)) : runScores line ≤ line.length - 2 :=
  calc runScores line = runsFrom none 0 line := (runsFrom_eq_runScores none 0 line).symm
    _ ≤ 0 + line.length - 2 := runsFrom_le none 0 line
    _ = line.length - 2 := by rw [Nat.zero_add]

/-- The dark cells are among the scored ones, so the deviation is at most 50 percent. -/
theorem ruleD_le (size : Nat) (G : Nat → Nat → Option Bool) : ruleD size G ≤ 100 := by
  unfold ruleD
  extract_lets cells N K
  have hKN : K ≤ N := List.countP_mono_left fun x _ hx => by
    rw [beq_iff_eq.mp hx]; rfl
  split
  · omega
  · have hdiv : (20 * (K : Int) - 10 * (N : Int)).natAbs / N ≤ 10 := Nat.div_le_of_le_mul (by omega)
    omega

section
variable {size : Nat} (hsize : size ≤ 57) (G : Nat → Nat → Option Bool)
include hsize

theorem ruleA_le : ruleA size G ≤ 6270 :=
  calc ruleA size G ≤ 2 * size * 55 := sum_map_gridLines_le fun line hline => by
        have := runScores_le line
        omega
    _ ≤ 6270 := by omega

theorem ruleB_le : ruleB size G ≤ 9408 :=
  calc ruleB size G ≤ (List.range (size - 1)).length * ((size - 1) * 3) :=
        sum_map_le fun _ _ => sum_map_range_ite_le _ _ _
    _ ≤ 56 * (56 * 3) := by
        rw [List.length_range]
        exact Nat.mul_le_mul (by omega) (Nat.mul_le_mul_right 3 (by omega))

theorem ruleC_le : ruleC size G ≤ 214320 :=
  calc ruleC size G ≤ 2 * size * ((size - 10) * 40) := sum_map_gridLines_le fun _ _ => sum_map_range_ite_le _ _ _
    _ ≤ 114 * (47 * 40) := Nat.mul_le_mul (by omega) (Nat.mul_le_mul_right 40 (by omega))

end

theorem total_eq_add (mem : Memory) (size m : Nat) : total mem size m =
    ruleA size (grid mem m) + ruleB size (grid mem m) + ruleC size (grid mem m) + ruleD size (grid mem m) := by
  simp only [total, scores, List.sum_cons, List.sum_nil, Nat.add_zero, Nat.add_assoc]

theorem total_lt (mem : Memory) {size : Nat} (hsize : size ≤ 57) (m : Nat) : total mem size m < 230100 := by
  have hA := ruleA_le hsize (grid mem m)
  have hB := ruleB_le hsize (grid mem m)
  have hC := ruleC_le hsize (grid mem m)
  have hD := ruleD_le size (grid mem m)
  rw [total_eq_add]
  omega

/-! `MASK_SELECT` (rule R231). -/

theorem cell_matrix_set_of_allSet {s : State} (hv : Legal s) (hset : AllSet s) (r c : Nat) (hr : r < side s) (hc : c < side s) :
    (s.mem.matrix.cell r c).rsv = true ∨ (s.mem.matrix.cell r c).set = true := by
  have hsize : side s ≤ planeSide := symbolSize_le hv.2
  rw [← s.mem.planeBit_rsv_eq (by omega) (by omega), ← s.mem.planeBit_set_eq (by omega) (by omega)]
  exact hset r hr c hc

theorem withSetCells_allSet {s : State} (hv : Legal s) (hset : AllSet s) (body : State → Matrix → Result) :
    s.withSetCells body = body s s.mem.matrix := withSetCells_ok hv rfl rfl (cell_matrix_set_of_allSet hv hset)

theorem exec_maskSelect_ok {s : State} (hv : Legal s) (hset : AllSet s) : exec .maskSelect s = .next (done { s with
    pen := penTable s.mem.matrix (side s)
    penalty := penaltyTable s.mem.matrix (side s)
    mask := BitVec.ofNat 3 (bestMask ((List.range 8).map (totalPenalty s.mem.matrix (side s)))) }) := by
  rw [exec_eq_complete, bodyOf, maskSelectBody, withSetCells_allSet hv hset]
  rfl

theorem penaltyTable_getElem (M : Matrix) (size : Nat) (m : Fin 8) : (penaltyTable M size)[m] = penaltyWord M size m := by
  fin_cases m <;> rfl

theorem penTable_getElem (M : Matrix) (size : Nat) (m : Fin 8) (k : Fin 4) :
    (penTable M size)[m][k] = BitVec.ofNat 32 ((penalties M size m).getD k 0) := by
  have hrow : (penTable M size)[m] = penWords M size m := by fin_cases m <;> rfl
  rw [hrow]
  fin_cases k <;> rfl

/-- A penalty is at most its total (rule R228). -/
theorem getD_penalties_le (M : Matrix) (size m : Nat) (k : Nat) : (penalties M size m).getD k 0 ≤ totalPenalty M size m := by
  rw [totalPenalty]
  by_cases hk : k < (penalties M size m).length
  · rw [List.getD_eq_getElem _ _ hk]
    exact List.le_sum_of_mem (List.getElem_mem hk)
  · rw [List.getD_eq_default _ _ (by omega)]
    omega

section
variable {s : State} (hv : Legal s) (m : Fin 8)
include hv

theorem totalPenalty_lt : totalPenalty s.mem.matrix (side s) m < 230100 := by
  rw [side, totalPenalty_eq_total _ hv.2 m.isLt]
  exact total_lt _ (by omega) _

theorem toNat_penaltyTable : (penaltyTable s.mem.matrix (side s))[m].toNat = totalPenalty s.mem.matrix (side s) m := by
  have hlt := totalPenalty_lt hv m
  rw [penaltyTable_getElem, penaltyWord, BitVec.toNat_ofNat, Nat.mod_eq_of_lt (by omega)]

theorem toNat_penTable (k : Fin 4) :
    (penTable s.mem.matrix (side s))[m][k].toNat = (penalties s.mem.matrix (side s) m).getD k 0 := by
  have hlt := totalPenalty_lt hv m
  have hle := getD_penalties_le s.mem.matrix (side s) m k
  rw [penTable_getElem, BitVec.toNat_ofNat, Nat.mod_eq_of_lt (by omega)]

end

/-- Settles O47: each rule is bounded on any grid, and the registers hold the penalties, which are far below `2 ^ 32`. -/
theorem penaltiesAreBounded : Obligations.PenaltiesAreBounded := by
  refine ⟨fun mem v m _ hv hm => ?rules, fun s hv hset => ⟨_, exec_maskSelect_ok hv hset, fun m => ?registers⟩⟩
  case rules =>
    have hsize : 17 + 4 * v ≤ 57 := by omega
    have hA := ruleA_le hsize (grid mem m)
    have hB := ruleB_le hsize (grid mem m)
    have hC := ruleC_le hsize (grid mem m)
    have hD := ruleD_le (17 + 4 * v) (grid mem m)
    have hlt := total_lt mem hsize m
    rw [totalPenalty_eq_total mem hv hm]
    exact ⟨⟨_, _, _, _, penalties_eq_scores mem hv hm, hA, hB, hC, hD, total_eq_add mem _ m⟩, hlt, hA, hB, hC, hD, hlt⟩
  case registers =>
    have hlt := totalPenalty_lt hv m
    refine ⟨toNat_penaltyTable hv m, (toNat_penaltyTable hv m).trans_lt hlt, fun k => ⟨toNat_penTable hv m k, ?_⟩⟩
    exact (toNat_penTable hv m k).trans_lt ((getD_penalties_le _ _ _ _).trans_lt hlt)

/-- The choice of rule R229: the least of the totals, and the first of the equal ones. -/
theorem bestMask_least {n : Nat} (hn : 0 < n) (f : Nat → Nat) {best : Nat} (hbest : bestMask ((List.range n).map f) = best) :
    best < n ∧ ∀ m, m < n → f best ≤ f m ∧ (m < best → f best < f m) := by
  obtain ⟨least, hleast⟩ := Option.isSome_iff_exists.mp
    (List.isSome_min?_of_mem (List.mem_map_of_mem (f := f) (List.mem_range.mpr hn)))
  obtain ⟨hmem, hle⟩ := List.min?_eq_some_iff.mp hleast
  rw [bestMask, hleast, Option.getD_some] at hbest
  subst hbest
  have hlt := List.idxOf_lt_length_of_mem hmem
  have hval : f (((List.range n).map f).idxOf least) = least := by
    have h := List.getElem_idxOf hlt
    rwa [List.getElem_map, List.getElem_range] at h
  rw [hval]
  refine ⟨by simpa using hlt, fun m hm => ?_⟩
  have hfm := hle (f m) (List.mem_map_of_mem (List.mem_range.mpr hm))
  refine ⟨hfm, fun hfirst => lt_of_le_of_ne hfm fun heq => ?_⟩
  have hnot := List.not_of_lt_findIdx (p := (· == least)) hfirst
  rw [List.getElem_map, List.getElem_range, ← heq, beq_self_eq_true] at hnot
  cases hnot

/-- Settles O48: the registers hold the scores of the rules, and the choice is over their totals. -/
theorem maskSelectChoosesTheLeast : Obligations.MaskSelectChoosesTheLeast := by
  intro s hv hset
  have htotal : ∀ m < 8, totalPenalty s.mem.matrix (side s) m = total s.mem (side s) m := fun m hm =>
    totalPenalty_eq_total s.mem hv.2 hm
  have htotals : (List.range 8).map (totalPenalty s.mem.matrix (side s)) = (List.range 8).map (total s.mem (side s)) :=
    List.map_congr_left fun m hm => htotal m (List.mem_range.mp hm)
  refine ⟨_, _, _, exec_maskSelect_ok hv hset, fun m => ⟨fun k => ?pen, ?penalty⟩, ?choice⟩
  case pen => rw [toNat_penTable hv, side, penalties_eq_scores s.mem hv.2 m.isLt]
  case penalty => rw [toNat_penaltyTable hv, htotal m m.isLt]
  case choice =>
    rw [htotals]
    exact bestMask_least (by decide) _ rfl

end Sys2Proof.Machine
namespace Sys2Proof.Machine

open Sys2Proof.Ref

/-! `MASK_APPLY` (rules R220, R226, R234). -/

theorem Cell.masked_eq {x : Cell} (h : x.rsv = true ∨ x.set = true) (sel : Bool) :
    x.masked sel = if x.rsv = false ∧ sel = true then { x with dark := !x.dark } else x := by
  unfold Cell.masked
  by_cases hsel : x.rsv = false ∧ sel = true
  · have hset : x.set = true := h.resolve_left (by rw [hsel.1]; nofun)
    rw [if_pos hsel, if_pos (by rw [hsel.1, hsel.2]; rfl), ← hset]
  · rw [if_neg hsel, if_neg (by simpa using hsel)]

/-- A cell is inverted either twice or not at all (rule R226). -/
theorem Cell.masked_masked {x : Cell} (h : x.rsv = true ∨ x.set = true) (sel : Bool) : (x.masked sel).masked sel = x := by
  have hagain : (x.masked sel).rsv = true ∨ (x.masked sel).set = true := by
    rwa [Cell.masked_rsv, Cell.masked_set h]
  rw [Cell.masked_eq hagain, Cell.masked_rsv, Cell.masked_eq h]
  split
  · simp
  · rfl

section
variable {M : Matrix} (h : M.Square) {size : Nat} (m : Nat)
  (hset : ∀ r c, r < size → c < size → (M.cell r c).rsv = true ∨ (M.cell r c).set = true)
include h hset

theorem cell_applyMask_eq {r c : Nat} (hr : r < planeSide) (hc : c < planeSide) : (M.applyMask size m).cell r c =
    if r < size ∧ c < size ∧ (M.cell r c).rsv = false ∧ maskFn m r c = true then
      { M.cell r c with dark := !(M.cell r c).dark }
    else M.cell r c := by
  rw [Matrix.applyMask, Matrix.cell_mapInside h _ _ hr hc]
  by_cases hin : r < size ∧ c < size
  · rw [if_pos hin, Cell.masked_eq (hset r c hin.1 hin.2)]
    simp only [hin.1, hin.2, true_and]
  · rw [if_neg hin, if_neg fun ⟨hlr, hlc, _⟩ => hin ⟨hlr, hlc⟩]

theorem applyMask_applyMask : (M.applyMask size m).applyMask size m = M := by
  refine ((h.applyMask size m).applyMask size m).ext h fun r c hr hc => ?_
  rw [Matrix.applyMask, Matrix.cell_mapInside (h.applyMask size m) _ _ hr hc, Matrix.applyMask,
    Matrix.cell_mapInside h _ _ hr hc]
  by_cases hin : r < size ∧ c < size
  · simp only [if_pos hin]
    exact Cell.masked_masked (hset r c hin.1 hin.2) _
  · simp only [if_neg hin]

end

/-- The state that `MASK_APPLY` leaves. -/
def afterMaskApply (s : State) (mid : Nat) : State :=
  done { s with
    mask := BitVec.ofNat 3 mid
    mem := (s.storeDark (s.mem.matrix.applyMask (side s) mid)).mem }

section
variable {s : State} (hv : Legal s) (hset : AllSet s) (mid : Nat)
include hv hset

theorem exec_maskApply_ok : exec (.maskApply mid) s = .next (afterMaskApply s mid) := by
  rw [exec_eq_complete, bodyOf, maskApplyBody, withSetCells_allSet hv hset]
  rfl

theorem matrix_afterMaskApply : (afterMaskApply s mid).mem.matrix = s.mem.matrix.applyMask (side s) mid := by
  have hkeeps {r c : Nat} := cell_applyMask (r := r) (c := c) s.mem.square_matrix mid (cell_matrix_set_of_allSet hv hset)
  exact s.matrix_storeDark (s.mem.square_matrix.applyMask _ _) (fun r c hr hc => (hkeeps hr hc).1)
    fun r c hr hc => (hkeeps hr hc).2

/-- Applying a mask leaves every unreserved cell its value, so a mask can be applied again. -/
theorem allSet_afterMaskApply : AllSet (afterMaskApply s mid) := fun r (hr : r < side s) c (hc : c < side s) => by
  have hsize : side s ≤ planeSide := symbolSize_le hv.2
  have hvalues := cell_matrix_set_of_allSet hv hset
  obtain ⟨hrsv, hval⟩ := cell_applyMask (r := r) (c := c) s.mem.square_matrix mid hvalues (by omega) (by omega)
  rw [Memory.planeBit_rsv_eq _ (by omega) (by omega), Memory.planeBit_set_eq _ (by omega) (by omega),
    matrix_afterMaskApply hv hset, hrsv, hval]
  exact hvalues r c hr hc

theorem matrix_afterMaskApply_twice : (afterMaskApply (afterMaskApply s mid) mid).mem.matrix = s.mem.matrix := by
  have hsame : side (afterMaskApply s mid) = side s := rfl
  rw [matrix_afterMaskApply (s := afterMaskApply s mid) hv (allSet_afterMaskApply hv hset mid), hsame,
    matrix_afterMaskApply hv hset]
  exact applyMask_applyMask s.mem.square_matrix mid (cell_matrix_set_of_allSet hv hset)

end

theorem read_afterMaskApply (s : State) (mid : Nat) {a : Nat} (ha : ¬(0x1000 ≤ a ∧ a < 0x11C8)) :
    (afterMaskApply s mid).mem.read a = s.mem.read a := by
  exact (s.mem.read_fillPlane _ _ _).trans (if_neg ha)

/-- Settles O49: the matrix that `MASK_APPLY` leaves, cell by cell; it writes the dark plane only. -/
theorem maskApplyInvertsTheSelectedCells : Obligations.MaskApplyInvertsTheSelectedCells := by
  intro s mid hmid hv hset
  refine ⟨_, exec_maskApply_ok hv hset mid, fun r c hr hc => ?cells, fun a ha => ?frame⟩
  case cells =>
    have hcell := cell_applyMask_eq s.mem.square_matrix mid (cell_matrix_set_of_allSet hv hset) hr hc
    rw [← matrix_afterMaskApply hv hset, maskFn_eq_maskTrue hmid, Memory.cell_matrix _ hr hc, Memory.cell_matrix _ hr hc]
      at hcell
    exact hcell
  case frame =>
    refine read_afterMaskApply s mid fun hin => ?_
    rw [Bool.eq_false_iff, ne_eq, inRanges_cons_iff] at ha
    exact ha (.inl hin)

/-! Memory as data, from the cells of the planes and the bytes outside them. -/

/-- In a state with the invariant a byte reads without bits that do not exist. -/
theorem State.MemoryOk.read_and_presentBits {s : State} (h : s.MemoryOk) (a : Nat) :
    s.mem.read a &&& presentBits a = s.mem.read a := by
  by_cases ha : ∀ c ∈ s.mem, c.1 ≠ a
  · rw [Memory.read_eq_zero ha]
    exact BitVec.zero_and
  · push Not at ha
    obtain ⟨c, hc, rfl⟩ := ha
    rw [Memory.read_of_mem h.1 hc, ← byteMask_eq_presentBits, h.2 c hc]

theorem Memory.planeBit_dark_eq (m : Memory) {r c : Nat} (hr : r < planeSide) (hc : c < planeSide) :
    m.planeBit .dark r c = (m.matrix.cell r c).dark := by rw [m.cell_matrix hr hc]

theorem Memory.planeBit_congr {m m' : Memory} (h : m.matrix = m'.matrix) (p : Plane) {r c : Nat} (hr : r < planeSide)
    (hc : c < planeSide) : m.planeBit p r c = m'.planeBit p r c := by
  cases p with
  | dark => rw [m.planeBit_dark_eq hr hc, h, ← m'.planeBit_dark_eq hr hc]
  | set => rw [m.planeBit_set_eq hr hc, h, ← m'.planeBit_set_eq hr hc]
  | rsv => rw [m.planeBit_rsv_eq hr hc, h, ← m'.planeBit_rsv_eq hr hc]

theorem exists_plane_of_planeByte {a : Nat} (h : planeByte a = true) : ∃ p : Plane, p.base ≤ a ∧ a < p.base + planeBytes := by
  obtain ⟨p, hp⟩ := Option.isSome_iff_exists.mp ((isSome_planeAt_iff a).mpr h)
  exact ⟨p, Plane.holds_of_planeAt hp⟩

/-- A byte of a plane row has no bit but the cells of the row. -/
theorem read_planeByte_eq {s t : State} (hs : s.MemoryOk) (ht : t.MemoryOk) (h : s.mem.matrix = t.mem.matrix) {a : Nat}
    (ha : planeByte a = true) : s.mem.read a = t.mem.read a := by
  obtain ⟨p, hlo, hhi⟩ := exists_plane_of_planeByte ha
  have hbase := p.base_mod_rowStride
  simp only [rowStride, planeBytes] at hbase hhi
  have hrow : a = p.base + rowStride * ((a - p.base) / 8) + 8 * (a % 8) / 8 := by simp only [rowStride]; omega
  rw [← hs.read_and_presentBits a, ← ht.read_and_presentBits a, presentBits_of_plane ha]
  refine BitVec.eq_of_getLsbD_eq fun i hi => ?_
  rw [BitVec.getLsbD_and, BitVec.getLsbD_and]
  by_cases hcol : 8 * (a % 8) + i < planeSide
  · have hbit := Memory.planeBit_congr h p (r := (a - p.base) / 8) (by simp only [planeSide]; omega) hcol
    have hbyte : p.base + rowStride * ((a - p.base) / 8) + (8 * (a % 8) + i) / 8 = a := by simp only [rowStride]; omega
    rw [Memory.planeBit, Memory.planeBit, hbyte, show (8 * (a % 8) + i) % 8 = i by omega] at hbit
    rw [hbit]
  · simp only [planeSide] at hcol
    have hlast : a % 8 = 7 := by omega
    rw [if_pos hlast, getLsbD_byte_one hi, decide_eq_false (by omega), Bool.and_false, Bool.and_false]

/-- Two states with the invariant whose planes hold the same matrix, and which agree outside the planes, have one memory. -/
theorem mem_eq_of_matrix_eq {s t : State} (hs : s.MemoryOk) (ht : t.MemoryOk) (h : s.mem.matrix = t.mem.matrix)
    (hread : ∀ a, planeByte a = false → s.mem.read a = t.mem.read a) : s.mem = t.mem := by
  refine Memory.ext_of_wf hs.1 ht.1 fun a => ?_
  cases ha : planeByte a with
  | true => exact read_planeByte_eq hs ht h ha
  | false => exact hread a ha

theorem read_afterMaskApply_of_not_planeByte (s : State) (mid : Nat) {a : Nat} (ha : planeByte a = false) :
    (afterMaskApply s mid).mem.read a = s.mem.read a := s.mem.read_fillPlane_of_not_planeByte _ _ ha

/-- Settles O50: both applications keep the invariant, so memory is determined by the matrix, which is restored. -/
theorem maskApplyTwiceRestores : Obligations.MaskApplyTwiceRestores := by
  intro s mid hinv hmid hv hset
  have hfirst := exec_maskApply_ok hv hset mid
  have hsecond := exec_maskApply_ok (s := afterMaskApply s mid) hv (allSet_afterMaskApply hv hset mid) mid
  obtain ⟨hmem, -⟩ := id hinv
  obtain ⟨hmem', -⟩ := exec_inv (exec_inv hinv hfirst) hsecond
  have hrestored : (afterMaskApply (afterMaskApply s mid) mid).mem = s.mem :=
    mem_eq_of_matrix_eq hmem' hmem (matrix_afterMaskApply_twice hv hset mid) fun a ha => by
      rw [read_afterMaskApply_of_not_planeByte _ _ ha, read_afterMaskApply_of_not_planeByte _ _ ha]
  refine ⟨_, hfirst, hsecond.trans (congrArg Host.Outcome.next ?_)⟩
  calc afterMaskApply (afterMaskApply s mid) mid
      = { afterMaskApply s mid with mem := (afterMaskApply (afterMaskApply s mid) mid).mem } := rfl
    _ = done { s with mask := BitVec.ofNat 3 mid } := by rw [hrestored]; rfl

end Sys2Proof.Machine
namespace Sys2Proof.Machine

open Sys2Proof.Ref

/-! The interrupt output (rule R258). -/

theorem State.irq_iff (s : State) : s.irq = true ↔ (s.status.done = true ∧ s.irqen.getLsbD 0 = true) ∨
    (s.status.err = true ∧ s.irqen.getLsbD 1 = true) ∨ (s.status.overrun = true ∧ s.irqen.getLsbD 2 = true) := by
  simp only [State.irq, Bool.or_eq_true, Bool.and_eq_true, or_assoc]

/-- Bits 1 to 3 of `STATUS` are the three interrupt sources (rule R18). -/
theorem getLsbD_statusWord_source (t : Status) : (statusWord t).getLsbD 1 = t.done ∧ (statusWord t).getLsbD 2 = t.err ∧
    (statusWord t).getLsbD 3 = t.overrun := by
  rw [← status_word_eq, Status.word]
  simp only [BitVec.getLsbD_append]
  simp

/-- The three sources, counted by their bit of `IRQEN` (rule R19). -/
theorem State.irq_iff_exists (s : State) :
    s.irq = true ↔ ∃ k, k < 3 ∧ (statusWord s.status).getLsbD (k + 1) = true ∧ s.irqen.getLsbD k = true := by
  obtain ⟨hdone, herr, hoverrun⟩ := getLsbD_statusWord_source s.status
  rw [State.irq_iff, ← hdone, ← herr, ← hoverrun]
  constructor
  · rintro (h | h | h)
    · exact ⟨0, by decide, h⟩
    · exact ⟨1, by decide, h⟩
    · exact ⟨2, by decide, h⟩
  · rintro ⟨k, hk, h⟩
    interval_cases k
    · exact .inl h
    · exact .inr (.inl h)
    · exact .inr (.inr h)

/-- Acceptance clears `DONE` and `ERR`, and keeps `OVERRUN` (rule R101). -/
theorem State.irq_accept (s : State) (w : Word) : (s.accept w).irq = (s.status.overrun && s.irqen.getLsbD 2) := by
  simp [State.irq]

/-- With no source enabled the output is 0, whatever `STATUS` is. -/
theorem State.irq_of_irqen_zero {s : State} (h : s.irqen = 0) : s.irq = false := by
  simp [State.irq, h]

/-- Settles O22: each source that is set and enabled is one disjunct of `State.irq_iff`. -/
theorem irqFollowsStatusAndEnable : Obligations.IrqFollowsStatusAndEnable := by
  refine ⟨State.irq_iff_exists, State.irq_of_irqen_zero rfl, fun s hdone => ⟨?_, fun code => ?_⟩,
    fun s herr code => ?_, fun s hoverrun => ?_, State.irq_accept⟩
  · exact (State.irq_iff _).mpr (.inl ⟨rfl, hdone⟩)
  · exact (State.irq_iff _).mpr (.inl ⟨rfl, hdone⟩)
  · exact (State.irq_iff _).mpr (.inr (.inl ⟨rfl, herr⟩))
  · exact (State.irq_iff _).mpr (.inr (.inr ⟨rfl, hoverrun⟩))

/-! What the host reads after reset (rules R38, R281). -/

theorem locate_id_iff (off : Nat) : locate off = .id ↔ off / 4 = 0 := by
  refine ⟨fun h => ?_, locate_of_div⟩
  have hrow := registerMap_locate off
  rw [h] at hrow
  generalize hw : 4 * (off / 4) = w at hrow
  cases hrow
  omega

theorem State.ramByte_reset (a : Nat) : State.reset.ramByte a = 0 := BitVec.zero_and

theorem State.ramWord_reset (w : Nat) : State.reset.ramWord w = 0 := by
  simp only [State.ramWord, State.ramByte_reset]
  rfl

theorem State.penalty_reset (m : Fin 8) : State.reset.penalty[m] = 0 := by decide +revert

theorem State.pen_reset (m : Fin 8) (k : Fin 4) : State.reset.pen[m][k] = 0 := by decide +revert

theorem readWord_reset (off : Nat) : State.reset.readWord off = if locate off = .id then 0x51520A01 else 0 := by
  unfold State.readWord
  cases locate off with
  | penalty m => exact State.penalty_reset m
  | pen m k => exact State.pen_reset m k
  | ram | rsOut => exact State.ramWord_reset _
  | _ => rfl

/-- Settles O23: the block is idle, so a read gives what its location holds after reset, and a `CMD` write is accepted. -/
theorem resetReadsZero : Obligations.ResetReadsZero := by
  refine ⟨rfl, fun off hoff => ⟨_, step_read_of_idle hoff rfl rfl, ?read⟩, Memory.read_nil,
    fun s => State.irq_of_irqen_zero, rfl, fun w => ⟨_, step_write_of_idle (by decide) rfl rfl, rfl, rfl⟩⟩
  case read =>
    calc State.readWord { State.reset with events := [.read 4 off] } off
        = State.reset.readWord off := readWord_onBus [.read 4 off] 0 State.reset off
      _ = if off / 4 = 0 then 0x51520A01 else 0 := by rw [readWord_reset]; simp only [locate_id_iff]

end Sys2Proof.Machine
